-- ==== Sys2Proof/Word.lean ====
section
/-! DEFINITION. The words of the block: one name per width the spec gives (00_scope.md rule R4). -/

namespace Sys2Proof

/-- A symbol: SYM_W = 8 bits (R4). -/
abbrev Symbol := BitVec 8

/-- A byte of the packed payload, or the trailer (10_state.md R21). -/
abbrev Byte := BitVec 8

/-- A command word: CMD_W = 8 bits (R4, 30_encoding.md R60). -/
abbrev CmdWord := BitVec 8

/-- A count: CNT_W = 32 bits (R4). -/
abbrev Count := BitVec 32

/-- A register of the 32-bit kind: the lengths, CT_COUNT, ERR_INFO (10_state.md R25). -/
abbrev Reg32 := BitVec 32

/-- A weight: WGT_W = CNT_W + SYM_W = 40 bits (R4). -/
abbrev Weight := BitVec 40

/-- The data of one port access: wide enough for the widest element, the 40-bit entry
(20_memory.md R40, R42). -/
abbrev PortData := BitVec 40

/-- One bit of a bitstring; `false` is the character '0', `true` the character '1' (R7). -/
abbrev Bit := Bool

/-- A bitstring: a sequence of bits, index 0 first (R7). -/
abbrev Bits := List Bit

end Sys2Proof
end

