-- ==== Sys2Proof/Syntax.lean ====
section
/-! DEFINITION. The commands of the opcode table, the raw fields of a command word, and the host's
transactions. -/

namespace Sys2Proof

/-- The commands of the block, one constructor per row of the opcode table (30_encoding.md R61). The
T flag is the only operand a command carries, and only PACK and UNPACK carry it (R62). -/
inductive Instr where
  /-- NOP, word 0x00 (45_control_and_host.md R136). -/
  | nop
  /-- CLEAR, word 0x01 (45_control_and_host.md R137). -/
  | clear
  /-- COUNT, word 0x02 (40_frequency_sorter.md R81). -/
  | count
  /-- SORT, word 0x03 (40_frequency_sorter.md R82). -/
  | sort
  /-- BUILD, word 0x04 (41_tree_builder.md R91). -/
  | build
  /-- DERIVE, word 0x05 (42_code_table_deriver.md R101). -/
  | derive
  /-- ENCODE, word 0x06 (43_bitstream_encoder.md R111). -/
  | encode
  /-- PACK and PACK.T, words 0x07 and 0x17 (43_bitstream_encoder.md R113). -/
  | pack (t : Bool)
  /-- UNPACK and UNPACK.T, words 0x08 and 0x18 (44_bitstream_decoder.md R121). -/
  | unpack (t : Bool)
  /-- DECODE, word 0x09 (44_bitstream_decoder.md R125). -/
  | decode
  deriving DecidableEq, Repr

/-- The raw fields of a command word (30_encoding.md R60): OP in bits [3:0], T in bit [4], the reserved
bits in [7:5]. Any word has fields; only some field values are a command (WellFormed.lean). -/
structure CmdFields where
  op       : BitVec 4
  t        : Bool
  reserved : BitVec 3
  deriving DecidableEq, Repr

/-- What the host does to the block: the three transactions of 20_memory.md R41, and the reset input of
70_reset_and_hazards.md R170. An address is a pair (space identifier, element index) (R40). -/
inductive Txn where
  /-- `Cmd(word)`: give the engine a command word, legal or not. -/
  | cmd (word : CmdWord)
  /-- `MemRead(space, index)`. -/
  | memRead (space : BitVec 4) (index : BitVec 32)
  /-- `MemWrite(space, index, v)`; `v` stands in the low bits of the data, as wide as the element. -/
  | memWrite (space : BitVec 4) (index : BitVec 32) (v : PortData)
  /-- The reset input (log entry 15). -/
  | reset
  deriving DecidableEq, Repr

/-- The pseudo-instruction COMPRESS (30_encoding.md R70). -/
def compressCommands : List Instr := [.count, .sort, .build, .derive, .encode, .pack true]

/-- The pseudo-instruction DECOMPRESS (30_encoding.md R70). -/
def decompressCommands : List Instr := [.build, .derive, .unpack true, .decode]

end Sys2Proof
end

