-- ==== Sys2Proof/WellFormed.lean ====
section
/-! DEFINITION. Which terms of the syntax are legal. -/

namespace Sys2Proof

/-- OP names a command (30_encoding.md R61: 0x0 to 0x9). -/
def CmdFields.opLegal (f : CmdFields) : Bool := decide (f.op.toNat ≤ 9)

/-- The T flag "may be 1 only when OP is PACK or UNPACK" (30_encoding.md R60). -/
def CmdFields.tLegal (f : CmdFields) : Bool := !f.t || f.op == 7#4 || f.op == 8#4

/-- The reserved bits "must be 0" (30_encoding.md R60). -/
def CmdFields.reservedLegal (f : CmdFields) : Bool := f.reserved == 0#3

/-- The fields are those of a legal command word: none of the three conditions of 30_encoding.md R63
holds. -/
def CmdFields.wellFormed (f : CmdFields) : Bool := f.reservedLegal && f.opLegal && f.tLegal

/-- Every term of `Instr` is a legal command: its twelve terms are the twelve legal words (30_encoding.md
R61), since only PACK and UNPACK carry a T flag and they admit both values (R62). -/
def Instr.wellFormed : Instr → Bool
  | .nop => true
  | .clear => true
  | .count => true
  | .sort => true
  | .build => true
  | .derive => true
  | .encode => true
  | .pack _ => true
  | .unpack _ => true
  | .decode => true

/-- The width of the element at an address (20_memory.md R40, 10_state.md R25), for the addresses that
name one; where there is none the width is that of the data lines. -/
def elementWidth (space : BitVec 4) (index : BitVec 32) : Nat :=
  match space.toNat with
  | 0 => if index.toNat = 0 ∨ index.toNat = 6 ∨ index.toNat = 7 then 8 else 32
  | 1 => 8
  | 2 => 40
  | 3 => 40
  | 4 => 9
  | 5 => 1
  | 6 => 1
  | 7 => 8
  | _ => 40

/-- A transaction is well-formed when the data of a write has the width of the element it is written to
(20_memory.md R41: "`v` has the width of the element"). -/
def Txn.wellFormed : Txn → Bool
  | .cmd _ => true
  | .memRead _ _ => true
  | .memWrite space index v => decide (v.toNat < 2 ^ elementWidth space index)
  | .reset => true

end Sys2Proof
end

