-- ==== Sys2Proof/Decode.lean ====
section
/-! DEFINITION. The decoder of command words, total, refusing by name, and after it the encoder. -/

namespace Sys2Proof

/-- Why a word is illegal: the three conditions of 30_encoding.md R63, by name. -/
inductive IllegalReason where
  /-- `word[7:5] ≠ 0`. -/
  | reservedBits
  /-- `word[3:0]` is 0xA to 0xF. -/
  | operation
  /-- `word[4] = 1` and `word[3:0]` is neither 0x7 nor 0x8. -/
  | trailerFlag
  deriving DecidableEq, Repr

/-- The fields of a word (30_encoding.md R60). -/
def fieldsOf (w : CmdWord) : CmdFields :=
  { op := w.extractLsb' 0 4, t := w.getLsbD 4, reserved := w.extractLsb' 5 3 }

/-- The operation a value of OP names (30_encoding.md R61), given the T flag. -/
def operationOf (op : BitVec 4) (t : Bool) : Option Instr :=
  match op.toNat with
  | 0 => some .nop
  | 1 => some .clear
  | 2 => some .count
  | 3 => some .sort
  | 4 => some .build
  | 5 => some .derive
  | 6 => some .encode
  | 7 => some (.pack t)
  | 8 => some (.unpack t)
  | 9 => some .decode
  | _ => none

/-- The command the fields stand for, or the condition of 30_encoding.md R63 that makes them illegal. -/
def decodeFields (f : CmdFields) : Except IllegalReason Instr :=
  if !f.reservedLegal then .error .reservedBits
  else match operationOf f.op f.t with
    | none => .error .operation
    | some i => if f.tLegal then .ok i else .error .trailerFlag

/-- The decoder: any word gives a command or the reason it is illegal. -/
def decode (w : CmdWord) : Except IllegalReason Instr := decodeFields (fieldsOf w)

/-- The value of OP of a command (30_encoding.md R61). -/
def opOf : Instr → BitVec 4
  | .nop => 0x0#4
  | .clear => 0x1#4
  | .count => 0x2#4
  | .sort => 0x3#4
  | .build => 0x4#4
  | .derive => 0x5#4
  | .encode => 0x6#4
  | .pack _ => 0x7#4
  | .unpack _ => 0x8#4
  | .decode => 0x9#4

/-- The T flag of a command (30_encoding.md R62). -/
def tFlagOf : Instr → Bool
  | .pack t => t
  | .unpack t => t
  | .nop | .clear | .count | .sort | .build | .derive | .encode | .decode => false

/-- The encoder: reserved bits zero, T in bit 4, OP in bits [3:0] (30_encoding.md R60, R61). -/
def encode (i : Instr) : CmdWord := 0#3 ++ BitVec.ofBool (tFlagOf i) ++ opOf i

/-- The command the decoder reads from a word numbered as the opcode table numbers it. Commands have "one
length" of 8 bits (30_encoding.md R60), so a longer word with a bit above bit 7 set is no command. -/
def decodeTableWord (nbits w : Nat) : Option Instr :=
  let word := w % 2 ^ nbits
  if word < 256 then
    match decode (BitVec.ofNat 8 word) with
    | .ok i => some i
    | .error _ => none
  else none

end Sys2Proof
end

