-- ==== Sys2Proof/Config.lean ====
section
/-! DEFINITION. What an implementation fixes (the open parameter BYTES_CAP) and the free values. -/

namespace Sys2Proof

/-- The open parameter of the block (00_scope.md R4, 92_eei_decisions.md D5): BYTES_CAP, the capacity
of the payload part of BY in bytes. It is a model argument: a state carries it and no step writes it
(log entry 6). -/
structure Params where
  bytesCap : Nat
  deriving DecidableEq, Repr

/-- The suggested value of the open parameter (R4: "OPEN, model argument; suggested 65536").
DESIGN CHOICE, log entry 6. -/
def Params.suggested : Params := { bytesCap := 65536 }

/-! ## Free values
What a host read of an element that holds no value returns (10_state.md R30, 93_implementation_defined.md
U1: "any value ... a free draw, under no law"). None has a body, so nothing can be proved of what it is; each is
applied to the draw counter of the state (log entry 4). -/

/-- The value of an element of TXT that holds none. -/
opaque Config.freeSymbol : Nat → BitVec 8

/-- The value of an element of FT or RL that holds none, as the port word of 20_memory.md R42. -/
opaque Config.freeEntry : Nat → BitVec 40

/-- The value of an element of BS or CTC that holds none. -/
opaque Config.freeBit : Nat → Bool

/-- The value of an element of BY that holds none. -/
opaque Config.freeByte : Nat → BitVec 8

/-- The value of an element of CTL, or of the length part of one, that holds none. -/
opaque Config.freeHead : Nat → BitVec 9

end Sys2Proof
end

