-- ==== Sys2Proof/Machine/State.lean ====
section
/-! DEFINITION. The state of the block, as plain data, and its value after reset. -/

namespace Sys2Proof.Machine

/-- A FrequencyEntry: one element of FT or RL (10_state.md R14, R15). -/
structure Entry where
  sym : Symbol
  cnt : Count
  deriving DecidableEq, Repr

/-- A tree value (00_scope.md R9): a leaf holding a symbol, or a node owning exactly two children. Every
node carries its weight (10_state.md R16). -/
inductive Tree where
  | leaf (sym : Symbol) (weight : Weight)
  | node (left right : Tree) (weight : Weight)
  deriving DecidableEq, Repr

/-- The elements of a buffer that have been written: pairs of index and value in one canonical form, the
indices strictly rising (`CellsOk` in Safety.lean). An index that is not listed holds no value
(10_state.md R30). -/
abbrev Cells (α : Type) := List (Nat × α)

/-- The errors the block records (60_exceptions.md R150). The numbers of R151 are in Flags.lean. -/
inductive ErrorCause where
  | emptyInput
  | emptyHeap
  | emptyTree
  | invalidPadding
  | corruptStream
  | badList
  | noCode
  | capacity
  | illegalCommand
  deriving DecidableEq, Repr

/-- What the host port answered to the last transaction (the model's own, log entry 2). -/
inductive Response where
  /-- No transaction since reset. -/
  | none
  /-- A command has ended (20_memory.md R41), or a write has been done. -/
  | done
  /-- A read has been done: the element, zero-extended to the data lines. -/
  | data (v : PortData)
  /-- The transaction was refused with an error response; a read returns no value (20_memory.md R44). -/
  | accessError
  deriving DecidableEq, Repr

/-- Why the machine would stop with a fault. The spec describes no behaviour that stops the block: its
errors are recorded in STATUS and the block goes on answering transactions (60_exceptions.md R152, R153),
and bad host accesses are answered on the port (20_memory.md R44). So there is no fault: no constructor,
nothing raises one (log entry 19; safe). -/
inductive Fault : Type where
  deriving DecidableEq, Repr

/-- Why the model gives an instruction, or one use of it, no meaning. -/
inductive Refusal where
  /-- The instruction of that name has no meaning yet. Raised by no arm: every command has its meaning
  (safe, since a refused run proves nothing). -/
  | notModelled (mnemonic : String)
  /-- The command reads an input buffer whose length exposes an element that holds no value: it "has no
  defined result" (70_reset_and_hazards.md R172) and 93_implementation_defined.md U1 rules `refuse`. Raised by
  COUNT, SORT, BUILD, ENCODE, PACK, UNPACK and DECODE (log entry 5; safe, since a refused run proves
  nothing). -/
  | unwrittenInput
  deriving DecidableEq, Repr

/-- The whole state. TREE_VALID is the presence of `tree`, CT_VALID the presence of `ct` (log entry 10);
WL and CAND exist only while a command executes and so have no field (10_state.md R17, R24, R31). -/
structure State where
  /-- The open parameter; no step writes it (log entry 6). -/
  params   : Params
  /-- STATUS.ERR, `none` for the code 0 (10_state.md R26). -/
  err      : Option ErrorCause
  /-- STATUS.BUSY (10_state.md R26). -/
  busy     : Bool
  /-- TXT_LEN (10_state.md R13, R25). -/
  txtLen   : Reg32
  /-- FT_LEN (10_state.md R14, R25). -/
  ftLen    : Reg32
  /-- RL_LEN (10_state.md R15, R25). -/
  rlLen    : Reg32
  /-- BS_LEN (10_state.md R20, R25). -/
  bsLen    : Reg32
  /-- BY_LEN (10_state.md R21, R25). -/
  byLen    : Reg32
  /-- PAD_OUT, its bits [2:0]; the others read 0 (10_state.md R22, R25). -/
  padOut   : BitVec 3
  /-- PAD_IN (10_state.md R23). -/
  padIn    : Byte
  /-- CT_COUNT (10_state.md R18). -/
  ctCount  : Reg32
  /-- ERR_INFO (10_state.md R28). -/
  errInfo  : Reg32
  /-- TXT (10_state.md R13). -/
  txt      : Cells Symbol
  /-- FT (10_state.md R14). -/
  ft       : Cells Entry
  /-- RL (10_state.md R15). -/
  rl       : Cells Entry
  /-- BS (10_state.md R20). -/
  bs       : Cells Bit
  /-- BY (10_state.md R21). -/
  byBuf    : Cells Byte
  /-- CT (10_state.md R18): its valid entries, the code of each keyed by the symbol; `none` while
  CT_VALID = 0. An entry that is not listed has `valid = 0`; `len` is the length of the code. -/
  ct       : Option (Cells Bits)
  /-- TREE (10_state.md R16), `none` while TREE_VALID = 0. -/
  tree     : Option Tree
  /-- The host's transactions not yet taken, oldest first (the model's own, log entry 1). -/
  pending  : List Txn
  /-- The port's answer to the last transaction (the model's own, log entry 2). -/
  response : Response
  /-- The counter free values are drawn with (the model's own, log entry 4). -/
  draws    : Nat
  deriving DecidableEq, Repr

/-- The state right after reset (10_state.md R31, 70_reset_and_hazards.md R170): STATUS 0x00, every
length and register 0, no element holding a value, the block idle. -/
def State.reset : State :=
  { params := Params.suggested
    err := none
    busy := false
    txtLen := 0
    ftLen := 0
    rlLen := 0
    bsLen := 0
    byLen := 0
    padOut := 0
    padIn := 0
    ctCount := 0
    errInfo := 0
    txt := []
    ft := []
    rl := []
    bs := []
    byBuf := []
    ct := none
    tree := none
    pending := []
    response := .none
    draws := 0 }

end Sys2Proof.Machine
end

