-- ==== Sys2Proof/Machine/Ops.lean ====
section
/-! DEFINITION. The shared operations: capacities, the cells of a buffer, ordered insertion, recording an
error and the return from it, the bracket around a command. -/

namespace Sys2Proof.Machine

/-! ## Capacities (00_scope.md R4) -/

/-- BY_CAP = BYTES_CAP + 1. -/
def byCap (p : Params) : Nat := p.bytesCap + 1

/-- BITS_MAX = 8·BYTES_CAP. -/
def bitsMax (p : Params) : Nat := 8 * p.bytesCap

/-- TEXT_MAX = BITS_MAX. -/
def textMax (p : Params) : Nat := bitsMax p

/-- NSYM_MAX = 256, the capacity of FT and RL and the number of entries of CT. -/
def nsymMax : Nat := 256

/-! ## Cells -/

/-- The value the element at an index holds, if it holds one. -/
def readCell {α : Type} : Cells α → Nat → Option α
  | [], _ => none
  | (j, v) :: c, i => if j = i then some v else readCell c i

/-- Replace the element at an index (20_memory.md R41), keeping the indices strictly rising. -/
def writeCell {α : Type} : Cells α → Nat → α → Cells α
  | [], i, v => [(i, v)]
  | (j, w) :: c, i, v =>
    if i < j then (i, v) :: (j, w) :: c
    else if i = j then (i, v) :: c
    else (j, w) :: writeCell c i v

/-- The cells of a sequence laid at rising indices from `k` on. -/
def cellsFrom {α : Type} (k : Nat) : List α → Cells α
  | [] => []
  | v :: vs => (k, v) :: cellsFrom (k + 1) vs

/-- `for k in 0..len(vs): BUF[k] <- vs[k]`: the elements below the length of `vs` are replaced, the others
are as they were. -/
def writePrefix {α : Type} (c : Cells α) (vs : List α) : Cells α :=
  cellsFrom 0 vs ++ c.filter (fun e => decide (vs.length ≤ e.1))

/-- Every element below `n` holds a value. -/
def allWritten {α : Type} (c : Cells α) (n : Nat) : Bool :=
  (List.range n).all (fun i => (readCell c i).isSome)

/-- `BUF[0..n)` as a command reads it: the values held below `n`, in the order of the index. A command runs
on it only when every element below `n` holds one (`whenReady`), so that it has `n` elements. -/
def content {α : Type} (c : Cells α) (n : Nat) : List α := (List.range n).filterMap (readCell c)

/-! ## Ordered insertion -/

/-- Insert into a list in descending order of `key`, behind every entry of the same or a greater key: the
position is the number of entries `x` with `key x ≥ key e` (40_frequency_sorter.md R82,
41_tree_builder.md R91, R93). -/
def insertTiesLast {α : Type} (key : α → Nat) (e : α) (l : List α) : List α :=
  let p := l.countP (fun x => decide (key e ≤ key x))
  l.take p ++ e :: l.drop p

/-! ## Recording an error, and the return from it -/

/-- What `raise` invalidates: the destination of the command (60_exceptions.md R152). -/
inductive Dest where
  /-- COUNT. -/
  | ft
  /-- BUILD. -/
  | tree
  /-- DERIVE. -/
  | ct
  /-- ENCODE and UNPACK. -/
  | bs
  /-- DECODE. -/
  | txt
  /-- Dispatch, for an illegal word: nothing. -/
  | nothing
  deriving DecidableEq, Repr

/-- Invalidate a destination (60_exceptions.md R152): its length or valid flag is cleared and its elements
hold no value afterwards. -/
def invalidate (d : Dest) (s : State) : State :=
  match d with
  | .ft => { s with ftLen := 0, ft := [] }
  | .tree => { s with tree := none }
  | .ct => { s with ct := none, ctCount := 0 }
  | .bs => { s with bsLen := 0, bs := [] }
  | .txt => { s with txtLen := 0, txt := [] }
  | .nothing => s

/-- `raise E(info)` (60_exceptions.md R152): record the error and its context, invalidate the command's
destination, and nothing else. It is how the block takes an exception: no state is saved and control goes
nowhere. -/
def raise (d : Dest) (e : ErrorCause) (info : Reg32) (s : State) : State :=
  invalidate d { s with err := some e, errInfo := info }

/-- The block in the state of 10_state.md R31, as CLEAR and reset leave it (45_control_and_host.md R137,
70_reset_and_hazards.md R170). It is the only way out of the faulted state (60_exceptions.md R154). The
open parameter and the model's own fields stay (log entries 1, 2, 4, 6). -/
def emptied (s : State) : State :=
  { State.reset with
    params := s.params
    pending := s.pending
    response := s.response
    draws := s.draws }

/-! ## Around a command -/

/-- "The command executes only if `csr.STATUS.ERR = 0`; otherwise it is ignored" (40_frequency_sorter.md
R80 (a), 45_control_and_host.md R135). `held` says that every element the command reads of its input buffer
holds a value: a command that reads one which holds none "has no defined result" (70_reset_and_hazards.md
R172) and is refused, as 93_implementation_defined.md U1 rules (log entry 5). -/
def whenReady (s : State) (held : Bool) (body : State → State) : Host.Outcome State Fault Refusal :=
  match s.err with
  | none => if held then .next (body s) else .refused .unwrittenInput
  | some _ => .next s

/-- Take the oldest pending transaction: what is left is held until it has ended (20_memory.md R49,
R52). -/
def takeTxn (rest : List Txn) (s : State) : State := { s with pending := rest }

/-- A command begins: it has been taken from the pending transactions, and BUSY is 1 while it executes
(10_state.md R26). -/
def beginCommand (rest : List Txn) (s : State) : State := { takeTxn rest s with busy := true }

/-- A command has ended: BUSY is 0 again and the host's `Cmd` is complete (20_memory.md R41, 10_state.md
R26). -/
def endCommand (s : State) : State := { s with busy := false, response := .done }

/-- Apply a function to the state of a next outcome. -/
def mapNext (f : State → State) :
    Host.Outcome State Fault Refusal → Host.Outcome State Fault Refusal
  | .next s => .next (f s)
  | .fault r => .fault r
  | .refused r => .refused r

/-- The next state of an outcome, if it is one. -/
def nextState? : Host.Outcome State Fault Refusal → Option State
  | .next s => some s
  | .fault _ => none
  | .refused _ => none

end Sys2Proof.Machine
end

