-- ==== Sys2Proof/Machine/Operands.lean ====
section
/-! DEFINITION. What a command reads: the content of each buffer below its length register. A command word
names none of its operands (10_state.md R10); the T flag is its only operand (30_encoding.md R62). -/

namespace Sys2Proof.Machine

/-- The fields of an entry's port word `cnt[31:0] ‖ sym[7:0]` (20_memory.md R42). -/
def entryOfWord (w : BitVec 40) : Entry := { sym := w.extractLsb' 0 8, cnt := w.extractLsb' 8 32 }

/-- The port word of an entry (20_memory.md R42). -/
def wordOfEntry (e : Entry) : BitVec 40 := e.cnt ++ e.sym

/-- `TXT[0..TXT_LEN)` (10_state.md R13). -/
def txtContent (s : State) : List Symbol := content s.txt s.txtLen.toNat

/-- `FT[0..FT_LEN)` (10_state.md R14). -/
def ftContent (s : State) : List Entry := content s.ft s.ftLen.toNat

/-- `RL[0..RL_LEN)` (10_state.md R15). -/
def rlContent (s : State) : List Entry := content s.rl s.rlLen.toNat

/-- `BS[0..BS_LEN)` (10_state.md R20). -/
def bsContent (s : State) : Bits := content s.bs s.bsLen.toNat

/-- `BY[0..BY_LEN)` (10_state.md R21). -/
def byContent (s : State) : List Byte := content s.byBuf s.byLen.toNat

/-! ## Whether the elements a command reads hold values (70_reset_and_hazards.md R172) -/

/-- Every element of `TXT[0..TXT_LEN)` holds a value. -/
def txtHeld (s : State) : Bool := allWritten s.txt s.txtLen.toNat

/-- Every element of `FT[0..FT_LEN)` holds a value. -/
def ftHeld (s : State) : Bool := allWritten s.ft s.ftLen.toNat

/-- Every element of `RL[0..RL_LEN)` holds a value. -/
def rlHeld (s : State) : Bool := allWritten s.rl s.rlLen.toNat

/-- Every element of `BS[0..BS_LEN)` holds a value. -/
def bsHeld (s : State) : Bool := allWritten s.bs s.bsLen.toNat

/-- Every element of `BY[0..BY_LEN)` holds a value. -/
def byHeld (s : State) : Bool := allWritten s.byBuf s.byLen.toNat

end Sys2Proof.Machine
end

