-- ==== Sys2Proof/Machine/Builder.lean ====
section
/-! DEFINITION. The huffman_tree_builder sub-block: BUILD (41_tree_builder.md). -/

namespace Sys2Proof.Machine

/-- The weight a tree carries at its root (10_state.md R16). -/
def treeWeight : Tree → Weight
  | .leaf _ w => w
  | .node _ _ w => w

/-- The symbols of a tree's leaves, left subtree before right. -/
def treeSymbols : Tree → List Symbol
  | .leaf s _ => [s]
  | .node l r _ => treeSymbols l ++ treeSymbols r

/-- Entry `i` of the ranked list is ill-formed (41_tree_builder.md R92): a zero count, a count above the
one before it, or a symbol seen earlier. -/
def illFormedAt (rl : List Entry) (i : Nat) : Bool :=
  match rl[i]? with
  | none => false
  | some e =>
    e.cnt == 0
      || (i != 0 && (rl[i - 1]?).any (fun before => decide (before.cnt.toNat < e.cnt.toNat)))
      || (rl.take i).any (fun earlier => earlier.sym == e.sym)

/-- The smallest ill-formed index (41_tree_builder.md R92), if there is one. -/
def firstIllFormed (rl : List Entry) : Option Nat := (List.range rl.length).find? (illFormedAt rl)

/-- The work list BUILD starts from: a leaf for each entry, in the order of RL (41_tree_builder.md R91). An
entry of the work list is a pair (tree, weight) (10_state.md R17); the weight is the one the tree carries
(log entry 11). -/
def initialWorkList (rl : List Entry) : List Tree := rl.map (fun e => .leaf e.sym (e.cnt.setWidth 40))

/-- A new node: left child the last entry of the list, right child the one before it (41_tree_builder.md
R94), its weight the sum of theirs (R91). -/
def mergeTrees (last before : Tree) : Tree := .node last before (treeWeight last + treeWeight before)

/-- One merge (41_tree_builder.md R91): the two last entries are removed and their node is put back behind
every entry of the same or a greater weight (R93). -/
def mergeStep (wl : List Tree) : List Tree :=
  match wl.reverse with
  | last :: before :: rest =>
    insertTiesLast (fun t => (treeWeight t).toNat) (mergeTrees last before) rest.reverse
  | _ => wl

/-- The merges, until one entry is left; each takes one entry off the list, so its length bounds their
number (70_reset_and_hazards.md R176). -/
def mergeAll : Nat → List Tree → List Tree
  | 0, wl => wl
  | k + 1, wl => if wl.length ≤ 1 then wl else mergeAll k (mergeStep wl)

/-- The tree of a ranked list: `wl[0].tree` after the last merge (41_tree_builder.md R91). -/
def buildTree (rl : List Entry) : Option Tree := (mergeAll rl.length (initialWorkList rl)).head?

/-- What BUILD does when it executes (41_tree_builder.md R91). -/
def buildBody (s : State) : State :=
  if s.rlLen = 0 then raise .tree .emptyHeap 0 s
  else match firstIllFormed (rlContent s) with
    | some i => raise .tree .badList (BitVec.ofNat 32 i) s
    | none => { s with tree := buildTree (rlContent s) }

/-- BUILD (41_tree_builder.md R91). -/
def execBuild (s : State) : Host.Outcome State Fault Refusal := whenReady s (rlHeld s) buildBody

end Sys2Proof.Machine
end

