-- ==== Sys2Proof/Machine/Control.lean ====
section
/-! DEFINITION. The control commands NOP and CLEAR, the illegal word, and the reset input. -/

namespace Sys2Proof.Machine

/-- NOP does nothing (45_control_and_host.md R136); it is not a fence (20_memory.md R50). -/
def execNop (s : State) : Host.Outcome State Fault Refusal := .next s

/-- CLEAR ends the invocation and empties the block (45_control_and_host.md R137). "It is the one command
that executes while an error is recorded". -/
def execClear (s : State) : Host.Outcome State Fault Refusal := .next (emptied s)

/-- An illegal word (30_encoding.md R63): `raise IllegalCommand(zext_32(word))` while no error is recorded;
ignored otherwise (45_control_and_host.md R135). -/
def execIllegal (word : CmdWord) (s : State) : Host.Outcome State Fault Refusal :=
  whenReady s true (raise .nothing .illegalCommand (word.setWidth 32))

/-- The reset input (70_reset_and_hazards.md R170): the state of 10_state.md R31; the port has answered
nothing since (log entry 15). -/
def resetBlock (s : State) : State := { emptied s with response := .none }

end Sys2Proof.Machine
end

