-- ==== Sys2Proof/Machine/Decoder.lean ====
section
/-! DEFINITION. The huffman_bitstream_decoder: UNPACK and DECODE (44_bitstream_decoder.md). -/

namespace Sys2Proof.Machine

/-- The first `l` bits of a payload, bit 7 of each byte first (44_bitstream_decoder.md R121,
20_memory.md R45). -/
def payloadBits (bytes : List Byte) (l : Nat) : Bits :=
  (List.range l).map (fun k => ((bytes[k / 8]?).getD 0).getLsbD (7 - k % 8))

/-- The checks of UNPACK on the stated padding count in PAD_IN and the number `np` of payload bytes, in order
(44_bitstream_decoder.md R121): the error they raise and its context, if they raise one. -/
def payloadError (np : Nat) (s : State) : Option (ErrorCause × Reg32) :=
  if 8 ≤ s.padIn.toNat then some (.invalidPadding, s.padIn.setWidth 32)
  else if 8 * np < s.padIn.toNat then some (.invalidPadding, s.padIn.setWidth 32)
  else if bitsMax s.params < 8 * np - s.padIn.toNat then some (.capacity, s.byLen)
  else none

/-- The checks, and the expansion of a payload of `np` bytes (44_bitstream_decoder.md R121). PAD_IN holds the
stated padding count. -/
def expandPayload (payload : List Byte) (np : Nat) (s : State) : State :=
  match payloadError np s with
  | some (e, info) => raise .bs e info s
  | none =>
    { s with
      bs := writePrefix s.bs (payloadBits payload (8 * np - s.padIn.toNat))
      bsLen := BitVec.ofNat 32 (8 * np - s.padIn.toNat) }

/-- What UNPACK does when it executes (44_bitstream_decoder.md R121). With T = 1 the last byte of BY is the
trailer: it goes to PAD_IN, where it stays even if a check fails, and is no payload byte. -/
def unpackBody (t : Bool) (s : State) : State :=
  if t then
    match (byContent s).getLast? with
    | none => raise .bs .corruptStream 0 s
    | some trailer => expandPayload (byContent s).dropLast (s.byLen.toNat - 1) { s with padIn := trailer }
  else expandPayload (byContent s) s.byLen.toNat s

/-- UNPACK and UNPACK.T (44_bitstream_decoder.md R121). Without T the checks come before it reads BY; with T
it reads the trailer first. -/
def execUnpack (t : Bool) (s : State) : Host.Outcome State Fault Refusal :=
  whenReady s ((!t && (payloadError s.byLen.toNat s).isSome) || byHeld s) (unpackBody t)

/-- `DT[cand]`, the inverse of CT (10_state.md R19): the symbol whose code the candidate is. -/
def lookupCode : Cells Bits → Bits → Option Symbol
  | [], _ => none
  | (k, code) :: ct, cand => if code = cand then some (BitVec.ofNat 8 k) else lookupCode ct cand

/-- The loop of DECODE (44_bitstream_decoder.md R125) from bit index `k` on, with the candidate, the index
of its first bit and the symbols so far: the text, or the index the residual starts at. The test after the
loop is kept from the spec; it never succeeds (R126). -/
def decodeFrom (ct : Cells Bits) : Nat → Bits → Bits → Nat → List Symbol → Except Nat (List Symbol)
  | _, [], cand, start, out =>
    if cand = [] then .ok out
    else match lookupCode ct cand with
      | some s => .ok (out ++ [s])
      | none => .error start
  | k, b :: bits, cand, start, out =>
    let start := if cand = [] then k else start
    match lookupCode ct (cand ++ [b]) with
    | some s => decodeFrom ct (k + 1) bits [] start (out ++ [s])
    | none => decodeFrom ct (k + 1) bits (cand ++ [b]) start out

/-- What DECODE does when it executes (44_bitstream_decoder.md R125). -/
def decodeBody (s : State) : State :=
  match s.ct with
  | none => raise .txt .emptyTree 0 s
  | some ct =>
    match decodeFrom ct 0 (bsContent s) [] 0 [] with
    | .error start => raise .txt .corruptStream (BitVec.ofNat 32 start) s
    | .ok text =>
      { s with
        txt := writePrefix s.txt text
        txtLen := BitVec.ofNat 32 text.length }

/-- DECODE (44_bitstream_decoder.md R125). The check of CT_VALID comes before it reads the bitstring. -/
def execDecode (s : State) : Host.Outcome State Fault Refusal :=
  whenReady s (s.ct.isNone || bsHeld s) decodeBody

end Sys2Proof.Machine
end

