-- ==== Sys2Proof/Machine/Deriver.lean ====
section
/-! DEFINITION. The canonical_code_table_deriver: DERIVE (42_code_table_deriver.md). -/

namespace Sys2Proof.Machine

/-- The walk of 42_code_table_deriver.md R101: each leaf's symbol with its path from the root, left (bit 0)
before right (bit 1). -/
def walkTree : Tree → Bits → List (Symbol × Bits)
  | .leaf s _, path => [(s, path)]
  | .node l r _, path => walkTree l (path ++ [false]) ++ walkTree r (path ++ [true])

/-- The codes of a tree: the paths, and "0" for the only symbol of a tree that is a leaf
(42_code_table_deriver.md R101, R102). -/
def treeCodes : Tree → List (Symbol × Bits)
  | .leaf s _ => [(s, [false])]
  | .node l r w => walkTree (.node l r w) []

/-- The code table of a tree: a fresh table, no entry valid, with each code written at its symbol
(42_code_table_deriver.md R101). -/
def codeTable (t : Tree) : Cells Bits :=
  (treeCodes t).foldl (fun ct sc => writeCell ct sc.1.toNat sc.2) []

/-- What DERIVE does when it executes (42_code_table_deriver.md R101): the table is replaced and the tree
consumed (R104). -/
def deriveBody (s : State) : State :=
  match s.tree with
  | none => raise .ct .emptyTree 0 s
  | some t =>
    { s with
      ct := some (codeTable t)
      ctCount := BitVec.ofNat 32 (codeTable t).length
      tree := none }

/-- DERIVE (42_code_table_deriver.md R101). It reads no buffer. -/
def execDerive (s : State) : Host.Outcome State Fault Refusal := whenReady s true deriveBody

end Sys2Proof.Machine
end

