-- ==== Sys2Proof/Machine/Encoder.lean ====
section
/-! DEFINITION. The huffman_bitstream_encoder: ENCODE and PACK (43_bitstream_encoder.md). -/

namespace Sys2Proof.Machine

/-- The loop of ENCODE (43_bitstream_encoder.md R111) from text index `i` on, with the bits so far: the
whole bitstring, or the error and the index it is raised with. -/
def encodeFrom (ct : Cells Bits) (max : Nat) : Nat → List Symbol → Bits → Except (ErrorCause × Nat) Bits
  | _, [], bs => .ok bs
  | i, s :: text, bs =>
    match readCell ct s.toNat with
    | none => .error (.noCode, i)
    | some code =>
      if max < bs.length + code.length then .error (.capacity, i)
      else encodeFrom ct max (i + 1) text (bs ++ code)

/-- What ENCODE does when it executes (43_bitstream_encoder.md R111). -/
def encodeBody (s : State) : State :=
  match s.ct with
  | none => raise .bs .emptyTree 0 s
  | some ct =>
    match encodeFrom ct (bitsMax s.params) 0 (txtContent s) [] with
    | .error (e, i) => raise .bs e (BitVec.ofNat 32 i) s
    | .ok bits =>
      { s with
        bs := writePrefix s.bs bits
        bsLen := BitVec.ofNat 32 bits.length }

/-- ENCODE (43_bitstream_encoder.md R111). The check of CT_VALID comes before it reads the text. -/
def execEncode (s : State) : Host.Outcome State Fault Refusal :=
  whenReady s (s.ct.isNone || txtHeld s) encodeBody

/-- The padding count of a bitstring of length `l`: `(8 - (L mod 8)) mod 8` (30_encoding.md R65,
43_bitstream_encoder.md R114). -/
def padCount (l : Nat) : Nat := (8 - l % 8) % 8

/-- The byte whose bit 7 is `f 0`, bit 6 `f 1`, and so on: most-significant bit first (20_memory.md R45). -/
def byteOfBits (f : Nat → Bit) : Byte :=
  BitVec.ofBool (f 0) ++ BitVec.ofBool (f 1) ++ BitVec.ofBool (f 2) ++ BitVec.ofBool (f 3)
    ++ BitVec.ofBool (f 4) ++ BitVec.ofBool (f 5) ++ BitVec.ofBool (f 6) ++ BitVec.ofBool (f 7)

/-- Byte `j` of the payload of a bitstring: bits `8j` to `8j+7`, the padding bits zero
(43_bitstream_encoder.md R113). -/
def payloadByte (bits : Bits) (j : Nat) : Byte := byteOfBits (fun i => (bits[8 * j + i]?).getD false)

/-- The payload of a bitstring: `ceil(L/8)` bytes (30_encoding.md R65). -/
def payloadBytes (bits : Bits) : List Byte :=
  (List.range ((bits.length + padCount bits.length) / 8)).map (payloadByte bits)

/-- What PACK writes to BY: the payload, and with T = 1 the trailer byte holding the padding count
(43_bitstream_encoder.md R113, 30_encoding.md R62, R66). -/
def packedBytes (t : Bool) (bits : Bits) : List Byte :=
  if t then payloadBytes bits ++ [BitVec.ofNat 8 (padCount bits.length)] else payloadBytes bits

/-- What PACK does when it executes (43_bitstream_encoder.md R113). -/
def packBody (t : Bool) (s : State) : State :=
  let bytes := packedBytes t (bsContent s)
  { s with
    byBuf := writePrefix s.byBuf bytes
    byLen := BitVec.ofNat 32 bytes.length
    padOut := BitVec.ofNat 3 (padCount (bsContent s).length) }

/-- PACK and PACK.T (43_bitstream_encoder.md R113). -/
def execPack (t : Bool) (s : State) : Host.Outcome State Fault Refusal :=
  whenReady s (bsHeld s) (packBody t)

end Sys2Proof.Machine
end

