-- ==== Sys2Proof/Machine/Sorter.lean ====
section
/-! DEFINITION. The frequency_sorter: COUNT and SORT (40_frequency_sorter.md). -/

namespace Sys2Proof.Machine

/-- One occurrence of a symbol: its entry's count goes up by one, or a new entry is appended at the first
encounter (40_frequency_sorter.md R81, the body of the loop). -/
def countSymbol : List Entry → Symbol → List Entry
  | [], s => [{ sym := s, cnt := 1 }]
  | e :: ft, s => if e.sym = s then { e with cnt := e.cnt + 1 } :: ft else e :: countSymbol ft s

/-- The frequency table of a text, in first-encounter order (40_frequency_sorter.md R81). -/
def countText (text : List Symbol) : List Entry := text.foldl countSymbol []

/-- What COUNT does when it executes (40_frequency_sorter.md R81). -/
def countBody (s : State) : State :=
  if s.txtLen = 0 then raise .ft .emptyInput 0 s
  else
    let ft := countText (txtContent s)
    { s with
      ft := writePrefix s.ft ft
      ftLen := BitVec.ofNat 32 ft.length }

/-- COUNT (40_frequency_sorter.md R81). -/
def execCount (s : State) : Host.Outcome State Fault Refusal := whenReady s (txtHeld s) countBody

/-- The stable descending sort by count, by insertion (40_frequency_sorter.md R82). -/
def rankEntries (ft : List Entry) : List Entry :=
  ft.foldl (fun rl e => insertTiesLast (fun x => x.cnt.toNat) e rl) []

/-- What SORT does when it executes (40_frequency_sorter.md R82). -/
def sortBody (s : State) : State :=
  { s with
    rl := writePrefix s.rl (rankEntries (ftContent s))
    rlLen := s.ftLen }

/-- SORT (40_frequency_sorter.md R82). -/
def execSort (s : State) : Host.Outcome State Fault Refusal := whenReady s (ftHeld s) sortBody

end Sys2Proof.Machine
end

