-- ==== Sys2Proof/Machine/Flags.lean ====
section
/-! DEFINITION. The flags and the STATUS register. The block has no arithmetic condition codes (10_state.md
R29). -/

namespace Sys2Proof.Machine

/-- The code of an error in STATUS.ERR (60_exceptions.md R151). -/
def errorCode : ErrorCause → BitVec 4
  | .emptyInput => 1#4
  | .emptyHeap => 2#4
  | .emptyTree => 3#4
  | .invalidPadding => 4#4
  | .corruptStream => 5#4
  | .badList => 6#4
  | .noCode => 7#4
  | .capacity => 8#4
  | .illegalCommand => 9#4

/-- STATUS.ERR (10_state.md R26): 0 when no error is recorded. -/
def errField (s : State) : BitVec 4 :=
  match s.err with
  | none => 0#4
  | some e => errorCode e

/-- STATUS.TREE_VALID (10_state.md R16, R26). -/
def treeValid (s : State) : Bool := s.tree.isSome

/-- STATUS.CT_VALID (10_state.md R18, R26). -/
def ctValid (s : State) : Bool := s.ct.isSome

/-- STATUS, fields of 10_state.md R26: reserved [7], BUSY [6], CT_VALID [5], TREE_VALID [4], ERR [3:0]. -/
def statusReg (s : State) : BitVec 8 :=
  0#1 ++ BitVec.ofBool s.busy ++ BitVec.ofBool (ctValid s) ++ BitVec.ofBool (treeValid s) ++ errField s

/-- PAD_OUT as the port reads it: bits [7:3] read 0 (10_state.md R25). -/
def padOutReg (s : State) : BitVec 8 := s.padOut.setWidth 8

end Sys2Proof.Machine
end

