-- ==== Sys2Proof/Machine/Port.lean ====
section
/-! DEFINITION. The host port: MemRead and MemWrite over the eight address spaces (20_memory.md R40 to R44,
10_state.md R25 to R28, R30). -/

namespace Sys2Proof.Machine

/-- The address spaces (20_memory.md R40). -/
inductive Space where
  | csr | txt | ft | rl | ctl | ctc | bs | byBuf
  deriving DecidableEq, Repr

/-- The space of an identifier; 8 to 15 name none (20_memory.md R40). -/
def spaceOf (id : BitVec 4) : Option Space :=
  match id.toNat with
  | 0 => some .csr
  | 1 => some .txt
  | 2 => some .ft
  | 3 => some .rl
  | 4 => some .ctl
  | 5 => some .ctc
  | 6 => some .bs
  | 7 => some .byBuf
  | _ => none

/-- The control and status registers (10_state.md R25). -/
inductive Csr where
  | status | txtLen | ftLen | rlLen | bsLen | byLen | padOut | padIn | ctCount | errInfo
  deriving DecidableEq, Repr

/-- The register of an index of space 0; 0xA and above name none (10_state.md R25). -/
def csrOf (index : BitVec 32) : Option Csr :=
  match index.toNat with
  | 0 => some .status
  | 1 => some .txtLen
  | 2 => some .ftLen
  | 3 => some .rlLen
  | 4 => some .bsLen
  | 5 => some .byLen
  | 6 => some .padOut
  | 7 => some .padIn
  | 8 => some .ctCount
  | 9 => some .errInfo
  | _ => none

/-- The value of a register (10_state.md R25), zero-extended to the data lines. -/
def csrValue (r : Csr) (s : State) : PortData :=
  match r with
  | .status => (statusReg s).setWidth 40
  | .txtLen => s.txtLen.setWidth 40
  | .ftLen => s.ftLen.setWidth 40
  | .rlLen => s.rlLen.setWidth 40
  | .bsLen => s.bsLen.setWidth 40
  | .byLen => s.byLen.setWidth 40
  | .padOut => (padOutReg s).setWidth 40
  | .padIn => s.padIn.setWidth 40
  | .ctCount => s.ctCount.setWidth 40
  | .errInfo => s.errInfo.setWidth 40

/-! ## Answers -/

/-- The transaction is refused with an error response and changes nothing else (20_memory.md R44); a read
returns no value (log entry 13). -/
def accessError (s : State) : State := { s with response := .accessError }

/-- A read answers the value the element holds. -/
def answer (v : PortData) (s : State) : State := { s with response := .data v }

/-- A read answers the value the element holds, or a free value when it holds none (10_state.md R30,
93_implementation_defined.md U1, log entry 4). -/
def answerElement (v : Option PortData) (free : PortData) (s : State) : State :=
  match v with
  | some v => answer v s
  | none => { answer free s with draws := s.draws + 1 }

/-- A write has been done. -/
def written (s : State) : State := { s with response := .done }

/-- The element a buffer's content has at an index: one at or above the length holds no value, written or
not (10_state.md R30). -/
def elementAt {α : Type} (c : Cells α) (len : Reg32) (i : Nat) : Option α :=
  if i < len.toNat then readCell c i else none

/-! ## Reads -/

/-- An element of CTL (20_memory.md R42): `valid ‖ len[7:0]`. While CT_VALID = 0 the whole element holds no
value; an entry with `valid = 0` has bit 8 clear and a length that holds no value (10_state.md R30). -/
def readHead (i : Nat) (s : State) : State :=
  match s.ct with
  | none => answerElement none ((Config.freeHead s.draws).setWidth 40) s
  | some ct =>
    match readCell ct i with
    | none => answerElement none (((Config.freeHead s.draws).extractLsb' 0 8).setWidth 40) s
    | some code => answer ((1#1 ++ BitVec.ofNat 8 code.length).setWidth 40) s

/-- The code bit CTC holds at index `256·symbol + k` (20_memory.md R42), if it holds one (10_state.md
R30). -/
def codeBit (i : Nat) (s : State) : Option Bit :=
  match s.ct with
  | none => none
  | some ct =>
    match readCell ct (i / 256) with
    | none => none
    | some code => code[i % 256]?

/-- `MemRead(space, index)` (20_memory.md R41): the element at the address, or an access error when the
address names none (R44). Apart from the model's own fields it changes nothing (R47). -/
def memRead (space : BitVec 4) (index : BitVec 32) (s : State) : State :=
  let i := index.toNat
  match spaceOf space with
  | none => accessError s
  | some .csr =>
    match csrOf index with
    | none => accessError s
    | some r => answer (csrValue r s) s
  | some .txt =>
    if i < textMax s.params then
      answerElement ((elementAt s.txt s.txtLen i).map (·.setWidth 40))
        ((Config.freeSymbol s.draws).setWidth 40) s
    else accessError s
  | some .ft =>
    if i < nsymMax then
      answerElement ((elementAt s.ft s.ftLen i).map wordOfEntry) (Config.freeEntry s.draws) s
    else accessError s
  | some .rl =>
    if i < nsymMax then
      answerElement ((elementAt s.rl s.rlLen i).map wordOfEntry) (Config.freeEntry s.draws) s
    else accessError s
  | some .ctl => if i < nsymMax then readHead i s else accessError s
  | some .ctc =>
    if i < 256 * nsymMax then
      answerElement ((codeBit i s).map (fun b => (BitVec.ofBool b).setWidth 40))
        ((BitVec.ofBool (Config.freeBit s.draws)).setWidth 40) s
    else accessError s
  | some .bs =>
    if i < bitsMax s.params then
      answerElement ((elementAt s.bs s.bsLen i).map (fun b => (BitVec.ofBool b).setWidth 40))
        ((BitVec.ofBool (Config.freeBit s.draws)).setWidth 40) s
    else accessError s
  | some .byBuf =>
    if i < byCap s.params then
      answerElement ((elementAt s.byBuf s.byLen i).map (·.setWidth 40))
        ((Config.freeByte s.draws).setWidth 40) s
    else accessError s

/-! ## Writes -/

/-- A write of a register (10_state.md R25, R27, 20_memory.md R43, R44): the five lengths, each at most its
buffer's capacity and changing no element, and PAD_IN; the others are read-only. -/
def writeCsr (r : Csr) (v : PortData) (s : State) : State :=
  let v32 : Reg32 := v.setWidth 32
  match r with
  | .status => accessError s
  | .txtLen =>
    if v32.toNat ≤ textMax s.params then written { s with txtLen := v32 } else accessError s
  | .ftLen => if v32.toNat ≤ nsymMax then written { s with ftLen := v32 } else accessError s
  | .rlLen => if v32.toNat ≤ nsymMax then written { s with rlLen := v32 } else accessError s
  | .bsLen =>
    if v32.toNat ≤ bitsMax s.params then written { s with bsLen := v32 } else accessError s
  | .byLen => if v32.toNat ≤ byCap s.params then written { s with byLen := v32 } else accessError s
  | .padOut => accessError s
  | .padIn => written { s with padIn := v.setWidth 8 }
  | .ctCount => accessError s
  | .errInfo => accessError s

/-- `MemWrite(space, index, v)` (20_memory.md R41): the element at the address becomes `v`, or an access
error when the address names none or is read-only (R43, R44). The data above the element's width is not
looked at (log entry 14). -/
def memWrite (space : BitVec 4) (index : BitVec 32) (v : PortData) (s : State) : State :=
  let i := index.toNat
  match spaceOf space with
  | none => accessError s
  | some .csr =>
    match csrOf index with
    | none => accessError s
    | some r => writeCsr r v s
  | some .txt =>
    if i < textMax s.params then written { s with txt := writeCell s.txt i (v.setWidth 8) }
    else accessError s
  | some .ft =>
    if i < nsymMax then written { s with ft := writeCell s.ft i (entryOfWord v) } else accessError s
  | some .rl =>
    if i < nsymMax then written { s with rl := writeCell s.rl i (entryOfWord v) } else accessError s
  | some .ctl => accessError s
  | some .ctc => accessError s
  | some .bs =>
    if i < bitsMax s.params then written { s with bs := writeCell s.bs i (v.getLsbD 0) }
    else accessError s
  | some .byBuf =>
    if i < byCap s.params then written { s with byBuf := writeCell s.byBuf i (v.setWidth 8) }
    else accessError s

end Sys2Proof.Machine
end

