-- ==== Sys2Proof/Machine/Step.lean ====
section
/-! DEFINITION. One step: one host transaction (10_state.md R12). -/

namespace Sys2Proof.Machine

/-- One step of the machine: the oldest pending transaction, whole, before any later one (20_memory.md
R49, R52). A command word is dispatched by 45_control_and_host.md R135. With nothing pending the block is
idle, since it never acts on its own (70_reset_and_hazards.md R177; log entry 3). -/
def step (s : State) : Host.Outcome State Fault Refusal :=
  match s.pending with
  | [] => .next s
  | .cmd word :: rest =>
    match decode word with
    | .ok i => mapNext endCommand (exec i (beginCommand rest s))
    | .error _ => mapNext endCommand (execIllegal word (beginCommand rest s))
  | .memRead space index :: rest => .next (memRead space index (takeTxn rest s))
  | .memWrite space index v :: rest => .next (memWrite space index v (takeTxn rest s))
  | .reset :: rest => .next (resetBlock (takeTxn rest s))

/-- The state with a command handed over by the host: it is the next transaction the step takes. The block
has no instruction memory and no program counter (10_state.md R11, R32), so this stands for the host's
issue of the command (log entry 1). -/
def State.withFetchWord (s : State) (nbits w : Nat) : State :=
  { s with pending := .cmd (BitVec.ofNat 8 (w % 2 ^ nbits)) :: s.pending }

end Sys2Proof.Machine
end

