-- ==== Sys2Proof/Machine/HostSequence.lean ====
section
/-! DEFINITION. The host's sequences (45_control_and_host.md R138, R139) as lists of transactions, in the
listing's own steps (30_encoding.md R69). The header is the host's and has no part in them (R140). -/

namespace Sys2Proof.Machine

/-- The transaction of a command line (30_encoding.md R69). -/
def commandTxn (i : Instr) : Txn := .cmd (encode i)

/-- `WR BUF[0..n) = …`: one write line per element (30_encoding.md R69), from index `k` on. -/
def writeLines (space : BitVec 4) (k : Nat) : List PortData → List Txn
  | [] => []
  | v :: vs => .memWrite space (BitVec.ofNat 32 k) v :: writeLines space (k + 1) vs

/-- `WR <REG> = v`, by the register's number (10_state.md R25). -/
def writeReg (n : Nat) (v : Nat) : Txn := .memWrite 0 (BitVec.ofNat 32 n) (BitVec.ofNat 40 v)

/-- `RD STATUS`. -/
def readStatus : Txn := .memRead 0 0

/-- The host's transactions that compress a text (45_control_and_host.md R138), up to its read of STATUS. -/
def compressTxns (text : List Symbol) : List Txn :=
  commandTxn .clear :: writeLines 1 0 (text.map (·.setWidth 40))
    ++ writeReg 1 text.length :: compressCommands.map commandTxn ++ [readStatus]

/-- The host's transactions that decompress (45_control_and_host.md R139): the ranked list recovered from
the header, the payload with its trailer, and the commands, up to its read of STATUS. -/
def decompressTxns (list : List Entry) (rest : List Byte) : List Txn :=
  commandTxn .clear :: writeLines 3 0 (list.map wordOfEntry)
    ++ writeReg 3 list.length :: writeLines 7 0 (rest.map (·.setWidth 40))
    ++ writeReg 5 rest.length :: decompressCommands.map commandTxn ++ [readStatus]

end Sys2Proof.Machine
end

