-- ==== Sys2Proof/Safety.lean ====
section
/-! DEFINITION. The terms claims are written in: the canonical form of memory, the invariant of the
machine, the spec's properties stated apart from the machine, and runs of commands. -/

namespace Sys2Proof.Machine

/-! ## The canonical form of memory -/

/-- The cells of a buffer are in canonical form: indices strictly rising, each below the capacity. -/
abbrev cellsWf {α : Type} (cap : Nat) (c : Cells α) : Prop :=
  c.Pairwise (fun a b => a.1 < b.1) ∧ ∀ e ∈ c, e.1 < cap

/-- The memory of the block is in canonical form: each buffer within its capacity (20_memory.md R40). An
element that is not listed holds no value, so no listed element reads like an unlisted one. -/
abbrev Memory.wf (s : State) : Prop :=
  cellsWf (textMax s.params) s.txt ∧ cellsWf nsymMax s.ft ∧ cellsWf nsymMax s.rl
    ∧ cellsWf (bitsMax s.params) s.bs ∧ cellsWf (byCap s.params) s.byBuf
    ∧ ∀ ct, s.ct = some ct → cellsWf nsymMax ct

/-! ## Parts of the invariant -/

/-- The constraints on the open parameter (92_eei_decisions.md, open parameters). -/
abbrev paramsLegal (p : Params) : Prop :=
  1 ≤ p.bytesCap ∧ p.bytesCap + 1 < 2 ^ 32 ∧ 8 * p.bytesCap < 2 ^ 32

/-- The length registers are within the capacities (10_state.md R13 to R21). -/
abbrev lengthsFit (s : State) : Prop :=
  s.txtLen.toNat ≤ textMax s.params ∧ s.ftLen.toNat ≤ nsymMax ∧ s.rlLen.toNat ≤ nsymMax
    ∧ s.bsLen.toNat ≤ bitsMax s.params ∧ s.byLen.toNat ≤ byCap s.params

/-- Neither bitstring is a prefix of the other (00_scope.md R7). -/
abbrev notPrefixes (p q : Bits) : Prop := ¬ p <+: q ∧ ¬ q <+: p

/-- What 10_state.md R18 and 42_code_table_deriver.md R103 say of a valid code table: at least one symbol
has a code, codes of 1 to 255 bits, prefix-free. -/
structure CodeTableOk (ct : Cells Bits) : Prop where
  cells : cellsWf nsymMax ct
  some_code : ct ≠ []
  code_length : ∀ e ∈ ct, 1 ≤ e.2.length ∧ e.2.length ≤ 255
  prefix_free : ct.Pairwise (fun a b => notPrefixes a.2 b.2)

/-- The weights of a tree (10_state.md R16): a leaf's is a count of at least 1, a node's the sum of its
children's, without wrap-around (00_scope.md R5 (b)). -/
def weightsAdd : Tree → Prop
  | .leaf _ w => 1 ≤ w.toNat ∧ w.toNat < 2 ^ 32
  | .node l r w =>
    w.toNat = (treeWeight l).toNat + (treeWeight r).toNat ∧ weightsAdd l ∧ weightsAdd r

/-- What holds of TREE while TREE_VALID = 1: its leaf symbols are distinct (41_tree_builder.md R92) and its
weights add up. -/
structure TreeOk (t : Tree) : Prop where
  symbols : (treeSymbols t).Nodup
  weights : weightsAdd t

/-- The invariant every step keeps: a legal parameter, memory in canonical form, lengths within capacity,
BUSY = 0 between transactions (10_state.md R26), CT_COUNT the number of valid entries of a proper code
table, a proper tree, and ERR_INFO clear while no error is recorded (10_state.md R28). -/
structure Inv (s : State) : Prop where
  params : paramsLegal s.params
  memory : Memory.wf s
  lengths : lengthsFit s
  idle : s.busy = false
  no_table : s.ct = none → s.ctCount = 0
  table : ∀ ct, s.ct = some ct → CodeTableOk ct ∧ s.ctCount.toNat = ct.length
  tree : ∀ t, s.tree = some t → TreeOk t
  no_error : s.err = none → s.errInfo = 0

/-! ## The spec's properties, apart from the machine -/

/-- Entry `i` of a ranked list is ill-formed, in the words of 41_tree_builder.md R92: (a) its count is 0;
(b) `i > 0` and its count is above that of entry `i - 1`; (c) an earlier entry has its symbol. -/
def IllFormedEntry (rl : List Entry) (i : Nat) : Prop :=
  ∃ e, rl[i]? = some e ∧
    (e.cnt = 0
      ∨ (0 < i ∧ ∃ before, rl[i - 1]? = some before ∧ before.cnt.toNat < e.cnt.toNat)
      ∨ ∃ j x, j < i ∧ rl[j]? = some x ∧ x.sym = e.sym)

/-- The merging of 41_tree_builder.md R91, as a relation: the last entry and the one before it become the
left and the right child of a node (R94) whose weight is the sum of theirs; the node goes behind every
entry of the same or a greater weight and in front of every lighter one (R93); and so on until one entry is
left. -/
inductive BuildsTo : List Tree → Tree → Prop where
  | single (t : Tree) : BuildsTo [t] t
  | merge (high low : List Tree) (before last result : Tree) (w : Weight) :
      w.toNat = (treeWeight last).toNat + (treeWeight before).toNat →
      (∀ x ∈ high, w.toNat ≤ (treeWeight x).toNat) →
      (∀ x ∈ low, (treeWeight x).toNat < w.toNat) →
      BuildsTo (high ++ .node last before w :: low) result →
      BuildsTo (high ++ low ++ [before, last]) result

/-- The subtree a path leads to: bit 0 a step to the left child, bit 1 to the right (30_encoding.md R67). -/
def followPath : Tree → Bits → Option Tree
  | t, [] => some t
  | .leaf _ _, _ :: _ => none
  | .node l r _, b :: path => followPath (if b then r else l) path

/-- What UNPACK works on (44_bitstream_decoder.md R121): with T = 1 the last byte of BY is the stated
padding count and the bytes before it the payload; with T = 0 all of BY is payload and PAD_IN states the
count. -/
def UnpackOperands (t : Bool) (s : State) (payload : List Byte) (pad : Byte) : Prop :=
  match t with
  | true => byContent s = payload ++ [pad]
  | false => byContent s = payload ∧ s.padIn = pad

/-- A bitstring is the codes of a text, one after the other, and a residual no part of which is a code
(44_bitstream_decoder.md R125). -/
def CutsInto (ct : Cells Bits) (bits : Bits) (text : List Symbol) (residual : Bits) : Prop :=
  ∃ codes : List Bits, bits = codes.flatten ++ residual
    ∧ List.Forall₂ (fun x code => readCell ct x.toNat = some code) text codes
    ∧ ∀ e ∈ ct, ¬ e.2 <+: residual

/-- Some element of a buffer below a length holds no value. -/
def ExposesUnwritten {α : Type} (c : Cells α) (len : Reg32) : Prop := ∃ k < len.toNat, readCell c k = none

/-- The command reads an element that holds no value (70_reset_and_hazards.md R172): its input length exposes
one, and no check that its pseudocode makes before reading the buffer ends it (EmptyTree of ENCODE and DECODE;
the checks of UNPACK without T, on PAD_IN and BY_LEN alone). -/
def ReadsUnwritten (i : Instr) (s : State) : Prop :=
  match i with
  | .nop => False
  | .clear => False
  | .count => ExposesUnwritten s.txt s.txtLen
  | .sort => ExposesUnwritten s.ft s.ftLen
  | .build => ExposesUnwritten s.rl s.rlLen
  | .derive => False
  | .encode => s.ct ≠ none ∧ ExposesUnwritten s.txt s.txtLen
  | .pack _ => ExposesUnwritten s.bs s.bsLen
  | .unpack true => ExposesUnwritten s.byBuf s.byLen
  | .unpack false =>
    (s.padIn.toNat < 8 ∧ s.padIn.toNat ≤ 8 * s.byLen.toNat
        ∧ 8 * s.byLen.toNat - s.padIn.toNat ≤ bitsMax s.params)
      ∧ ExposesUnwritten s.byBuf s.byLen
  | .decode => s.ct ≠ none ∧ ExposesUnwritten s.bs s.bsLen

/-- A buffer holds a sequence in its first elements. -/
def HoldsPrefix {α : Type} (c : Cells α) (vs : List α) : Prop := ∀ i < vs.length, readCell c i = vs[i]?

/-- A buffer after a sequence has been laid over its first elements: those are the sequence's, and every
other element reads as before. -/
def Replaced {α : Type} (before after : Cells α) (vs : List α) : Prop :=
  ∀ i, readCell after i = if i < vs.length then vs[i]? else readCell before i

/-- The word is legal: some command has it (30_encoding.md R61, R63). -/
def LegalWord (w : CmdWord) : Prop := ∃ i, decode w = .ok i

/-- The oldest pending transaction is a command of one of the given words. -/
def IssuesCommand (s : State) (words : List CmdWord) : Prop :=
  ∃ w rest, s.pending = .cmd w :: rest ∧ w ∈ words

/-- The oldest pending transaction is the reset input. -/
def IssuesReset (s : State) : Prop := ∃ rest, s.pending = .reset :: rest

/-- The oldest pending transaction is a write of the register of that number. -/
def WritesRegister (s : State) (n : BitVec 32) : Prop :=
  ∃ v rest, s.pending = .memWrite 0 n v :: rest

/-! ## Runs of commands -/

/-- Execute commands one after the other, in the order issued (20_memory.md R49). -/
def runCommands : List Instr → State → Option State
  | [], s => some s
  | i :: rest, s =>
    match nextState? (exec i s) with
    | some t => runCommands rest t
    | none => none

end Sys2Proof.Machine
end

