-- ==== Sys2Proof/Certificates/Slice0/Obligations.lean ====
section
/-! DEFINITION. The statements about the machine, one per rule or group of rules of spec/. Where a statement
about a command assumes that its input is held (`txtHeld` and the like: every element below the length register
holds a value, 70_reset_and_hazards.md R172), what the command does otherwise is said by
`EveryStepEndsOrIsRefused`. That a result leaves the elements beyond it as they were is log entry 8, and is said
by `ElementsBeyondAResultStay` alone. -/

open Sys2Proof Sys2Proof.Machine

/-! ## Encoding -/

/-- 30_encoding.md R60, R61: a word decodes to a command exactly when it is that command's encoding. -/
def Obligations.DecodeAndEncodeAgree : Prop :=
  ∀ (w : CmdWord) (i : Instr), decode w = .ok i ↔ encode i = w

/-- 30_encoding.md R61: words written out from the table of OP values, and a few that are illegal. -/
def Obligations.TableWordsDecode : Prop :=
  decodeTableWord 8 0b00000000 = some .nop ∧ decodeTableWord 8 0b00000001 = some .clear
    ∧ decodeTableWord 8 0b00000010 = some .count ∧ decodeTableWord 8 0b00000011 = some .sort
    ∧ decodeTableWord 8 0b00000100 = some .build ∧ decodeTableWord 8 0b00000101 = some .derive
    ∧ decodeTableWord 8 0b00000110 = some .encode ∧ decodeTableWord 8 0b00000111 = some (.pack false)
    ∧ decodeTableWord 8 0b00010111 = some (.pack true)
    ∧ decodeTableWord 8 0b00001000 = some (.unpack false)
    ∧ decodeTableWord 8 0b00011000 = some (.unpack true) ∧ decodeTableWord 8 0b00001001 = some .decode
    ∧ decodeTableWord 8 0b00001010 = none ∧ decodeTableWord 8 0b00010011 = none
    ∧ decodeTableWord 8 0b00100111 = none

/-- 30_encoding.md R63: which words are illegal, that they are 244 of the 256, and what an illegal word
does while no error is recorded and while one is. -/
def Obligations.IllegalWordsRaiseIllegalCommand : Prop :=
  (∀ w : CmdWord, ¬ LegalWord w ↔
      (w.extractLsb' 5 3 ≠ 0#3 ∨ 0xA ≤ (w.extractLsb' 0 4).toNat
        ∨ (w.getLsbD 4 = true ∧ w.extractLsb' 0 4 ≠ 0x7#4 ∧ w.extractLsb' 0 4 ≠ 0x8#4)))
    ∧ (∃ legal : List CmdWord, legal.Nodup ∧ legal.length = 12 ∧ ∀ w, w ∈ legal ↔ LegalWord w)
    ∧ ∀ (s : State) (w : CmdWord) (rest : List Txn), s.pending = .cmd w :: rest → ¬ LegalWord w →
        (s.err = none → step s = .next { s with
            pending := rest, busy := false, response := .done
            err := some .illegalCommand, errInfo := w.setWidth 32 })
          ∧ ∀ e, s.err = some e → step s = .next { s with
              pending := rest, busy := false, response := .done }

/-! ## Steps and dispatch -/

/-- A step whose transaction is the word of a command executes that command, whole, on the state with the
transaction taken and BUSY set, and ends it; a command that is refused (log entry 5) is refused by the step. -/
def Obligations.StepRunsTheDecodedCommand : Prop :=
  ∀ (s : State) (w : CmdWord) (rest : List Txn) (i : Instr), s.pending = .cmd w :: rest → decode w = .ok i →
    (∀ t, exec i { s with pending := rest, busy := true } = .next t →
      step s = .next { t with busy := false, response := .done })
    ∧ ∀ r, exec i { s with pending := rest, busy := true } = .refused r → step s = .refused r

/-- 45_control_and_host.md R135: what happens to a command word. (A command that reads an element which holds no
value has no defined result, R172; the model refuses it, log entry 5.) -/
def Obligations.DispatchOfACommandWord : Prop :=
  ∀ (s : State) (w : CmdWord) (rest : List Txn), s.pending = .cmd w :: rest →
    (∀ e, s.err = some e → w ≠ 0x01#8 →
      step s = .next { s with pending := rest, busy := false, response := .done })
    ∧ (∀ e, s.err = some e → w = 0x01#8 →
      step s = .next { State.reset with
        params := s.params, pending := rest, response := .done, draws := s.draws })
    ∧ (s.err = none → ¬ LegalWord w → step s = .next { s with
        pending := rest, busy := false, response := .done
        err := some .illegalCommand, errInfo := w.setWidth 32 })
    ∧ (s.err = none → ∀ i, decode w = .ok i → ¬ ReadsUnwritten i s →
      ∃ t, exec i { s with pending := rest, busy := true } = .next t
        ∧ step s = .next { t with busy := false, response := .done })

/-- 70_reset_and_hazards.md R176, its first claim: every command ends; with R172 and
93_implementation_defined.md U1: but a command that reads an element which holds no value has no defined result
and is refused, and nothing else stops the machine (log entries 5 and 19). -/
def Obligations.EveryStepEndsOrIsRefused : Prop :=
  (∀ (i : Instr) (s : State), s.err = none → ReadsUnwritten i s → exec i s = .refused .unwrittenInput)
    ∧ (∀ (i : Instr) (s : State), s.err ≠ none ∨ ¬ ReadsUnwritten i s → ∃ t, exec i s = .next t)
    ∧ ∀ s : State, (∃ t, step s = .next t)
        ∨ ∃ w rest i, s.pending = .cmd w :: rest ∧ decode w = .ok i ∧ s.err = none ∧ ReadsUnwritten i s
            ∧ step s = .refused .unwrittenInput

/-- 20_memory.md R49, R52: transactions take effect one at a time, in the order the host issues them. A step takes
the oldest, gives its effect (that of a command word is StepRunsTheDecodedCommand and
IllegalWordsRaiseIllegalCommand), and leaves the later ones as they are. (That the transactions are a list in the
state, taken from its head, is the model's own form, log entries 1, 3 and 15, DESIGN CHOICE and DEDUCED.) -/
def Obligations.StepTakesTheOldestTransaction : Prop :=
  (∀ s t : State, step s = .next t → t.pending = s.pending.tail)
    ∧ (∀ (s : State) (space : BitVec 4) (index : BitVec 32) (rest : List Txn),
        s.pending = .memRead space index :: rest →
        step s = .next (memRead space index { s with pending := rest }))
    ∧ (∀ (s : State) (space : BitVec 4) (index : BitVec 32) (v : PortData) (rest : List Txn),
        s.pending = .memWrite space index v :: rest →
        step s = .next (memWrite space index v { s with pending := rest }))
    ∧ (∀ (s : State) (rest : List Txn), s.pending = .reset :: rest →
        step s = .next { State.reset with params := s.params, pending := rest, draws := s.draws })
    ∧ ∀ s : State, s.pending = [] → step s = .next s

/-- 60_exceptions.md R154, and R153's "ERR and ERR_INFO keep the first error": out of the faulted state
only CLEAR and reset lead, and they empty the block; until then the recorded error is the first. -/
def Obligations.OnlyClearAndResetLeaveTheFaultedState : Prop :=
  ∀ (s t : State) (e : ErrorCause), s.err = some e → step s = .next t →
    (t.err = some e ∧ t.errInfo = s.errInfo ∧ ¬ IssuesReset s ∧ ¬ IssuesCommand s [0x01#8])
      ∨ ((IssuesReset s ∨ IssuesCommand s [0x01#8])
          ∧ t = { State.reset with
              params := s.params, pending := s.pending.tail, response := t.response, draws := s.draws })

/-! ## The invariant -/

/-- The state right after reset meets the invariant (its parameter is the suggested one, log entry 6). -/
def Obligations.ResetMeetsTheInvariant : Prop := Inv State.reset

/-- Every step keeps the invariant: memory in canonical form and within capacity, lengths within capacity,
BUSY 0 between transactions, a valid code table prefix-free with codes of 1 to 255 bits and CT_COUNT
entries, a valid tree with distinct leaves and exact weights, ERR_INFO clear while no error is
recorded. -/
def Obligations.EveryStepKeepsTheInvariant : Prop :=
  ∀ s t : State, Inv s → step s = .next t → Inv t

/-! ## Control -/

/-- 10_state.md R31: the state after reset and after CLEAR. (The open parameter and the model's own fields
are not the spec's state, log entries 1, 2, 4, 6.) -/
def Obligations.ResetAndClearLeaveTheResetState : Prop :=
  ∀ s t : State, (exec .clear s = .next t ∨ (IssuesReset s ∧ step s = .next t) ∨ t = State.reset) →
    statusReg t = 0x00#8 ∧ t.txtLen = 0 ∧ t.ftLen = 0 ∧ t.rlLen = 0 ∧ t.bsLen = 0 ∧ t.byLen = 0
      ∧ padOutReg t = 0 ∧ t.padIn = 0 ∧ t.ctCount = 0 ∧ t.errInfo = 0
      ∧ (∀ i, readCell t.txt i = none ∧ readCell t.ft i = none ∧ readCell t.rl i = none
          ∧ readCell t.bs i = none ∧ readCell t.byBuf i = none)
      ∧ t.ct = none ∧ t.tree = none

/-- 45_control_and_host.md R136: NOP does nothing. -/
def Obligations.NopChangesNothing : Prop := ∀ s : State, exec .nop s = .next s

/-- 45_control_and_host.md R137: CLEAR executes in every state, an error recorded or not, and leaves the
reset state; in the reset state it changes nothing. -/
def Obligations.ClearEmptiesTheBlock : Prop :=
  (∀ s : State, ∃ t, exec .clear s = .next t ∧ statusReg t = 0x00#8 ∧ t.txtLen = 0 ∧ t.ftLen = 0
      ∧ t.rlLen = 0 ∧ t.bsLen = 0 ∧ t.byLen = 0 ∧ t.padOut = 0 ∧ t.padIn = 0 ∧ t.ctCount = 0
      ∧ t.errInfo = 0
      ∧ t = { State.reset with
          params := s.params, pending := s.pending, response := s.response, draws := s.draws })
    ∧ exec .clear State.reset = .next State.reset

/-! ## Errors and flags -/

/-- 60_exceptions.md R151: the codes in STATUS.ERR. -/
def Obligations.ErrorCodes : Prop :=
  (∀ s : State, s.err = none → errField s = 0)
    ∧ (∀ s : State, ∀ e, s.err = some e → (errField s).toNat =
        match e with
        | .emptyInput => 1
        | .emptyHeap => 2
        | .emptyTree => 3
        | .invalidPadding => 4
        | .corruptStream => 5
        | .badList => 6
        | .noCode => 7
        | .capacity => 8
        | .illegalCommand => 9)
    ∧ ∀ s : State, (errField s).toNat ≤ 9

/-- 10_state.md R26: the bit positions of the STATUS fields, and the reserved bit. -/
def Obligations.StatusFields : Prop :=
  ∀ s : State, (statusReg s).extractLsb' 0 4 = errField s
    ∧ (statusReg s).getLsbD 4 = s.tree.isSome ∧ (statusReg s).getLsbD 5 = s.ct.isSome
    ∧ (statusReg s).getLsbD 6 = s.busy ∧ (statusReg s).getLsbD 7 = false

/-- 60_exceptions.md R152 (and the last sentence of R150): the state after a command that raised an error
is the state before it, but for ERR, ERR_INFO, the invalidated destination, and PAD_IN after an UNPACK.T
that read the trailer; the elements of the invalidated destination hold no value; SORT, PACK, NOP and CLEAR
raise nothing. -/
def Obligations.RaisedErrorsArePrecise : Prop :=
  (∀ (i : Instr) (s t : State), s.err = none → exec i s = .next t →
    match i with
    | .nop | .clear | .sort | .pack _ => t.err = none
    | .count => t.err ≠ none → t = { s with
        err := t.err, errInfo := t.errInfo, ftLen := 0, ft := [] }
    | .build => t.err ≠ none → t = { s with
        err := t.err, errInfo := t.errInfo, tree := none }
    | .derive => t.err ≠ none → t = { s with
        err := t.err, errInfo := t.errInfo, ct := none, ctCount := 0 }
    | .encode => t.err ≠ none → t = { s with
        err := t.err, errInfo := t.errInfo, bsLen := 0, bs := [] }
    | .unpack false => t.err ≠ none → t = { s with
        err := t.err, errInfo := t.errInfo, bsLen := 0, bs := [] }
    | .unpack true => t.err ≠ none → t = { s with
        err := t.err, errInfo := t.errInfo, bsLen := 0, bs := []
        padIn := (byContent s).getLast?.getD s.padIn }
    | .decode => t.err ≠ none → t = { s with
        err := t.err, errInfo := t.errInfo, txtLen := 0, txt := [] })
    ∧ ∀ (w : CmdWord) (s t : State), s.err = none → execIllegal w s = .next t →
        t = { s with err := some .illegalCommand, errInfo := w.setWidth 32 }

/-- 10_state.md R29: what sets and clears each flag, over the commands; with 60_exceptions.md R150 and R155, which
errors each command can set. (An illegal word sets IllegalCommand: IllegalWordsRaiseIllegalCommand.) -/
def Obligations.CommandsWriteFlagsAsTabled : Prop :=
  ∀ (i : Instr) (s t : State), exec i s = .next t →
    (s.err ≠ none → t.err = s.err ∨ (i = .clear ∧ t.err = none))
      ∧ (s.err = none → ∀ e, t.err = some e →
          match i with
          | .nop | .clear | .sort | .pack _ => False
          | .count => e = .emptyInput
          | .build => e = .emptyHeap ∨ e = .badList
          | .derive => e = .emptyTree
          | .encode => e = .emptyTree ∨ e = .noCode ∨ e = .capacity
          | .unpack flag => (flag = true ∧ e = .corruptStream) ∨ e = .invalidPadding ∨ e = .capacity
          | .decode => e = .emptyTree ∨ e = .corruptStream)
      ∧ (s.tree = none → t.tree ≠ none → i = .build ∧ t.err = none)
      ∧ (s.tree ≠ none → t.tree = none →
          (i = .derive ∧ t.err = none) ∨ (i = .build ∧ t.err ≠ none) ∨ i = .clear)
      ∧ (s.ct = none → t.ct ≠ none → i = .derive ∧ t.err = none)
      ∧ (s.ct ≠ none → t.ct = none → (i = .derive ∧ t.err ≠ none) ∨ i = .clear)

/-- 42_code_table_deriver.md R105: the only way to a code table is RL, BUILD, DERIVE; the host writes
neither the tree nor the table. -/
def Obligations.TablesAreNeverLoadedFromOutside : Prop :=
  ∀ s t : State, step s = .next t →
    (t.ct ≠ s.ct → t.ct ≠ none → IssuesCommand s [0x05#8] ∧ ∃ tr, s.tree = some tr ∧ t.ct = some (codeTable tr))
      ∧ (t.tree ≠ s.tree → t.tree ≠ none → IssuesCommand s [0x04#8]
          ∧ rlHeld s = true ∧ t.tree = buildTree (rlContent s))
      ∧ ∀ space index v rest, s.pending = .memWrite space index v :: rest → t.ct = s.ct ∧ t.tree = s.tree

/-- 10_state.md R22, R23, R28: what writes PAD_OUT, PAD_IN and ERR_INFO; and CT_COUNT, which goes with CT
(R18). -/
def Obligations.OnlyTheNamedTransactionsWriteEachRegister : Prop :=
  ∀ s t : State, step s = .next t →
    (t.padOut ≠ s.padOut → IssuesCommand s [0x07#8, 0x17#8, 0x01#8] ∨ IssuesReset s)
      ∧ (t.padIn ≠ s.padIn → IssuesCommand s [0x18#8, 0x01#8] ∨ IssuesReset s ∨ WritesRegister s 7)
      ∧ (t.errInfo ≠ s.errInfo →
          (s.err = none ∧ t.err ≠ none) ∨ IssuesCommand s [0x01#8] ∨ IssuesReset s)
      ∧ (t.ctCount ≠ s.ctCount → IssuesCommand s [0x05#8, 0x01#8] ∨ IssuesReset s)

/-! ## frequency_sorter -/

/-- 40_frequency_sorter.md R81: COUNT, on a text every element of which holds a value. -/
def Obligations.CountBuildsTheFrequencyTable : Prop :=
  ∀ s : State, s.err = none →
    (s.txtLen = 0 → exec .count s = .next { s with
        err := some .emptyInput, errInfo := 0, ftLen := 0, ft := [] })
    ∧ (s.txtLen ≠ 0 → txtHeld s = true → ∃ (t : State) (ft : List Entry), exec .count s = .next t
        ∧ t = { s with ft := t.ft, ftLen := t.ftLen }
        ∧ HoldsPrefix t.ft ft ∧ t.ftLen.toNat = ft.length
        ∧ 1 ≤ ft.length ∧ ft.length ≤ 256
        ∧ (ft.map Entry.sym).Nodup
        ∧ (∀ x, x ∈ ft.map Entry.sym ↔ x ∈ txtContent s)
        ∧ (ft.map Entry.sym).Pairwise (fun a b => (txtContent s).idxOf a < (txtContent s).idxOf b)
        ∧ (∀ e ∈ ft, e.cnt.toNat = (txtContent s).count e.sym ∧ 1 ≤ e.cnt.toNat)
        ∧ (ft.map (fun e => e.cnt.toNat)).sum = s.txtLen.toNat)

/-- 40_frequency_sorter.md R82: SORT, on a table every element of which holds a value. -/
def Obligations.SortRanksTheFrequencyTable : Prop :=
  ∀ s : State, s.err = none → ftHeld s = true → ∃ (t : State) (rl : List Entry), exec .sort s = .next t
    ∧ t = { s with rl := t.rl, rlLen := s.ftLen }
    ∧ HoldsPrefix t.rl rl ∧ rl.length = s.ftLen.toNat
    ∧ rl.Perm (ftContent s)
    ∧ rl.Pairwise (fun a b => b.cnt.toNat ≤ a.cnt.toNat)
    ∧ ∀ k : Nat, rl.filter (fun e => e.cnt.toNat = k) = (ftContent s).filter (fun e => e.cnt.toNat = k)

/-- 40_frequency_sorter.md R82, "the result is unique": a list with the same entries in descending order of
count, each count's entries in their old order, is the ranked list; so is the library's stable sort. -/
def Obligations.RankingIsTheStableSort : Prop :=
  (∀ ft rl : List Entry, rl.Perm ft → rl.Pairwise (fun a b => b.cnt.toNat ≤ a.cnt.toNat) →
      (∀ k : Nat, rl.filter (fun e => e.cnt.toNat = k) = ft.filter (fun e => e.cnt.toNat = k)) →
      rl = rankEntries ft)
    ∧ ∀ ft : List Entry,
        rankEntries ft = ft.mergeSort (fun a b => decide (b.cnt.toNat ≤ a.cnt.toNat))

/-- 40_frequency_sorter.md R83: what COUNT and SORT in succession guarantee, on a text every element of which
holds a value. -/
def Obligations.CountAndSortFeedBuild : Prop :=
  ∀ s : State, s.err = none → s.txtLen ≠ 0 → txtHeld s = true →
    ∃ s1 s2 : State, exec .count s = .next s1 ∧ exec .sort s1 = .next s2 ∧ s2.err = none ∧ rlHeld s2 = true
      ∧ 1 ≤ s2.rlLen.toNat ∧ s2.rlLen.toNat ≤ 256
      ∧ ((rlContent s2).map Entry.sym).Nodup ∧ (∀ e ∈ rlContent s2, 1 ≤ e.cnt.toNat)
      ∧ (rlContent s2).Pairwise (fun a b => b.cnt.toNat ≤ a.cnt.toNat)
      ∧ (∀ i, ¬ IllFormedEntry (rlContent s2) i)
      ∧ rlContent s2 = rankEntries (countText (txtContent s))

/-! ## huffman_tree_builder -/

/-- 41_tree_builder.md R91: BUILD, on a list every element of which holds a value. -/
def Obligations.BuildFollowsTheMergeRule : Prop :=
  ∀ s : State, s.err = none →
    (s.rlLen = 0 → exec .build s = .next { s with err := some .emptyHeap, errInfo := 0, tree := none })
    ∧ (s.rlLen ≠ 0 → rlHeld s = true → (∀ i, ¬ IllFormedEntry (rlContent s) i) →
        ∃ tr : Tree, exec .build s = .next { s with tree := some tr }
          ∧ BuildsTo ((rlContent s).map (fun e => .leaf e.sym (e.cnt.setWidth 40))) tr
          ∧ (treeSymbols tr).Perm ((rlContent s).map Entry.sym)
          ∧ (treeWeight tr).toNat = ((rlContent s).map (fun e => e.cnt.toNat)).sum)
    ∧ (s.rlLen ≠ 0 → rlHeld s = true → (∃ i, IllFormedEntry (rlContent s) i) →
        ∃ t i, exec .build s = .next t
          ∧ t = { s with err := some .badList, errInfo := t.errInfo, tree := none }
          ∧ t.errInfo.toNat = i ∧ IllFormedEntry (rlContent s) i
          ∧ ∀ j < i, ¬ IllFormedEntry (rlContent s) j)

/-- 41_tree_builder.md R92: an ill-formed list, every element of which holds a value, is refused with the index of
its first ill-formed entry, and a list that passes has distinct symbols. -/
def Obligations.BuildReportsTheFirstIllFormedEntry : Prop :=
  (∀ (s : State) (i : Nat), s.err = none → rlHeld s = true → IllFormedEntry (rlContent s) i →
      (∀ j < i, ¬ IllFormedEntry (rlContent s) j) →
      ∃ t, exec .build s = .next t
        ∧ t = { s with err := some .badList, errInfo := BitVec.ofNat 32 i, tree := none }
        ∧ t.errInfo.toNat = i)
    ∧ (∀ (s t : State), s.err = none → exec .build s = .next t → t.err = none →
        ((rlContent s).map Entry.sym).Nodup ∧ ∃ tr, t.tree = some tr ∧ (treeSymbols tr).Nodup)

/-- 41_tree_builder.md R93: the tie rule in its two wordings, which agree. The new entry goes in front of
the first entry of strictly smaller weight, behind every other, and the old ones keep their order; and that
is what appending it and sorting stably in descending order gives. -/
def Obligations.TiesLastIsTheStableResort : Prop :=
  ∀ (wl : List Tree) (new : Tree),
    wl.Pairwise (fun a b => (treeWeight b).toNat ≤ (treeWeight a).toNat) →
    (∃ high low, wl = high ++ low
        ∧ insertTiesLast (fun t => (treeWeight t).toNat) new wl = high ++ new :: low
        ∧ (∀ x ∈ high, (treeWeight new).toNat ≤ (treeWeight x).toNat)
        ∧ ∀ x ∈ low, (treeWeight x).toNat < (treeWeight new).toNat)
      ∧ insertTiesLast (fun t => (treeWeight t).toNat) new wl
          = (wl ++ [new]).mergeSort (fun a b => decide ((treeWeight b).toNat ≤ (treeWeight a).toNat))

/-- 41_tree_builder.md R95: the tree, and the outcome (ERR and the ERR_INFO recorded with it), are a function of the
ranked list alone; its order included, for two orders of the same equal counts can give different trees. -/
def Obligations.BuildDependsOnTheRankedListAlone : Prop :=
  (∀ s u s' u' : State, s.err = none → u.err = none → s.rlLen = u.rlLen →
    (∀ i < s.rlLen.toNat, readCell s.rl i = readCell u.rl i ∧ readCell s.rl i ≠ none) →
    exec .build s = .next s' → exec .build u = .next u' →
    s'.tree = u'.tree ∧ s'.err = u'.err ∧ (s.errInfo = u.errInfo ∨ s'.err ≠ none → s'.errInfo = u'.errInfo))
    ∧ ∃ p q : List Entry, p.Perm q ∧ (∀ i, ¬ IllFormedEntry p i) ∧ (∀ i, ¬ IllFormedEntry q i)
        ∧ buildTree p ≠ buildTree q

/-- 41_tree_builder.md R91, its corner case: during the loop the work list is always in non-increasing order
of weight, so the last two are always two entries of lowest weight. -/
def Obligations.MergesKeepTheWorkListDescending : Prop :=
  ∀ wl : List Tree, wl.Pairwise (fun a b => (treeWeight b).toNat ≤ (treeWeight a).toNat) →
    (mergeStep wl).Pairwise (fun a b => (treeWeight b).toNat ≤ (treeWeight a).toNat)
      ∧ ∀ pre before last, wl = pre ++ [before, last] →
          (mergeStep wl).length = pre.length + 1
          ∧ (∀ x ∈ pre, (treeWeight before).toNat ≤ (treeWeight x).toNat)
          ∧ (treeWeight last).toNat ≤ (treeWeight before).toNat

/-! ## canonical_code_table_deriver -/

/-- 42_code_table_deriver.md R101: DERIVE. -/
def Obligations.DeriveReadsCodesOffThePaths : Prop :=
  ∀ s : State, s.err = none →
    (s.tree = none → exec .derive s = .next { s with
        err := some .emptyTree, errInfo := 0, ct := none, ctCount := 0 })
    ∧ ∀ tr, s.tree = some tr → (treeSymbols tr).Nodup → ∃ (t : State) (c : Cells Bits),
        exec .derive s = .next t ∧ t = { s with ct := some c, ctCount := t.ctCount, tree := none }
        ∧ t.ctCount.toNat = (treeSymbols tr).length ∧ c.length = (treeSymbols tr).length
        ∧ (∀ x w, tr = .leaf x w → ∀ k code, readCell c k = some code ↔ k = x.toNat ∧ code = [false])
        ∧ (∀ l r w, tr = .node l r w → ∀ k code, readCell c k = some code ↔
            ∃ x wx, k = x.toNat ∧ followPath tr code = some (.leaf x wx))
        ∧ ∀ k code, readCell c k = some code → 1 ≤ code.length ∧ code.length ≤ 255

/-- 42_code_table_deriver.md R104: a successful DERIVE consumes the tree, and a second DERIVE without a BUILD
in between raises EmptyTree and loses the table. -/
def Obligations.DeriveConsumesTheTree : Prop :=
  ∀ s t u : State, s.err = none → s.tree ≠ none → exec .derive s = .next t → exec .derive t = .next u →
    t.err = none ∧ t.tree = none ∧ t.ct ≠ none
      ∧ u = { t with err := some .emptyTree, errInfo := 0, ct := none, ctCount := 0 }

/-- 42_code_table_deriver.md R102: the code of the only symbol of a tree that is a leaf is "0", and every 0
bit decodes to it. -/
def Obligations.SingleSymbolHasCodeZero : Prop :=
  ∀ (s : State) (x : Symbol) (w : Weight), s.err = none → s.tree = some (.leaf x w) →
    ∃ t, exec .derive s = .next t ∧ t.ct = some [(x.toNat, [false])] ∧ t.ctCount = 1
      ∧ ∀ u : State, u.err = none → u.ct = t.ct → bsHeld u = true → (∀ b ∈ bsContent u, b = false) →
          ∃ u', exec .decode u = .next u' ∧ u'.err = none
            ∧ txtContent u' = List.replicate u.bsLen.toNat x

/-- 42_code_table_deriver.md R103, of the table a successful DERIVE leaves: prefix-freedom, and for two or more
symbols completeness: every infinite sequence of bits begins with a code, and every bitstring is codes and then a
proper prefix of a code. For one symbol a bitstring with a 1 bit has no decomposition. -/
def Obligations.CodesArePrefixFreeAndComplete : Prop :=
  ∀ (s t : State) (tr : Tree), s.err = none → s.tree = some tr → (treeSymbols tr).Nodup →
    exec .derive s = .next t → ∃ c, t.ct = some c
      ∧ (∀ (x y : Symbol) (p q : Bits), readCell c x.toNat = some p → readCell c y.toNat = some q → x ≠ y →
          ¬ p <+: q ∧ ¬ q <+: p)
      ∧ (∀ l r w, tr = .node l r w → ∀ f : Nat → Bit,
          ∃! x : Symbol, ∃ p, readCell c x.toNat = some p ∧ p = (List.range p.length).map f)
      ∧ (∀ l r w, tr = .node l r w → ∀ bits : Bits, ∃ text rest, CutsInto c bits text rest
          ∧ ∃ (y : Symbol) (q : Bits), readCell c y.toNat = some q ∧ rest <+: q ∧ rest ≠ q)
      ∧ ∀ x w, tr = .leaf x w → ∀ bits text, true ∈ bits → ¬ CutsInto c bits text []

/-! ## huffman_bitstream_encoder -/

/-- 43_bitstream_encoder.md R111: ENCODE, its success and its errors in their order, on a text every element of
which holds a value (EmptyTree comes before the text is read). -/
def Obligations.EncodeConcatenatesTheCodes : Prop :=
  ∀ s : State, s.err = none →
    (s.ct = none → exec .encode s = .next { s with
        err := some .emptyTree, errInfo := 0, bsLen := 0, bs := [] })
    ∧ ∀ c, s.ct = some c → txtHeld s = true →
      (∀ codes, List.Forall₂ (fun x code => readCell c x.toNat = some code) (txtContent s) codes →
        codes.flatten.length ≤ bitsMax s.params → paramsLegal s.params →
        ∃ t, exec .encode s = .next t
          ∧ t = { s with bs := t.bs, bsLen := t.bsLen }
          ∧ HoldsPrefix t.bs codes.flatten ∧ t.bsLen.toNat = codes.flatten.length)
      ∧ ∀ pre x post codes, txtContent s = pre ++ x :: post →
          List.Forall₂ (fun x code => readCell c x.toNat = some code) pre codes →
          codes.flatten.length ≤ bitsMax s.params →
          (readCell c x.toNat = none → ∃ t, exec .encode s = .next t
            ∧ t = { s with
                err := some .noCode, errInfo := t.errInfo, bsLen := 0, bs := [] }
            ∧ t.errInfo.toNat = pre.length)
          ∧ ∀ code, readCell c x.toNat = some code →
              bitsMax s.params < codes.flatten.length + code.length → ∃ t, exec .encode s = .next t
              ∧ t = { s with
                  err := some .capacity, errInfo := t.errInfo, bsLen := 0, bs := [] }
              ∧ t.errInfo.toNat = pre.length

/-- 43_bitstream_encoder.md R113, with 30_encoding.md R65's order of bits: PACK and PACK.T, on a bitstring every
element of which holds a value. -/
def Obligations.PackPacksTheBitstring : Prop :=
  ∀ (flag : Bool) (s : State), s.err = none → bsHeld s = true →
    ∃ (t : State) (payload : List Byte) (pad : Nat), exec (.pack flag) s = .next t
      ∧ t = { s with byBuf := t.byBuf, byLen := t.byLen, padOut := t.padOut }
      ∧ pad = (8 - s.bsLen.toNat % 8) % 8
      ∧ 8 * payload.length = s.bsLen.toNat + pad
      ∧ (∀ j i, i < 8 → ∀ b, payload[j]? = some b →
          b.getLsbD (7 - i) = ((bsContent s)[8 * j + i]?).getD false)
      ∧ HoldsPrefix t.byBuf (if flag then payload ++ [BitVec.ofNat 8 pad] else payload)
      ∧ t.byLen.toNat = (if flag then payload.length + 1 else payload.length)
      ∧ t.padOut.toNat = pad

/-- 43_bitstream_encoder.md R114: the padding bound. -/
def Obligations.PaddingBound : Prop :=
  ∀ (flag : Bool) (s t : State), s.err = none → exec (.pack flag) s = .next t →
    t.padOut.toNat ≤ 7 ∧ t.padOut.toNat = (8 - s.bsLen.toNat % 8) % 8
      ∧ (t.bsLen.toNat + t.padOut.toNat) % 8 = 0
      ∧ t.bsLen.toNat + t.padOut.toNat = 8 * (t.byLen.toNat - if flag then 1 else 0)

/-! ## huffman_bitstream_decoder -/

/-- 44_bitstream_decoder.md R121: UNPACK and UNPACK.T, the checks in their order and the expansion, on bytes every
element of which holds a value; the checks of UNPACK without T, which need PAD_IN and BY_LEN alone, on any
bytes. -/
def Obligations.UnpackExpandsThePayload : Prop :=
  ∀ (flag : Bool) (s : State), s.err = none →
    (flag = true → s.byLen = 0 → exec (.unpack flag) s = .next { s with
        err := some .corruptStream, errInfo := 0, bsLen := 0, bs := [] })
    ∧ (flag = false → 8 ≤ s.padIn.toNat ∨ 8 * s.byLen.toNat < s.padIn.toNat →
        exec (.unpack flag) s = .next { s with
          err := some .invalidPadding, errInfo := s.padIn.setWidth 32, bsLen := 0, bs := [] })
    ∧ (flag = false → s.padIn.toNat < 8 → s.padIn.toNat ≤ 8 * s.byLen.toNat →
        bitsMax s.params < 8 * s.byLen.toNat - s.padIn.toNat →
        exec (.unpack flag) s = .next { s with
          err := some .capacity, errInfo := s.byLen, bsLen := 0, bs := [] })
    ∧ ∀ payload pad, byHeld s = true → UnpackOperands flag s payload pad →
      (8 ≤ pad.toNat ∨ 8 * payload.length < pad.toNat → exec (.unpack flag) s = .next { s with
            padIn := pad, err := some .invalidPadding, errInfo := pad.setWidth 32, bsLen := 0, bs := [] })
      ∧ (pad.toNat < 8 → pad.toNat ≤ 8 * payload.length →
          bitsMax s.params < 8 * payload.length - pad.toNat → exec (.unpack flag) s = .next { s with
              padIn := pad, err := some .capacity, errInfo := s.byLen, bsLen := 0, bs := [] })
      ∧ (pad.toNat < 8 → pad.toNat ≤ 8 * payload.length →
          8 * payload.length - pad.toNat ≤ bitsMax s.params → paramsLegal s.params →
          ∃ (t : State) (bits : Bits), exec (.unpack flag) s = .next t
          ∧ t = { s with padIn := pad, bs := t.bs, bsLen := t.bsLen }
          ∧ HoldsPrefix t.bs bits ∧ t.bsLen.toNat = bits.length
          ∧ bits.length = 8 * payload.length - pad.toNat
          ∧ ∀ k b, bits[k]? = some b → ∃ byte, payload[k / 8]? = some byte
              ∧ b = byte.getLsbD (7 - k % 8))

/-- 44_bitstream_decoder.md R122: of a bitstring every element of which holds a value, UNPACK undoes PACK, with the
trailer, and without it when the host copies PAD_OUT to PAD_IN (register 7) in between. -/
def Obligations.UnpackUndoesPack : Prop :=
  ∀ s : State, s.err = none → bsHeld s = true → s.bsLen.toNat ≤ bitsMax s.params →
    (∃ s1 s2, exec (.pack true) s = .next s1 ∧ exec (.unpack true) s1 = .next s2
      ∧ s1.err = none ∧ s2.err = none ∧ s2.bsLen = s.bsLen ∧ bsContent s2 = bsContent s)
    ∧ ∃ s1 s2, exec (.pack false) s = .next s1
      ∧ exec (.unpack false) (memWrite 0 7 ((padOutReg s1).setWidth 40) s1) = .next s2
      ∧ s1.err = none ∧ s2.err = none ∧ s2.bsLen = s.bsLen ∧ bsContent s2 = bsContent s

/-- 44_bitstream_decoder.md R125: DECODE, on a bitstring every element of which holds a value (EmptyTree comes
before it is read). Every bitstring is cut into codes and a residual; DECODE gives the
text of the codes when there is no residual, and CorruptStream with the index of its first bit otherwise. -/
def Obligations.DecodeCutsTheBitstring : Prop :=
  ∀ s : State, s.err = none →
    (s.ct = none → exec .decode s = .next { s with
        err := some .emptyTree, errInfo := 0, txtLen := 0, txt := [] })
    ∧ ∀ c, s.ct = some c → CodeTableOk c → bsHeld s = true →
      (∃ text residual, CutsInto c (bsContent s) text residual)
      ∧ ∀ text residual, CutsInto c (bsContent s) text residual →
        (residual = [] → ∃ t, exec .decode s = .next t
          ∧ t = { s with txt := t.txt, txtLen := t.txtLen }
          ∧ HoldsPrefix t.txt text ∧ t.txtLen.toNat = text.length)
        ∧ (residual ≠ [] → ∃ t, exec .decode s = .next t
          ∧ t = { s with
              err := some .corruptStream, errInfo := t.errInfo, txtLen := 0, txt := [] }
          ∧ t.errInfo.toNat = s.bsLen.toNat - residual.length)

/-- 44_bitstream_decoder.md R128: with a valid code table, when every symbol of a text has a code, DECODE of
the bitstring ENCODE gives for it gives the text. -/
def Obligations.DecodeUndoesEncode : Prop :=
  ∀ (s s1 : State) (c : Cells Bits), s.err = none → paramsLegal s.params → s.ct = some c →
    CodeTableOk c → (∀ x ∈ txtContent s, readCell c x.toNat ≠ none) → exec .encode s = .next s1 →
    s1.err = none →
    ∃ s2, exec .decode s1 = .next s2 ∧ s2.err = none ∧ s2.txtLen = s.txtLen ∧ txtContent s2 = txtContent s

/-! ## Beside the results -/

/-- 40_frequency_sorter.md R80 (d) with 10_state.md R27, as log entry 8 (DEDUCED) reads them: the elements at and
above the length of a result stay as they were, in the buffer the command writes and in the buffers it does
not. -/
def Obligations.ElementsBeyondAResultStay : Prop :=
  ∀ (i : Instr) (s t : State), exec i s = .next t → t.err = none →
    (i ≠ .clear → i ≠ .count → t.ft = s.ft) ∧ (i ≠ .clear → i ≠ .sort → t.rl = s.rl)
      ∧ (i ≠ .clear → i ≠ .encode → (∀ flag, i ≠ .unpack flag) → t.bs = s.bs)
      ∧ (i ≠ .clear → (∀ flag, i ≠ .pack flag) → t.byBuf = s.byBuf)
      ∧ (i ≠ .clear → i ≠ .decode → t.txt = s.txt)
      ∧ (i = .count → ∀ k, t.ftLen.toNat ≤ k → readCell t.ft k = readCell s.ft k)
      ∧ (i = .sort → ∀ k, t.rlLen.toNat ≤ k → readCell t.rl k = readCell s.rl k)
      ∧ (i = .encode → bitsMax s.params < 2 ^ 32 →
          ∀ k, t.bsLen.toNat ≤ k → readCell t.bs k = readCell s.bs k)
      ∧ (∀ flag, i = .pack flag → ∀ k, t.byLen.toNat ≤ k → readCell t.byBuf k = readCell s.byBuf k)
      ∧ (∀ flag, i = .unpack flag → bitsMax s.params < 2 ^ 32 →
          ∀ k, t.bsLen.toNat ≤ k → readCell t.bs k = readCell s.bs k)
      ∧ (i = .decode → ∀ k, t.txtLen.toNat ≤ k → readCell t.txt k = readCell s.txt k)

/-- 70_reset_and_hazards.md R172, its table: what a command does whose input is missing (UNPACK is R121's,
UnpackExpandsThePayload). With no error recorded. -/
def Obligations.MissingInput : Prop :=
  ∀ s : State, s.err = none →
    (s.txtLen = 0 → exec .count s = .next { s with
        err := some .emptyInput, errInfo := 0, ftLen := 0, ft := [] })
    ∧ (s.ftLen = 0 → ∃ t, exec .sort s = .next t ∧ t.err = none ∧ t.rlLen = 0)
    ∧ (s.rlLen = 0 → exec .build s = .next { s with err := some .emptyHeap, errInfo := 0, tree := none })
    ∧ (s.tree = none → exec .derive s = .next { s with
        err := some .emptyTree, errInfo := 0, ct := none, ctCount := 0 })
    ∧ (s.ct = none → exec .encode s = .next { s with
        err := some .emptyTree, errInfo := 0, bsLen := 0, bs := [] })
    ∧ (s.ct ≠ none → s.txtLen = 0 → ∃ t, exec .encode s = .next t ∧ t.err = none ∧ t.bsLen = 0)
    ∧ (s.bsLen = 0 → ∃ t, exec (.pack false) s = .next t ∧ t.err = none ∧ t.byLen = 0 ∧ t.padOut = 0)
    ∧ (s.bsLen = 0 → ∃ t, exec (.pack true) s = .next t ∧ t.err = none ∧ t.byLen = 1 ∧ t.padOut = 0
        ∧ readCell t.byBuf 0 = some 0x00)
    ∧ (s.ct = none → exec .decode s = .next { s with
        err := some .emptyTree, errInfo := 0, txtLen := 0, txt := [] })
    ∧ (s.ct ≠ none → s.bsLen = 0 → ∃ t, exec .decode s = .next t ∧ t.err = none ∧ t.txtLen = 0)

/-! ## Operands and the host port -/

/-- 10_state.md R30, R8: what a command reads of its input buffer. With every element below the length held, it is
as long as the length register says and each element is the one held at its index. No command advances the
model's draw counter: none reads a free value. (With one not held the command is refused: log entry 5,
EveryStepEndsOrIsRefused.) -/
def Obligations.OperandsReadTheHeldElements : Prop :=
  (∀ s : State,
    (txtHeld s = true → (txtContent s).length = s.txtLen.toNat
        ∧ ∀ i < s.txtLen.toNat, (txtContent s)[i]? = readCell s.txt i)
    ∧ (ftHeld s = true → (ftContent s).length = s.ftLen.toNat
        ∧ ∀ i < s.ftLen.toNat, (ftContent s)[i]? = readCell s.ft i)
    ∧ (rlHeld s = true → (rlContent s).length = s.rlLen.toNat
        ∧ ∀ i < s.rlLen.toNat, (rlContent s)[i]? = readCell s.rl i)
    ∧ (bsHeld s = true → (bsContent s).length = s.bsLen.toNat
        ∧ ∀ i < s.bsLen.toNat, (bsContent s)[i]? = readCell s.bs i)
    ∧ (byHeld s = true → (byContent s).length = s.byLen.toNat
        ∧ ∀ i < s.byLen.toNat, (byContent s)[i]? = readCell s.byBuf i))
    ∧ ∀ (i : Instr) (s t : State), exec i s = .next t → t.draws = s.draws

/-- 20_memory.md R41, R42, R47: a write replaces the one element it addresses and nothing else, in each of
the writable spaces. -/
def Obligations.MemWriteReplacesOneElement : Prop :=
  ∀ (s : State) (index : BitVec 32) (v : PortData),
    (index.toNat < textMax s.params →
      memWrite 1 index v s = { s with txt := (memWrite 1 index v s).txt, response := .done }
      ∧ ∀ j, readCell (memWrite 1 index v s).txt j
          = if j = index.toNat then some (v.setWidth 8) else readCell s.txt j)
    ∧ (index.toNat < 256 →
      memWrite 2 index v s = { s with ft := (memWrite 2 index v s).ft, response := .done }
      ∧ ∀ j, readCell (memWrite 2 index v s).ft j
          = if j = index.toNat then some { sym := v.extractLsb' 0 8, cnt := v.extractLsb' 8 32 }
            else readCell s.ft j)
    ∧ (index.toNat < 256 →
      memWrite 3 index v s = { s with rl := (memWrite 3 index v s).rl, response := .done }
      ∧ ∀ j, readCell (memWrite 3 index v s).rl j
          = if j = index.toNat then some { sym := v.extractLsb' 0 8, cnt := v.extractLsb' 8 32 }
            else readCell s.rl j)
    ∧ (index.toNat < bitsMax s.params →
      memWrite 6 index v s = { s with bs := (memWrite 6 index v s).bs, response := .done }
      ∧ ∀ j, readCell (memWrite 6 index v s).bs j
          = if j = index.toNat then some (v.getLsbD 0) else readCell s.bs j)
    ∧ (index.toNat < byCap s.params →
      memWrite 7 index v s = { s with byBuf := (memWrite 7 index v s).byBuf, response := .done }
      ∧ ∀ j, readCell (memWrite 7 index v s).byBuf j
          = if j = index.toNat then some (v.setWidth 8) else readCell s.byBuf j)

/-- 20_memory.md R41, R42: a read after a write of an element below the length answers what was written. -/
def Obligations.HostReadsBackWhatItWrote : Prop :=
  ∀ (s : State) (index : BitVec 32) (v : PortData),
    (index.toNat < textMax s.params → index.toNat < s.txtLen.toNat → v.toNat < 2 ^ 8 →
      (memRead 1 index (memWrite 1 index v s)).response = .data v)
    ∧ (index.toNat < 256 → index.toNat < s.ftLen.toNat →
      (memRead 2 index (memWrite 2 index v s)).response = .data v)
    ∧ (index.toNat < 256 → index.toNat < s.rlLen.toNat →
      (memRead 3 index (memWrite 3 index v s)).response = .data v)
    ∧ (index.toNat < bitsMax s.params → index.toNat < s.bsLen.toNat → v.toNat < 2 →
      (memRead 6 index (memWrite 6 index v s)).response = .data v)
    ∧ (index.toNat < byCap s.params → index.toNat < s.byLen.toNat → v.toNat < 2 ^ 8 →
      (memRead 7 index (memWrite 7 index v s)).response = .data v)

/-- 10_state.md R25: the register a number reads, and that reading has no side effect. -/
def Obligations.RegistersReadAsMapped : Prop :=
  ∀ s : State,
    memRead 0 0x0 s = { s with response := .data ((statusReg s).setWidth 40) }
    ∧ memRead 0 0x1 s = { s with response := .data (s.txtLen.setWidth 40) }
    ∧ memRead 0 0x2 s = { s with response := .data (s.ftLen.setWidth 40) }
    ∧ memRead 0 0x3 s = { s with response := .data (s.rlLen.setWidth 40) }
    ∧ memRead 0 0x4 s = { s with response := .data (s.bsLen.setWidth 40) }
    ∧ memRead 0 0x5 s = { s with response := .data (s.byLen.setWidth 40) }
    ∧ memRead 0 0x6 s = { s with response := .data (s.padOut.setWidth 40) }
    ∧ memRead 0 0x7 s = { s with response := .data (s.padIn.setWidth 40) }
    ∧ memRead 0 0x8 s = { s with response := .data (s.ctCount.setWidth 40) }
    ∧ memRead 0 0x9 s = { s with response := .data (s.errInfo.setWidth 40) }

/-- 10_state.md R27, R23, R25: writing a length register within the capacity sets it and changes no element;
PAD_IN takes any 8-bit value. -/
def Obligations.LengthAndPadInWrites : Prop :=
  ∀ (s : State) (v : Reg32),
    (v.toNat ≤ textMax s.params →
      memWrite 0 0x1 (v.setWidth 40) s = { s with txtLen := v, response := .done })
    ∧ (v.toNat ≤ 256 → memWrite 0 0x2 (v.setWidth 40) s = { s with ftLen := v, response := .done })
    ∧ (v.toNat ≤ 256 → memWrite 0 0x3 (v.setWidth 40) s = { s with rlLen := v, response := .done })
    ∧ (v.toNat ≤ bitsMax s.params →
      memWrite 0 0x4 (v.setWidth 40) s = { s with bsLen := v, response := .done })
    ∧ (v.toNat ≤ byCap s.params →
      memWrite 0 0x5 (v.setWidth 40) s = { s with byLen := v, response := .done })
    ∧ ∀ b : Byte, memWrite 0 0x7 (b.setWidth 40) s = { s with padIn := b, response := .done }

/-- 20_memory.md R44: the transactions that are refused with an error response, and that they change no
state. -/
def Obligations.AccessErrorsChangeNothing : Prop :=
  ∀ (s : State) (index : BitVec 32) (v : PortData),
    (∀ space : BitVec 4, 8 ≤ space.toNat →
      memRead space index s = { s with response := .accessError }
      ∧ memWrite space index v s = { s with response := .accessError })
    ∧ (∀ space : BitVec 4,
        ((space = 0 ∧ 0xA ≤ index.toNat) ∨ (space = 1 ∧ textMax s.params ≤ index.toNat)
          ∨ (space = 2 ∧ 256 ≤ index.toNat) ∨ (space = 3 ∧ 256 ≤ index.toNat)
          ∨ (space = 4 ∧ 256 ≤ index.toNat) ∨ (space = 5 ∧ 65536 ≤ index.toNat)
          ∨ (space = 6 ∧ bitsMax s.params ≤ index.toNat) ∨ (space = 7 ∧ byCap s.params ≤ index.toNat)) →
        memRead space index s = { s with response := .accessError }
        ∧ memWrite space index v s = { s with response := .accessError })
    ∧ memWrite 0 0x0 v s = { s with response := .accessError }
    ∧ memWrite 0 0x6 v s = { s with response := .accessError }
    ∧ memWrite 0 0x8 v s = { s with response := .accessError }
    ∧ memWrite 0 0x9 v s = { s with response := .accessError }
    ∧ memWrite 4 index v s = { s with response := .accessError }
    ∧ memWrite 5 index v s = { s with response := .accessError }
    ∧ ∀ n : Reg32,
        (textMax s.params < n.toNat →
          memWrite 0 0x1 (n.setWidth 40) s = { s with response := .accessError })
        ∧ (256 < n.toNat → memWrite 0 0x2 (n.setWidth 40) s = { s with response := .accessError })
        ∧ (256 < n.toNat → memWrite 0 0x3 (n.setWidth 40) s = { s with response := .accessError })
        ∧ (bitsMax s.params < n.toNat →
          memWrite 0 0x4 (n.setWidth 40) s = { s with response := .accessError })
        ∧ (byCap s.params < n.toNat →
          memWrite 0 0x5 (n.setWidth 40) s = { s with response := .accessError })

/-- 20_memory.md R47, R43: a read has no side effect on the block: only the port's answer and the model's
draw counter can differ, and of a register, of an address that names none, and of an element that holds a value
the counter does not either. -/
def Obligations.ReadsHaveNoSideEffect : Prop :=
  ∀ (s : State) (space : BitVec 4) (index : BitVec 32),
    memRead space index s = { s with
        response := (memRead space index s).response, draws := (memRead space index s).draws }
      ∧ (space = 0 → (memRead space index s).draws = s.draws)
      ∧ ((memRead space index s).response = .accessError → (memRead space index s).draws = s.draws)
      ∧ (space = 1 → index.toNat < s.txtLen.toNat → readCell s.txt index.toNat ≠ none →
          (memRead space index s).draws = s.draws)
      ∧ (space = 2 → index.toNat < s.ftLen.toNat → readCell s.ft index.toNat ≠ none →
          (memRead space index s).draws = s.draws)
      ∧ (space = 3 → index.toNat < s.rlLen.toNat → readCell s.rl index.toNat ≠ none →
          (memRead space index s).draws = s.draws)
      ∧ (space = 4 → ∀ c, s.ct = some c → readCell c index.toNat ≠ none →
          (memRead space index s).draws = s.draws)
      ∧ (space = 5 → ∀ c code, s.ct = some c → readCell c (index.toNat / 256) = some code →
          index.toNat % 256 < code.length → (memRead space index s).draws = s.draws)
      ∧ (space = 6 → index.toNat < s.bsLen.toNat → readCell s.bs index.toNat ≠ none →
          (memRead space index s).draws = s.draws)
      ∧ (space = 7 → index.toNat < s.byLen.toNat → readCell s.byBuf index.toNat ≠ none →
          (memRead space index s).draws = s.draws)

/-- 20_memory.md R42: the layouts of an entry, of CTL and of CTC at the port. -/
def Obligations.PortLayouts : Prop :=
  ∀ (s : State) (index : BitVec 32),
    (∀ e, index.toNat < s.rlLen.toNat → index.toNat < 256 → readCell s.rl index.toNat = some e →
      ∃ v, (memRead 3 index s).response = .data v ∧ v.extractLsb' 0 8 = e.sym
        ∧ v.extractLsb' 8 32 = e.cnt)
    ∧ (∀ e, index.toNat < s.ftLen.toNat → index.toNat < 256 → readCell s.ft index.toNat = some e →
      ∃ v, (memRead 2 index s).response = .data v ∧ v.extractLsb' 0 8 = e.sym
        ∧ v.extractLsb' 8 32 = e.cnt)
    ∧ (∀ c code, s.ct = some c → readCell c index.toNat = some code → index.toNat < 256 →
      code.length ≤ 255 → ∃ v, (memRead 4 index s).response = .data v ∧ v.getLsbD 8 = true
        ∧ (v.extractLsb' 0 8).toNat = code.length ∧ v.toNat < 2 ^ 9)
    ∧ (∀ c, s.ct = some c → readCell c index.toNat = none → index.toNat < 256 →
      ∃ v, (memRead 4 index s).response = .data v ∧ v.getLsbD 8 = false ∧ v.toNat < 2 ^ 9)
    ∧ ∀ (c : Cells Bits) (code : Bits) (x : Symbol) (k : Nat) (b : Bit), s.ct = some c →
        readCell c x.toNat = some code → k < 256 → code[k]? = some b →
        index.toNat = x.toNat * 256 + k →
        (memRead 5 index s).response = .data (BitVec.ofNat 40 b.toNat)

/-- The host's lines that load a text (30_encoding.md R69, 45_control_and_host.md R138): after them TXT holds
it, and only TXT and TXT_LEN have changed. -/
def Obligations.HostLinesLoadTheText : Prop :=
  ∀ (s : State) (text : List Symbol) (rest : List Txn), text.length ≤ textMax s.params →
    paramsLegal s.params →
    s.pending = writeLines 1 0 (text.map (·.setWidth 40)) ++ writeReg 1 text.length :: rest →
    ∃ t : State, Sys2Proof.core.run (text.length + 1) s = .next t
      ∧ t = { s with txt := t.txt, txtLen := t.txtLen, pending := rest, response := .done }
      ∧ t.txtLen.toNat = text.length ∧ txtContent t = text ∧ Replaced s.txt t.txt text

/-! ## The whole codec -/

/-- 45_control_and_host.md R143: the outputs of a compression are a function of the text alone (a text every
element of which holds a value). -/
def Obligations.CompressionIsDeterministic : Prop :=
  ∀ s u s' : State, s.err = none → u.err = none → paramsLegal s.params → s.params = u.params →
    s.txtLen ≠ 0 → txtHeld s = true → txtHeld u = true →
    txtContent s = txtContent u → runCommands compressCommands s = some s' → s'.err = none →
    ∃ u', runCommands compressCommands u = some u' ∧ u'.err = none
      ∧ rlContent s' = rlContent u' ∧ s'.ct = u'.ct ∧ s'.bsLen = u'.bsLen ∧ bsContent s' = bsContent u'
      ∧ s'.byLen = u'.byLen ∧ byContent s' = byContent u' ∧ s'.padOut = u'.padOut

/-- 45_control_and_host.md R138, its claim that no command of the sequence can fail on a text that fits,
except ENCODE with Capacity; and that with an empty text COUNT raises EmptyInput. (Every element of the text
holds a value.) -/
def Obligations.CompressionFailsOnlyForCapacity : Prop :=
  ∀ s : State, s.err = none → paramsLegal s.params → txtHeld s = true →
    ∃ s', runCommands compressCommands s = some s'
      ∧ (s.txtLen = 0 → s'.err = some .emptyInput)
      ∧ (s.txtLen ≠ 0 → s'.err = none ∨ s'.err = some .capacity)

/-- 45_control_and_host.md R142: the round trip, "the primary correctness contract". A text compressed on
one side, and on the other side BUILD, DERIVE, UNPACK.T and DECODE on the same ranked list and the bytes
PACK.T left, gives the text back with no error. (Every element of the text, of the list and of the bytes holds a
value.) -/
def Obligations.DecompressUndoesCompress : Prop :=
  ∀ (s s' u : State), s.err = none → paramsLegal s.params → s.txtLen ≠ 0 →
    txtHeld s = true → rlHeld u = true → byHeld u = true →
    runCommands compressCommands s = some s' → s'.err = none → u.err = none → u.params = s.params →
    u.rlLen = s'.rlLen → rlContent u = rlContent s' → u.byLen = s'.byLen → byContent u = byContent s' →
    ∃ u', runCommands decompressCommands u = some u' ∧ u'.err = none
      ∧ u'.txtLen = s.txtLen ∧ txtContent u' = txtContent s

/-- 45_control_and_host.md R142 with the host's own transactions (R138, R139): whatever the blocks did before,
the transactions that compress a text, and those that decompress what it left in RL and BY, give the text back;
the last read of STATUS answers ERR = 0 and CT_VALID = 1. -/
def Obligations.HostRoundTrip : Prop :=
  ∀ (s s' u : State) (text : List Symbol), paramsLegal s.params → u.params = s.params →
    1 ≤ text.length → text.length ≤ textMax s.params → s.pending = compressTxns text →
    Sys2Proof.core.run (compressTxns text).length s = .next s' → s'.err = none →
    u.pending = decompressTxns (rlContent s') (byContent s') →
    ∃ u' : State, Sys2Proof.core.run (decompressTxns (rlContent s') (byContent s')).length u = .next u'
      ∧ u'.err = none ∧ u'.txtLen.toNat = text.length ∧ txtContent u' = text ∧ u'.pending = []
      ∧ u'.response = .data 0x20
end

