-- ==== Sys2Proof/Laws/Cells.lean ====
section
/-! SUPPORT. The laws of the cells of a buffer: read after write, what a write leaves alone, the canonical
form, and what a command reads. -/

namespace Sys2Proof.Machine

variable {α : Type}

@[simp] theorem readCell_nil (i : Nat) : readCell ([] : Cells α) i = none := rfl

theorem readCell_cons (j : Nat) (v : α) (c : Cells α) (i : Nat) :
    readCell ((j, v) :: c) i = if j = i then some v else readCell c i := rfl

theorem readCell_eq_none (c : Cells α) (i : Nat) : readCell c i = none ↔ ∀ e ∈ c, e.1 ≠ i := by
  induction c with
  | nil => simp
  | cons e c ih =>
    obtain ⟨j, v⟩ := e
    rw [readCell_cons]
    split <;> simp_all

theorem readCell_mem {c : Cells α} {i : Nat} {v : α} (h : readCell c i = some v) : (i, v) ∈ c := by
  induction c with
  | nil => simp at h
  | cons e c ih =>
    obtain ⟨j, w⟩ := e
    rw [readCell_cons] at h
    split at h
    · simp_all
    · exact List.mem_cons_of_mem _ (ih h)

/-- In canonical form an element is listed exactly when it is read. -/
theorem readCell_eq_some_iff {c : Cells α} (hc : c.Pairwise (fun a b => a.1 < b.1)) (i : Nat) (v : α) :
    readCell c i = some v ↔ (i, v) ∈ c := by
  refine ⟨readCell_mem, fun h => ?_⟩
  induction c with
  | nil => simp at h
  | cons e c ih =>
    obtain ⟨j, w⟩ := e
    rw [List.pairwise_cons] at hc
    rw [readCell_cons]
    rcases List.mem_cons.1 h with h | h
    · simp_all
    · have := hc.1 _ h
      rw [if_neg (by simp at this; omega)]
      exact ih hc.2 h

theorem readCell_writeCell_same (c : Cells α) (i : Nat) (v : α) : readCell (writeCell c i v) i = some v := by
  induction c with
  | nil => simp [writeCell, readCell]
  | cons e c ih =>
    obtain ⟨j, w⟩ := e
    unfold writeCell
    split
    · simp [readCell]
    · split
      · simp [readCell]
      · rw [readCell_cons, if_neg (by omega), ih]

theorem readCell_writeCell_other (c : Cells α) {i j : Nat} (v : α) (h : j ≠ i) :
    readCell (writeCell c i v) j = readCell c j := by
  induction c with
  | nil => simp [writeCell, readCell, h.symm]
  | cons e c ih =>
    obtain ⟨k, w⟩ := e
    unfold writeCell
    split
    · rw [readCell_cons, if_neg h.symm]
    · split
      · subst_vars
        rw [readCell_cons, readCell_cons, if_neg h.symm, if_neg h.symm]
      · rw [readCell_cons, readCell_cons, ih]

/-- Read after write, in one equation. -/
theorem readCell_writeCell (c : Cells α) (i j : Nat) (v : α) :
    readCell (writeCell c i v) j = if j = i then some v else readCell c j := by
  split
  · subst_vars; exact readCell_writeCell_same _ _ _
  · exact readCell_writeCell_other _ _ ‹_›

theorem mem_writeCell {c : Cells α} {i : Nat} {v : α} {e : Nat × α} (h : e ∈ writeCell c i v) :
    e = (i, v) ∨ e ∈ c := by
  induction c with
  | nil => simpa [writeCell] using h
  | cons d c ih =>
    obtain ⟨j, w⟩ := d
    unfold writeCell at h
    split at h
    · simpa using h
    · split at h
      · rcases List.mem_cons.1 h with h | h <;> simp [h]
      · rcases List.mem_cons.1 h with h | h
        · simp [h]
        · rcases ih h with h | h <;> simp [h]

/-- A write keeps the canonical form. -/
theorem writeCell_wf {cap : Nat} {c : Cells α} (hc : cellsWf cap c) {i : Nat} (hi : i < cap) (v : α) :
    cellsWf cap (writeCell c i v) := by
  obtain ⟨hp, hb⟩ := hc
  refine ⟨?_, fun e he => ?_⟩
  · induction c with
    | nil => simp [writeCell]
    | cons d c ih =>
      obtain ⟨j, w⟩ := d
      rw [List.pairwise_cons] at hp
      unfold writeCell
      split
      · refine List.pairwise_cons.2 ⟨fun e he => ?_, List.pairwise_cons.2 hp⟩
        rcases List.mem_cons.1 he with he | he
        · simpa [he]
        · have := hp.1 e he; simp at this ⊢; omega
      · split
        · subst_vars
          exact List.pairwise_cons.2 ⟨fun e he => hp.1 e he, hp.2⟩
        · refine List.pairwise_cons.2 ⟨fun e he => ?_, ih hp.2 (fun e he => hb e (List.mem_cons_of_mem _ he))⟩
          rcases mem_writeCell he with he | he
          · simp [he]; omega
          · exact hp.1 e he
  · rcases mem_writeCell he with he | he
    · simpa [he]
    · exact hb e he

theorem readCell_cellsFrom (k : Nat) (vs : List α) (i : Nat) :
    readCell (cellsFrom k vs) i = if k ≤ i then vs[i - k]? else none := by
  induction vs generalizing k with
  | nil => simp [cellsFrom]
  | cons v vs ih =>
    rw [cellsFrom, readCell_cons, ih]
    by_cases h : k = i
    · subst h; simp
    · rw [if_neg h]
      by_cases h2 : k ≤ i
      · rw [if_pos h2, if_pos (by omega), List.getElem?_cons, if_neg (by omega)]
        congr 1
      · rw [if_neg h2, if_neg (by omega)]

theorem readCell_append (a b : Cells α) (i : Nat) :
    readCell (a ++ b) i = (readCell a i).or (readCell b i) := by
  induction a with
  | nil => simp
  | cons e a ih =>
    obtain ⟨j, v⟩ := e
    rw [List.cons_append, readCell_cons, readCell_cons, ih]
    split <;> simp

theorem readCell_filter (c : Cells α) (p : Nat → Bool) (i : Nat) :
    readCell (c.filter (fun e => p e.1)) i = if p i then readCell c i else none := by
  induction c with
  | nil => simp
  | cons e c ih =>
    obtain ⟨j, v⟩ := e
    rw [List.filter_cons, readCell_cons]
    by_cases hj : p j
    · simp only [hj, if_true, readCell_cons, ih]
      by_cases h : j = i
      · subst h; simp [hj]
      · simp [h]
    · simp only [hj, Bool.false_eq_true, if_false, ih]
      by_cases h : j = i
      · subst h; simp [hj]
      · simp [h]

/-- What a prefix write does to each element: the ones below the length of the sequence become the
sequence's, the others are as they were. -/
theorem readCell_writePrefix (c : Cells α) (vs : List α) (i : Nat) :
    readCell (writePrefix c vs) i = if i < vs.length then vs[i]? else readCell c i := by
  rw [writePrefix, readCell_append, readCell_cellsFrom, readCell_filter c (fun j => decide (vs.length ≤ j))]
  by_cases h : i < vs.length
  · simp [h]
  · simp [h, Nat.le_of_not_lt h]

theorem mem_cellsFrom {k : Nat} {vs : List α} {e : Nat × α} (h : e ∈ cellsFrom k vs) :
    k ≤ e.1 ∧ e.1 < k + vs.length := by
  induction vs generalizing k with
  | nil => simp [cellsFrom] at h
  | cons v vs ih =>
    rw [cellsFrom] at h
    rcases List.mem_cons.1 h with h | h
    · simp [h]
    · have := ih h; simp; omega

theorem cellsFrom_pairwise (k : Nat) (vs : List α) : (cellsFrom k vs).Pairwise (fun a b => a.1 < b.1) := by
  induction vs generalizing k with
  | nil => simp [cellsFrom]
  | cons v vs ih =>
    rw [cellsFrom]
    refine List.pairwise_cons.2 ⟨fun e he => ?_, ih _⟩
    have := mem_cellsFrom he; simp; omega

/-- A prefix write within the capacity keeps the canonical form. -/
theorem writePrefix_wf {cap : Nat} {c : Cells α} (hc : cellsWf cap c) {vs : List α} (hv : vs.length ≤ cap) :
    cellsWf cap (writePrefix c vs) := by
  refine ⟨List.pairwise_append.2 ⟨cellsFrom_pairwise _ _, hc.1.filter _, fun a ha b hb => ?_⟩,
    fun e he => ?_⟩
  · have h1 := mem_cellsFrom ha
    have h2 := (List.mem_filter.1 hb).2
    simp at h2; omega
  · rcases List.mem_append.1 he with he | he
    · have := mem_cellsFrom he; omega
    · exact hc.2 e (List.mem_filter.1 he).1

/-! ## What a command reads -/

theorem allWritten_iff (c : Cells α) (n : Nat) :
    allWritten c n = true ↔ ∀ i < n, ∃ v, readCell c i = some v := by
  simp [allWritten, Option.isSome_iff_exists]

theorem allWritten_eq_false_iff (c : Cells α) (n : Nat) :
    allWritten c n = false ↔ ∃ i < n, readCell c i = none := by
  rw [← Bool.not_eq_true, allWritten_iff]
  simp [Option.eq_none_iff_forall_not_mem]

theorem content_length_le (c : Cells α) (n : Nat) : (content c n).length ≤ n := by
  simpa [content] using List.length_filterMap_le (readCell c) (List.range n)

theorem content_succ (c : Cells α) (n : Nat) : content c (n + 1) = content c n ++ (readCell c n).toList := by
  rw [content, List.range_succ, List.filterMap_append]
  cases h : readCell c n <;> simp [content, h]

/-- A sequence every element of which is held is what is read. -/
theorem content_eq {c : Cells α} {vs : List α} (h : ∀ i < vs.length, readCell c i = vs[i]?) :
    content c vs.length = vs := by
  induction vs using List.reverseRecOn with
  | nil => rfl
  | append_singleton vs v ih =>
    rw [List.length_append, List.length_singleton, content_succ, ih (fun i hi => ?_), h _ (by simp)]
    · simp
    · rw [h i (by simp; omega), List.getElem?_append_left hi]

/-- With every element below `n` held, `n` elements are read, each the one held at its index. -/
theorem content_spec {c : Cells α} {n : Nat} (h : allWritten c n = true) :
    (content c n).length = n ∧ ∀ i < n, (content c n)[i]? = readCell c i := by
  rw [allWritten_iff] at h
  induction n with
  | zero => exact ⟨rfl, by simp⟩
  | succ n ih =>
    obtain ⟨h1, h2⟩ := ih (fun i hi => h i (by omega))
    obtain ⟨v, hv⟩ := h n (by omega)
    rw [content_succ, hv]
    refine ⟨by simp [h1], fun i hi => ?_⟩
    by_cases hn : i = n
    · subst hn; rw [List.getElem?_append_right (by omega)]; simp [h1, hv]
    · rw [List.getElem?_append_left (by omega), h2 i (by omega)]

theorem content_length {c : Cells α} {n : Nat} (h : allWritten c n = true) : (content c n).length = n :=
  (content_spec h).1

/-- As many elements as the length are read only where every one is held. -/
theorem allWritten_of_content_length {c : Cells α} {n : Nat} (h : (content c n).length = n) :
    allWritten c n = true := by
  rw [allWritten_iff]
  induction n with
  | zero => simp
  | succ n ih =>
    rw [content_succ, List.length_append] at h
    have h1 := content_length_le c n
    cases hv : readCell c n with
    | none => rw [hv] at h; simp at h; omega
    | some v =>
      rw [hv] at h; simp at h
      intro i hi
      by_cases hn : i = n
      · subst hn; exact ⟨v, hv⟩
      · exact ih h i (by omega)

theorem allWritten_of_eq {c : Cells α} {vs : List α} (h : ∀ i < vs.length, readCell c i = vs[i]?) :
    allWritten c vs.length = true := by
  rw [allWritten_iff]
  intro i hi
  exact ⟨vs[i], by rw [h i hi, List.getElem?_eq_getElem hi]⟩

/-- What a prefix write laid down is what a later command reads. -/
@[simp] theorem content_writePrefix (c : Cells α) (vs : List α) : content (writePrefix c vs) vs.length = vs :=
  content_eq (fun i hi => by rw [readCell_writePrefix, if_pos hi])

@[simp] theorem allWritten_writePrefix (c : Cells α) (vs : List α) :
    allWritten (writePrefix c vs) vs.length = true :=
  allWritten_of_eq (fun i hi => by rw [readCell_writePrefix, if_pos hi])

/-- Two buffers that agree below a length are read alike. -/
theorem content_congr {c d : Cells α} {n : Nat} (h : ∀ i < n, readCell c i = readCell d i) :
    content c n = content d n := by
  induction n with
  | zero => rfl
  | succ n ih => rw [content_succ, content_succ, ih (fun i hi => h i (by omega)), h n (by omega)]

@[simp] theorem content_zero (c : Cells α) : content c 0 = [] := rfl

@[simp] theorem allWritten_zero (c : Cells α) : allWritten c 0 = true := rfl

end Sys2Proof.Machine
end

