-- ==== Sys2Proof/Laws/Sorter.lean ====
section
/-! SUPPORT. What ordered insertion, the counting of symbols and the ranking of entries do. -/

namespace Sys2Proof.Machine

/-! ## Ordered insertion -/

variable {α : Type}

@[simp] theorem insertTiesLast_length (key : α → Nat) (e : α) (l : List α) :
    (insertTiesLast key e l).length = l.length + 1 := by
  simp only [insertTiesLast, List.length_append, List.length_cons, List.length_take, List.length_drop]
  omega

theorem insertTiesLast_perm (key : α → Nat) (e : α) (l : List α) :
    (insertTiesLast key e l).Perm (e :: l) := by
  have h := (List.perm_middle (a := e) (l₁ := l.take (l.countP (fun x => decide (key e ≤ key x))))
    (l₂ := l.drop (l.countP (fun x => decide (key e ≤ key x)))))
  rw [List.take_append_drop] at h
  exact h

/-- In a list in descending order the position is right behind the last entry of the same or a greater
key. -/
theorem insertTiesLast_split {key : α → Nat} {l : List α} (hl : l.Pairwise (fun a b => key b ≤ key a)) (e : α) :
    ∃ high low, l = high ++ low ∧ insertTiesLast key e l = high ++ e :: low
      ∧ (∀ x ∈ high, key e ≤ key x) ∧ ∀ x ∈ low, key x < key e := by
  induction l with
  | nil => exact ⟨[], [], rfl, rfl, by simp, by simp⟩
  | cons a l ih =>
    rw [List.pairwise_cons] at hl
    by_cases ha : key e ≤ key a
    · obtain ⟨high, low, h1, h2, h3, h4⟩ := ih hl.2
      refine ⟨a :: high, low, by simp [h1], ?_, ?_, h4⟩
      · rw [List.cons_append, ← h2]
        simp [insertTiesLast, ha]
      · simpa [ha] using h3
    · refine ⟨[], a :: l, rfl, ?_, by simp, ?_⟩
      · have hz : (a :: l).countP (fun x => decide (key e ≤ key x)) = 0 := by
          rw [List.countP_eq_zero]
          intro x hx
          rcases List.mem_cons.1 hx with rfl | hx
          · simpa using ha
          · have := hl.1 x hx; simp; omega
        simp [insertTiesLast, hz]
      · intro x hx
        rcases List.mem_cons.1 hx with rfl | hx
        · omega
        · have := hl.1 x hx; omega

/-- Insertion keeps the descending order. -/
theorem insertTiesLast_pairwise {key : α → Nat} {l : List α} (hl : l.Pairwise (fun a b => key b ≤ key a))
    (e : α) : (insertTiesLast key e l).Pairwise (fun a b => key b ≤ key a) := by
  obtain ⟨high, low, h1, h2, h3, h4⟩ := insertTiesLast_split hl e
  subst h1
  rw [h2]
  rw [List.pairwise_append] at hl ⊢
  refine ⟨hl.1, List.pairwise_cons.2 ⟨fun x hx => Nat.le_of_lt (h4 x hx), hl.2.1⟩, fun a ha b hb => ?_⟩
  rcases List.mem_cons.1 hb with rfl | hb
  · exact h3 a ha
  · exact hl.2.2 a ha b hb

/-- Among entries of one key the inserted one comes last, and the others keep their order. -/
theorem insertTiesLast_filter {key : α → Nat} {l : List α} (hl : l.Pairwise (fun a b => key b ≤ key a)) (e : α)
    (k : Nat) : (insertTiesLast key e l).filter (fun x => key x = k)
      = l.filter (fun x => key x = k) ++ [e].filter (fun x => key x = k) := by
  obtain ⟨high, low, h1, h2, h3, h4⟩ := insertTiesLast_split hl e
  rw [h2, h1, List.filter_append, List.filter_append, List.append_assoc]
  congr 1
  by_cases hk : key e = k
  · have : low.filter (fun x => key x = k) = [] := by
      rw [List.filter_eq_nil_iff]
      intro x hx; have := h4 x hx; simp; omega
    simp [hk, this]
  · simp [hk]

/-! ## Ranking -/

theorem rankEntries_snoc (ft : List Entry) (e : Entry) :
    rankEntries (ft ++ [e]) = insertTiesLast (fun x => x.cnt.toNat) e (rankEntries ft) := by
  simp [rankEntries, List.foldl_append]

/-- What ranking does: the same entries, in descending order of count, each count's entries in their old
order. -/
theorem rankEntries_spec (ft : List Entry) :
    (rankEntries ft).Perm ft ∧ (rankEntries ft).Pairwise (fun a b => b.cnt.toNat ≤ a.cnt.toNat)
      ∧ ∀ k : Nat, (rankEntries ft).filter (fun x => x.cnt.toNat = k) = ft.filter (fun x => x.cnt.toNat = k) := by
  induction ft using List.reverseRecOn with
  | nil => simp [rankEntries]
  | append_singleton ft e ih =>
    obtain ⟨hp, hd, hf⟩ := ih
    rw [rankEntries_snoc]
    refine ⟨?_, insertTiesLast_pairwise hd e, fun k => ?_⟩
    · exact (insertTiesLast_perm _ e _).trans ((hp.cons e).trans (List.perm_append_singleton e ft).symm)
    · rw [insertTiesLast_filter hd, hf, List.filter_append]

@[simp] theorem rankEntries_length (ft : List Entry) : (rankEntries ft).length = ft.length :=
  (rankEntries_spec ft).1.length_eq

/-! ## Counting -/

theorem countText_snoc (text : List Symbol) (s : Symbol) :
    countText (text ++ [s]) = countSymbol (countText text) s := by
  simp [countText, List.foldl_append]

/-- The symbols of the table after one more occurrence. -/
theorem countSymbol_symbols (ft : List Entry) (s : Symbol) :
    (countSymbol ft s).map Entry.sym
      = if s ∈ ft.map Entry.sym then ft.map Entry.sym else ft.map Entry.sym ++ [s] := by
  induction ft with
  | nil => simp [countSymbol]
  | cons e ft ih =>
    unfold countSymbol
    by_cases h : e.sym = s
    · simp [h]
    · simp only [h, if_false, List.map_cons, ih, List.mem_cons, Ne.symm h, false_or]
      split <;> simp

/-- The counts of the table after one more occurrence: the symbol's entry counts one more. -/
theorem mem_countSymbol {ft : List Entry} (hn : (ft.map Entry.sym).Nodup) {s : Symbol} {e : Entry}
    (h : e ∈ countSymbol ft s) :
    (e ∈ ft ∧ e.sym ≠ s) ∨ (∃ d ∈ ft, d.sym = s ∧ e = { d with cnt := d.cnt + 1 })
      ∨ (s ∉ ft.map Entry.sym ∧ e = { sym := s, cnt := 1 }) := by
  induction ft with
  | nil => right; right; simpa [countSymbol] using h
  | cons d ft ih =>
    simp only [List.map_cons, List.nodup_cons] at hn
    unfold countSymbol at h
    split at h
    · rename_i hd
      rcases List.mem_cons.1 h with h | h
      · right; left; exact ⟨d, by simp, hd, h⟩
      · left
        refine ⟨List.mem_cons_of_mem _ h, fun hc => hn.1 ?_⟩
        rw [hd, ← hc]; exact List.mem_map_of_mem h
    · rename_i hd
      rcases List.mem_cons.1 h with h | h
      · left; subst h; exact ⟨by simp, hd⟩
      · rcases ih hn.2 h with h | ⟨x, hx, h⟩ | h
        · left; exact ⟨List.mem_cons_of_mem _ h.1, h.2⟩
        · right; left; exact ⟨x, List.mem_cons_of_mem _ hx, h⟩
        · right; right
          refine ⟨?_, h.2⟩
          simp only [List.map_cons, List.mem_cons, not_or]
          exact ⟨Ne.symm hd, h.1⟩

/-- What counting does: one entry for each symbol of the text, in the order of first encounter, with the
number of its occurrences. -/
theorem countText_spec (text : List Symbol) (hlen : text.length < 2 ^ 32) :
    ((countText text).map Entry.sym).Nodup ∧ (∀ x, x ∈ (countText text).map Entry.sym ↔ x ∈ text)
      ∧ ((countText text).map Entry.sym).Pairwise (fun a b => text.idxOf a < text.idxOf b)
      ∧ ∀ e ∈ countText text, e.cnt.toNat = text.count e.sym := by
  induction text using List.reverseRecOn with
  | nil => simp [countText]
  | append_singleton text s ih =>
    simp only [List.length_append, List.length_singleton] at hlen
    obtain ⟨hn, hm, ho, hc⟩ := ih (by omega)
    rw [countText_snoc, countSymbol_symbols]
    have hidx : ∀ x ∈ text, (text ++ [s]).idxOf x = text.idxOf x := fun x hx =>
      List.idxOf_append_of_mem hx
    have ho' : ((countText text).map Entry.sym).Pairwise
        (fun a b => (text ++ [s]).idxOf a < (text ++ [s]).idxOf b) := by
      refine ho.imp_of_mem fun {a b} ha hb hab => ?_
      rw [hidx a ((hm a).1 ha), hidx b ((hm b).1 hb)]; exact hab
    refine ⟨?_, fun x => ?_, ?_, fun e he => ?_⟩
    · split
      · exact hn
      · rename_i h
        rw [List.nodup_append]
        exact ⟨hn, by simp, fun a ha b hb => by simp at hb; subst hb; rintro rfl; exact h ha⟩
    · split
      · rename_i h
        rw [hm, List.mem_append, List.mem_singleton]
        constructor
        · exact Or.inl
        · rintro (h' | rfl)
          · exact h'
          · exact (hm _).1 h
      · rw [List.mem_append, List.mem_append, hm]
    · split
      · exact ho'
      · rename_i h
        rw [List.pairwise_append]
        refine ⟨ho', by simp, fun a ha b hb => ?_⟩
        simp at hb; subst hb
        have h1 := (hm a).1 ha
        have h2 : b ∉ text := fun h2 => h ((hm b).2 h2)
        rw [hidx a h1, List.idxOf_append_of_notMem h2]
        have := List.idxOf_lt_length_of_mem h1
        omega
    · rw [List.count_append]
      rcases mem_countSymbol hn he with ⟨h1, h2⟩ | ⟨d, h1, h2, rfl⟩ | ⟨h1, rfl⟩
      · rw [hc e h1]; simp [Ne.symm h2]
      · have hd := hc d h1
        have : text.count d.sym ≤ text.length := List.count_le_length
        simp only [BitVec.toNat_add, hd, h2, List.count_singleton_self]
        rw [h2] at this hd
        simp; omega
      · have : s ∉ text := fun h => h1 ((hm s).2 h)
        simp [List.count_eq_zero.2 this]

/-- A list of symbols without repeats has at most 256 of them. -/
theorem symbols_length_le {l : List Symbol} (h : l.Nodup) : l.length ≤ 256 := by
  have hn : (l.map BitVec.toNat).Nodup := h.map (fun a b hab => BitVec.eq_of_toNat_eq hab)
  have hsub : (l.map BitVec.toNat) ⊆ List.range 256 := by
    intro x hx
    obtain ⟨s, _, rfl⟩ := List.mem_map.1 hx
    simpa using s.isLt
  have := (List.subperm_of_subset hn hsub).length_le
  simpa using this

theorem countText_length_le (text : List Symbol) (hlen : text.length < 2 ^ 32) :
    (countText text).length ≤ 256 := by
  have := symbols_length_le (countText_spec text hlen).1
  simpa using this

end Sys2Proof.Machine
end

