-- ==== Sys2Proof/Laws/Builder.lean ====
section
/-! SUPPORT. What BUILD's check of the ranked list says, and what its merges do. -/

namespace Sys2Proof.Machine

/-! ## The check of the ranked list -/

theorem illFormedAt_iff (rl : List Entry) (i : Nat) : illFormedAt rl i = true ↔ IllFormedEntry rl i := by
  unfold illFormedAt IllFormedEntry
  cases h : rl[i]? with
  | none => simp
  | some e =>
    simp only [Bool.or_eq_true, beq_iff_eq, Bool.and_eq_true, bne_iff_ne, Option.any_eq_true, decide_eq_true_eq,
      List.any_eq_true, Option.some.injEq, exists_eq_left', or_assoc]
    refine or_congr Iff.rfl (or_congr ?_ ?_)
    · rw [Nat.pos_iff_ne_zero]
    · constructor
      · rintro ⟨x, hx, hs⟩
        obtain ⟨j, hj, rfl⟩ := List.mem_iff_getElem.1 hx
        simp only [List.length_take] at hj
        refine ⟨j, rl[j]'(by omega), by omega, by simp, ?_⟩
        simpa using hs
      · rintro ⟨j, x, hj, hx, hs⟩
        refine ⟨x, ?_, hs⟩
        rw [List.mem_iff_getElem?]
        exact ⟨j, by rw [List.getElem?_take, if_pos hj, hx]⟩

theorem IllFormedEntry.lt {rl : List Entry} {i : Nat} (h : IllFormedEntry rl i) : i < rl.length := by
  obtain ⟨e, he, _⟩ := h
  exact (List.getElem?_eq_some_iff.1 he).1

/-- BUILD finds no ill-formed index exactly when there is none. -/
theorem firstIllFormed_eq_none (rl : List Entry) : firstIllFormed rl = none ↔ ∀ i, ¬ IllFormedEntry rl i := by
  rw [firstIllFormed, List.find?_eq_none]
  constructor
  · intro h i hi
    exact h i (List.mem_range.2 hi.lt) ((illFormedAt_iff rl i).2 hi)
  · intro h i _ hi
    exact h i ((illFormedAt_iff rl i).1 hi)

/-- The index BUILD reports is the smallest ill-formed one. -/
theorem firstIllFormed_eq_some (rl : List Entry) (i : Nat) :
    firstIllFormed rl = some i ↔ IllFormedEntry rl i ∧ ∀ j < i, ¬ IllFormedEntry rl j := by
  rw [firstIllFormed]
  constructor
  · intro h
    rw [List.find?_range_eq_some] at h
    obtain ⟨h1, h2, h3⟩ := h
    refine ⟨(illFormedAt_iff rl i).1 h1, fun j hj hi => ?_⟩
    have := h3 j hj
    rw [(illFormedAt_iff rl j).2 hi] at this
    simp at this
  · rintro ⟨h1, h2⟩
    rw [List.find?_range_eq_some]
    refine ⟨(illFormedAt_iff rl i).2 h1, List.mem_range.2 h1.lt, fun j hj => ?_⟩
    have := h2 j hj
    rw [← illFormedAt_iff] at this
    simpa using this

/-- A list with no ill-formed entry: counts at least 1, non-increasing, symbols distinct. -/
theorem wellFormed_list {rl : List Entry} (h : ∀ i, ¬ IllFormedEntry rl i) :
    (∀ e ∈ rl, 1 ≤ e.cnt.toNat) ∧ rl.Pairwise (fun a b => b.cnt.toNat ≤ a.cnt.toNat)
      ∧ (rl.map Entry.sym).Nodup := by
  refine ⟨fun e he => ?_, ?_, ?_⟩
  · obtain ⟨i, hi⟩ := List.mem_iff_getElem?.1 he
    rcases Nat.eq_zero_or_pos e.cnt.toNat with h0 | h0
    · exact absurd ⟨e, hi, Or.inl (BitVec.eq_of_toNat_eq (by simpa using h0))⟩ (h i)
    · exact h0
  · have : rl.IsChain (fun a b => b.cnt.toNat ≤ a.cnt.toNat) := by
      rw [List.isChain_iff_getElem]
      intro i hi
      by_contra hc
      refine h (i + 1) ⟨rl[i + 1], by simp [hi], Or.inr (Or.inl ⟨by omega, rl[i], by simp, by omega⟩)⟩
    exact List.isChain_iff_pairwise.1 this
  · rw [List.Nodup, List.pairwise_map, List.pairwise_iff_getElem]
    intro j i hj hi hji heq
    exact h i ⟨rl[i], by simp [hi], Or.inr (Or.inr ⟨j, rl[j], hji, by simp [hj], heq⟩)⟩

theorem wellFormed_of {rl : List Entry} (h1 : ∀ e ∈ rl, 1 ≤ e.cnt.toNat)
    (h2 : rl.Pairwise (fun a b => b.cnt.toNat ≤ a.cnt.toNat)) (h3 : (rl.map Entry.sym).Nodup) (i : Nat) :
    ¬ IllFormedEntry rl i := by
  rintro ⟨e, he, hc⟩
  obtain ⟨hi, rfl⟩ := List.getElem?_eq_some_iff.1 he
  rcases hc with hc | ⟨hp, b, hb, hc⟩ | ⟨j, x, hj, hx, hc⟩
  · have := h1 rl[i] (List.getElem_mem hi)
    rw [hc] at this; simp at this
  · obtain ⟨hi', rfl⟩ := List.getElem?_eq_some_iff.1 hb
    have := List.pairwise_iff_getElem.1 h2 (i - 1) i hi' hi (by omega)
    omega
  · obtain ⟨hj', rfl⟩ := List.getElem?_eq_some_iff.1 hx
    rw [List.Nodup, List.pairwise_map, List.pairwise_iff_getElem] at h3
    exact h3 j i hj' hi hj hc

/-! ## The merges -/

@[simp] theorem treeWeight_leaf (s : Symbol) (w : Weight) : treeWeight (.leaf s w) = w := rfl

@[simp] theorem treeWeight_node (l r : Tree) (w : Weight) : treeWeight (.node l r w) = w := rfl

@[simp] theorem treeSymbols_leaf (s : Symbol) (w : Weight) : treeSymbols (.leaf s w) = [s] := rfl

@[simp] theorem treeSymbols_node (l r : Tree) (w : Weight) :
    treeSymbols (.node l r w) = treeSymbols l ++ treeSymbols r := rfl

/-- A merge takes the two last entries, the last as the left child. -/
theorem mergeStep_append (wl : List Tree) (before last : Tree) :
    mergeStep (wl ++ [before, last])
      = insertTiesLast (fun t => (treeWeight t).toNat) (mergeTrees last before) wl := by
  simp [mergeStep]

theorem last_two {α : Type} {wl : List α} (h : 1 < wl.length) : ∃ pre before last, wl = pre ++ [before, last] := by
  obtain ⟨pre, last, rfl⟩ := List.eq_nil_or_concat wl |>.resolve_left (by rintro rfl; simp at h)
  obtain ⟨pre, before, rfl⟩ := List.eq_nil_or_concat pre |>.resolve_left (by rintro rfl; simp at h)
  exact ⟨pre, before, last, by simp⟩

/-- What the merges of a work list in descending order come to: one tree, reached as the relation
`BuildsTo` says, with the same leaves, and with the sum of the weights. -/
theorem mergeAll_spec (k : Nat) (wl : List Tree) (hne : wl ≠ []) (hk : wl.length ≤ k + 1)
    (hd : wl.Pairwise (fun a b => (treeWeight b).toNat ≤ (treeWeight a).toNat))
    (hs : (wl.map (fun t => (treeWeight t).toNat)).sum < 2 ^ 40) (hw : ∀ t ∈ wl, weightsAdd t) :
    ∃ t, mergeAll k wl = [t] ∧ BuildsTo wl t ∧ (treeSymbols t).Perm (wl.flatMap treeSymbols)
      ∧ (treeWeight t).toNat = (wl.map (fun t => (treeWeight t).toNat)).sum ∧ weightsAdd t := by
  induction k generalizing wl with
  | zero =>
    obtain ⟨t, rfl⟩ := List.length_eq_one_iff.1
      (Nat.le_antisymm hk (List.length_pos_of_ne_nil hne))
    exact ⟨t, rfl, .single t, by simp, by simp, hw t (by simp)⟩
  | succ k ih =>
    by_cases h1 : wl.length ≤ 1
    · obtain ⟨t, rfl⟩ := List.length_eq_one_iff.1
        (Nat.le_antisymm h1 (List.length_pos_of_ne_nil hne))
      exact ⟨t, by simp [mergeAll], .single t, by simp, by simp, hw t (by simp)⟩
    · obtain ⟨pre, before, last, rfl⟩ := last_two (Nat.lt_of_not_le h1)
      rw [List.pairwise_append] at hd
      obtain ⟨high, low, e1, e2, h3, h4⟩ := insertTiesLast_split
        (key := fun t => (treeWeight t).toNat) hd.1 (mergeTrees last before)
      have hsum : (treeWeight (mergeTrees last before)).toNat
          = (treeWeight last).toNat + (treeWeight before).toNat := by
        simp only [mergeTrees, treeWeight_node, BitVec.toNat_add]
        simp only [List.map_append, List.sum_append, List.map_cons, List.map_nil, List.sum_cons,
          List.sum_nil] at hs
        exact Nat.mod_eq_of_lt (by omega)
      have hstep : mergeStep (pre ++ [before, last]) = high ++ mergeTrees last before :: low := by
        rw [mergeStep_append, e2]
      have hlen : pre.length = high.length + low.length := by rw [e1]; simp
      have hpw := insertTiesLast_pairwise (key := fun t => (treeWeight t).toNat) hd.1 (mergeTrees last before)
      rw [e2] at hpw
      simp only [List.length_append, List.length_cons, List.length_nil] at hk h1
      simp only [List.map_append, List.sum_append, List.map_cons, List.map_nil, List.sum_cons,
        List.sum_nil, e1] at hs
      obtain ⟨t, t1, t2, t3, t4, t5⟩ := ih (high ++ mergeTrees last before :: low) (by simp)
        (by simp; omega) hpw
        (by simp only [List.map_append, List.sum_append, List.map_cons, List.sum_cons, hsum]; omega)
        (by
          intro t ht
          rcases List.mem_append.1 ht with ht | ht
          · exact hw t (by simp [e1, ht])
          · rcases List.mem_cons.1 ht with rfl | ht
            · exact ⟨hsum, hw last (by simp), hw before (by simp)⟩
            · exact hw t (by simp [e1, ht]))
      refine ⟨t, ?_, ?_, ?_, ?_, t5⟩
      · rw [mergeAll, if_neg (by simp), hstep, t1]
      · rw [e1]
        exact .merge high low before last t _ hsum h3 h4 t2
      · refine t3.trans ?_
        rw [e1]
        simp only [List.flatMap_append, List.flatMap_cons, List.flatMap_nil, List.append_nil, mergeTrees,
          treeSymbols_node]
        grind
      · rw [t4, e1]
        simp only [List.map_append, List.sum_append, List.map_cons, List.sum_cons, List.map_nil, List.sum_nil,
          hsum]
        omega

theorem entries_sum_lt {rl : List Entry} (h : rl.length ≤ 256) :
    (rl.map (fun e => e.cnt.toNat)).sum < 2 ^ 40 := by
  have : ∀ l : List Entry, (l.map (fun e => e.cnt.toNat)).sum ≤ l.length * (2 ^ 32 - 1) := by
    intro l
    induction l with
    | nil => simp
    | cons e l ih =>
      have := e.cnt.isLt
      simp only [List.map_cons, List.sum_cons, List.length_cons]
      omega
  have := this rl
  have : rl.length * (2 ^ 32 - 1) ≤ 256 * (2 ^ 32 - 1) := Nat.mul_le_mul_right _ h
  omega

/-- What the tree of a well-formed ranked list is. -/
theorem buildTree_spec {rl : List Entry} (hne : rl ≠ []) (h : ∀ i, ¬ IllFormedEntry rl i) :
    ∃ t, buildTree rl = some t ∧ BuildsTo (initialWorkList rl) t
      ∧ (treeSymbols t).Perm (rl.map Entry.sym)
      ∧ (treeWeight t).toNat = (rl.map (fun e => e.cnt.toNat)).sum ∧ TreeOk t := by
  obtain ⟨h1, h2, h3⟩ := wellFormed_list h
  have hlen : rl.length ≤ 256 := by simpa using symbols_length_le h3
  have hw : ∀ e : Entry, (treeWeight (.leaf e.sym (e.cnt.setWidth 40))).toNat = e.cnt.toNat := by
    intro e
    simp only [treeWeight_leaf, BitVec.toNat_setWidth]
    have := e.cnt.isLt
    exact Nat.mod_eq_of_lt (by omega)
  have hsum : ((initialWorkList rl).map (fun t => (treeWeight t).toNat)) = rl.map (fun e => e.cnt.toNat) := by
    rw [initialWorkList, List.map_map]
    exact List.map_congr_left (fun e _ => hw e)
  have hsym : (initialWorkList rl).flatMap treeSymbols = rl.map Entry.sym := by
    rw [initialWorkList, List.flatMap_map]
    simp only [treeSymbols_leaf]
    exact List.map_eq_flatMap.symm
  obtain ⟨t, t1, t2, t3, t4, t5⟩ := mergeAll_spec rl.length (initialWorkList rl) (by simpa [initialWorkList])
    (by simp [initialWorkList])
    (by
      rw [initialWorkList, List.pairwise_map]
      exact h2.imp (fun {a b} hab => by rw [hw a, hw b]; exact hab))
    (by rw [hsum]; exact entries_sum_lt hlen)
    (by
      intro t ht
      obtain ⟨e, he, rfl⟩ := List.mem_map.1 ht
      have := hw e
      rw [treeWeight_leaf] at this
      exact ⟨by rw [this]; exact h1 e he, by rw [this]; exact e.cnt.isLt⟩)
  rw [hsum] at t4
  rw [hsym] at t3
  exact ⟨t, by simp [buildTree, t1], t2, t3, t4, (t3.nodup_iff).2 h3, t5⟩

end Sys2Proof.Machine
end

