-- ==== Sys2Proof/Laws/Deriver.lean ====
section
/-! SUPPORT. What DERIVE's walk gives: the paths of the leaves, prefix-free, and the table made of them. -/

namespace Sys2Proof.Machine

/-! ## The walk -/

theorem walkTree_symbols (t : Tree) (path : Bits) : (walkTree t path).map Prod.fst = treeSymbols t := by
  induction t generalizing path with
  | leaf s w => rfl
  | node l r w ihl ihr => simp [walkTree, ihl, ihr]

/-- The walk pairs a symbol with the paths that lead to its leaves. -/
theorem mem_walkTree (t : Tree) (path : Bits) (x : Symbol) (c : Bits) :
    (x, c) ∈ walkTree t path ↔ ∃ p w, c = path ++ p ∧ followPath t p = some (.leaf x w) := by
  induction t generalizing path with
  | leaf s w =>
    simp only [walkTree, List.mem_singleton, Prod.mk.injEq]
    constructor
    · rintro ⟨rfl, rfl⟩; exact ⟨[], w, by simp, rfl⟩
    · rintro ⟨p, w', hc, hp⟩
      cases p with
      | nil => simp [followPath] at hp; simp [hp.1, hc]
      | cons b p => simp [followPath] at hp
  | node l r w ihl ihr =>
    simp only [walkTree, List.mem_append, ihl, ihr]
    constructor
    · rintro (⟨p, w', hc, hp⟩ | ⟨p, w', hc, hp⟩)
      · exact ⟨false :: p, w', by simp [hc], by simpa [followPath] using hp⟩
      · exact ⟨true :: p, w', by simp [hc], by simpa [followPath] using hp⟩
    · rintro ⟨p, w', hc, hp⟩
      cases p with
      | nil => simp [followPath] at hp
      | cons b p =>
        cases b with
        | false => left; exact ⟨p, w', by simp [hc], by simpa [followPath] using hp⟩
        | true => right; exact ⟨p, w', by simp [hc], by simpa [followPath] using hp⟩

/-- Paths to leaves are at least as long as the path walked so far, and at most one step longer for each
leaf beside theirs. -/
theorem walkTree_length {t : Tree} {path : Bits} {e : Symbol × Bits} (h : e ∈ walkTree t path) :
    path.length ≤ e.2.length ∧ e.2.length + 1 ≤ path.length + (treeSymbols t).length := by
  induction t generalizing path with
  | leaf s w => simp [walkTree] at h; simp [h]
  | node l r w ihl ihr =>
    have pos : ∀ t : Tree, 1 ≤ (treeSymbols t).length := by
      intro t
      induction t with
      | leaf s w => simp
      | node l r w ihl ihr => simp; omega
    have := pos l
    have := pos r
    simp only [treeSymbols_node, List.length_append]
    rcases List.mem_append.1 h with h | h
    · have := ihl h; simp at this; omega
    · have := ihr h; simp at this; omega

theorem walkTree_path {t : Tree} {path : Bits} {e : Symbol × Bits} (h : e ∈ walkTree t path) : path <+: e.2 := by
  obtain ⟨x, c⟩ := e
  obtain ⟨p, _, rfl, _⟩ := (mem_walkTree t path x c).1 h
  exact List.prefix_append _ _

/-- Paths that part at a node are not prefixes of each other. -/
theorem notPrefixes_of_branch {path p q : Bits} (hp : path ++ [false] <+: p) (hq : path ++ [true] <+: q) :
    notPrefixes p q := by
  obtain ⟨p', rfl⟩ := hp
  obtain ⟨q', rfl⟩ := hq
  constructor <;> rintro ⟨r, hr⟩ <;> simp [List.append_assoc] at hr

/-- The paths to the leaves are prefix-free (42_code_table_deriver.md R103's reason). -/
theorem walkTree_prefix_free (t : Tree) (path : Bits) :
    (walkTree t path).Pairwise (fun a b => notPrefixes a.2 b.2) := by
  induction t generalizing path with
  | leaf s w => simp [walkTree]
  | node l r w ihl ihr =>
    exact List.pairwise_append.2 ⟨ihl _, ihr _, fun a ha b hb =>
      notPrefixes_of_branch (walkTree_path ha) (walkTree_path hb)⟩

/-! ## The codes of a tree -/

theorem treeCodes_symbols (t : Tree) : (treeCodes t).map Prod.fst = treeSymbols t := by
  cases t with
  | leaf s w => rfl
  | node l r w => exact walkTree_symbols _ _

theorem treeCodes_prefix_free (t : Tree) : (treeCodes t).Pairwise (fun a b => notPrefixes a.2 b.2) := by
  cases t with
  | leaf s w => simp [treeCodes]
  | node l r w => exact walkTree_prefix_free _ _

theorem treeCodes_length {t : Tree} (hn : (treeSymbols t).Nodup) {e : Symbol × Bits} (h : e ∈ treeCodes t) :
    1 ≤ e.2.length ∧ e.2.length ≤ 255 := by
  have hlen := symbols_length_le hn
  cases t with
  | leaf s w => simp [treeCodes] at h; simp [h]
  | node l r w =>
    refine ⟨?_, ?_⟩
    · rcases List.mem_append.1 h with h | h
      · simpa using (walkTree_length h).1
      · simpa using (walkTree_length h).1
    · have := (walkTree_length h).2; simp at this hlen; omega

/-! ## The table -/

theorem writeCell_length {α : Type} (c : Cells α) (i : Nat) (v : α) (h : ∀ e ∈ c, e.1 ≠ i) :
    (writeCell c i v).length = c.length + 1 := by
  induction c with
  | nil => rfl
  | cons e c ih =>
    obtain ⟨j, w⟩ := e
    unfold writeCell
    split
    · rfl
    · rw [if_neg (fun hij => h (j, w) (by simp) hij.symm)]
      simp [ih (fun e he => h e (List.mem_cons_of_mem _ he))]

/-- The table made of codes of distinct symbols, from a table that has none of them: it is in canonical
form, has an entry more for each, reads each code at its symbol, and the rest as before. -/
theorem foldl_writeCell_spec (l : List (Symbol × Bits)) (ct : Cells Bits) (hn : (l.map Prod.fst).Nodup)
    (hd : ∀ e ∈ ct, ∀ x ∈ l.map Prod.fst, e.1 ≠ x.toNat) (hwf : cellsWf nsymMax ct) :
    let out := l.foldl (fun ct sc => writeCell ct sc.1.toNat sc.2) ct
    cellsWf nsymMax out ∧ out.length = ct.length + l.length
      ∧ ∀ k c, readCell out k = some c ↔ readCell ct k = some c ∨ ∃ x, x.toNat = k ∧ (x, c) ∈ l := by
  induction l generalizing ct with
  | nil => exact ⟨hwf, rfl, by simp⟩
  | cons e l ih =>
    obtain ⟨x, code⟩ := e
    simp only [List.map_cons, List.nodup_cons] at hn
    have hx : ∀ e ∈ ct, e.1 ≠ x.toNat := fun e he => hd e he x (by simp)
    obtain ⟨h1, h2, h3⟩ := ih (writeCell ct x.toNat code) hn.2
      (by
        intro e he y hy
        rcases mem_writeCell he with rfl | he
        · intro hxy
          have : x = y := BitVec.eq_of_toNat_eq hxy
          exact hn.1 (this ▸ hy)
        · exact hd e he y (by simp [List.mem_map] at hy ⊢; exact Or.inr hy))
      (writeCell_wf hwf (by simpa [nsymMax] using x.isLt) code)
    refine ⟨h1, ?_, fun k c => ?_⟩
    · simp only [List.foldl_cons]
      rw [h2, writeCell_length _ _ _ hx, List.length_cons]; omega
    · simp only [List.foldl_cons]
      rw [h3, readCell_writeCell]
      by_cases hk : k = x.toNat
      · subst hk
        have hnone : readCell ct x.toNat = none := (readCell_eq_none _ _).2 hx
        simp only [if_true, hnone, Option.some.injEq, reduceCtorEq, false_or, List.mem_cons, Prod.mk.injEq]
        constructor
        · rintro (rfl | ⟨y, hy, hm⟩)
          · exact ⟨x, rfl, Or.inl ⟨rfl, rfl⟩⟩
          · exact ⟨y, hy, Or.inr hm⟩
        · rintro ⟨y, hy, ⟨rfl, rfl⟩ | hm⟩
          · exact Or.inl rfl
          · exact Or.inr ⟨y, hy, hm⟩
      · rw [if_neg hk]
        refine or_congr Iff.rfl ?_
        constructor
        · rintro ⟨y, hy, hm⟩; exact ⟨y, hy, List.mem_cons_of_mem _ hm⟩
        · rintro ⟨y, hy, hm⟩
          rcases List.mem_cons.1 hm with hm | hm
          · simp only [Prod.mk.injEq] at hm; exact absurd (hm.1 ▸ hy).symm hk
          · exact ⟨y, hy, hm⟩

/-- What the code table of a tree with distinct leaf symbols holds. -/
theorem codeTable_spec {t : Tree} (hn : (treeSymbols t).Nodup) :
    cellsWf nsymMax (codeTable t) ∧ (codeTable t).length = (treeSymbols t).length
      ∧ ∀ k c, readCell (codeTable t) k = some c ↔ ∃ x, x.toNat = k ∧ (x, c) ∈ treeCodes t := by
  obtain ⟨h1, h2, h3⟩ := foldl_writeCell_spec (treeCodes t) [] (by rwa [treeCodes_symbols]) (by simp)
    ⟨List.Pairwise.nil, by simp⟩
  refine ⟨h1, ?_, fun k c => by rw [codeTable, h3]; simp⟩
  rw [codeTable, h2, ← treeCodes_symbols, List.length_map]; simp

theorem pairwise_of_mem {α : Type} {R : α → α → Prop} {l : List (Nat × α)}
    (hp : l.Pairwise (fun a b => a.1 < b.1)) (h : ∀ a ∈ l, ∀ b ∈ l, a.1 ≠ b.1 → R a.2 b.2) :
    l.Pairwise (fun a b => R a.2 b.2) :=
  hp.imp_of_mem fun {_ _} ha hb hab => h _ ha _ hb (Nat.ne_of_lt hab)

/-- Two different symbols' codes are not prefixes of each other. -/
theorem treeCodes_notPrefixes {t : Tree} {x y : Symbol} {p q : Bits} (hx : (x, p) ∈ treeCodes t)
    (hy : (y, q) ∈ treeCodes t) (hxy : x ≠ y) : notPrefixes p q := by
  obtain ⟨i, hi, hie⟩ := List.mem_iff_getElem.1 hx
  obtain ⟨j, hj, hje⟩ := List.mem_iff_getElem.1 hy
  rcases Nat.lt_trichotomy i j with hij | hij | hij
  · have := List.pairwise_iff_getElem.1 (treeCodes_prefix_free t) i j hi hj hij
    rw [hie, hje] at this; exact this
  · subst hij; rw [hie] at hje; simp at hje; exact absurd hje.1 hxy
  · have := List.pairwise_iff_getElem.1 (treeCodes_prefix_free t) j i hj hi hij
    rw [hie, hje] at this; exact ⟨this.2, this.1⟩

/-- The code table of a tree with distinct leaf symbols is a proper code table. -/
theorem codeTable_ok {t : Tree} (hn : (treeSymbols t).Nodup) : CodeTableOk (codeTable t) := by
  obtain ⟨h1, h2, h3⟩ := codeTable_spec hn
  have hmem : ∀ e ∈ codeTable t, ∃ x : Symbol, x.toNat = e.1 ∧ (x, e.2) ∈ treeCodes t := by
    intro e he
    exact (h3 e.1 e.2).1 ((readCell_eq_some_iff h1.1 e.1 e.2).2 he)
  refine ⟨h1, fun h => ?_, fun e he => ?_, pairwise_of_mem h1.1 fun a ha b hb hab => ?_⟩
  · rw [h] at h2
    have : (treeSymbols t) = [] := List.eq_nil_of_length_eq_zero h2.symm
    cases t with
    | leaf s w => simp at this
    | node l r w =>
      have hs := treeCodes_symbols (.node l r w)
      rw [this] at hs
      have pos : ∀ t : Tree, treeSymbols t ≠ [] := by
        intro t
        induction t with
        | leaf s w => simp
        | node l r w ihl ihr => simp [ihl]
      exact pos _ this
  · obtain ⟨x, _, hx⟩ := hmem e he
    exact treeCodes_length hn hx
  · obtain ⟨x, hx1, hx2⟩ := hmem a ha
    obtain ⟨y, hy1, hy2⟩ := hmem b hb
    exact treeCodes_notPrefixes hx2 hy2 (by rintro rfl; omega)

end Sys2Proof.Machine
end

