-- ==== Sys2Proof/Laws/Bitstream.lean ====
section
/-! SUPPORT. What the loops of ENCODE, PACK, UNPACK and DECODE do. -/

namespace Sys2Proof.Machine

/-! ## ENCODE -/

/-- Where every symbol has a code and the codes fit, ENCODE concatenates them. -/
theorem encodeFrom_ok {ct : Cells Bits} {max : Nat} {text : List Symbol} {codes : List Bits}
    (h : List.Forall₂ (fun x code => readCell ct x.toNat = some code) text codes) (i : Nat) (bs : Bits)
    (hfit : (bs ++ codes.flatten).length ≤ max) :
    encodeFrom ct max i text bs = .ok (bs ++ codes.flatten) := by
  induction h generalizing i bs with
  | nil => simp [encodeFrom]
  | @cons x code text codes hx _ ih =>
    simp only [List.flatten_cons, List.length_append] at hfit
    rw [encodeFrom, hx]
    simp only
    rw [if_neg (by omega), ih (i + 1) (bs ++ code) (by simp only [List.length_append]; omega)]
    simp

/-- Going through a part of the text whose codes fit. -/
theorem encodeFrom_append {ct : Cells Bits} {max : Nat} {pre : List Symbol} {codes : List Bits}
    (h : List.Forall₂ (fun x code => readCell ct x.toNat = some code) pre codes) (i : Nat) (bs : Bits)
    (rest : List Symbol) (hfit : (bs ++ codes.flatten).length ≤ max) :
    encodeFrom ct max i (pre ++ rest) bs = encodeFrom ct max (i + pre.length) rest (bs ++ codes.flatten) := by
  induction h generalizing i bs with
  | nil => simp
  | @cons x code text codes hx _ ih =>
    simp only [List.flatten_cons, List.length_append] at hfit
    rw [List.cons_append, encodeFrom, hx]
    simp only
    rw [if_neg (by omega), ih (i + 1) (bs ++ code) (by simp only [List.length_append]; omega)]
    simp only [List.length_cons, List.flatten_cons, List.append_assoc]
    congr 1
    omega

/-- All that a successful ENCODE can have done. -/
theorem encodeFrom_inv {ct : Cells Bits} {max : Nat} {text : List Symbol} {i : Nat} {bs bits : Bits}
    (h : encodeFrom ct max i text bs = .ok bits) (hbs : bs.length ≤ max) :
    ∃ codes, List.Forall₂ (fun x code => readCell ct x.toNat = some code) text codes
      ∧ bits = bs ++ codes.flatten ∧ bits.length ≤ max := by
  induction text generalizing i bs with
  | nil => simp [encodeFrom] at h; subst h; exact ⟨[], .nil, by simp, hbs⟩
  | cons x text ih =>
    rw [encodeFrom] at h
    cases hx : readCell ct x.toNat with
    | none => simp [hx] at h
    | some code =>
      simp only [hx] at h
      split at h
      · simp at h
      · obtain ⟨codes, h1, h2, h3⟩ := ih h (by simp only [List.length_append]; omega)
        exact ⟨code :: codes, .cons hx h1, by simp [h2], h3⟩

/-- The only errors of the loop. -/
theorem encodeFrom_error {ct : Cells Bits} {max : Nat} {text : List Symbol} {i j : Nat} {bs : Bits}
    {e : ErrorCause} (h : encodeFrom ct max i text bs = .error (e, j)) : e = .noCode ∨ e = .capacity := by
  induction text generalizing i bs with
  | nil => simp [encodeFrom] at h
  | cons x text ih =>
    rw [encodeFrom] at h
    cases hx : readCell ct x.toNat with
    | none => simp [hx] at h; exact Or.inl h.1.symm
    | some code =>
      simp only [hx] at h
      split at h
      · simp at h; exact Or.inr h.1.symm
      · exact ih h

/-! ## PACK -/

theorem padCount_lt (l : Nat) : padCount l < 8 := by simp only [padCount]; omega

theorem padCount_dvd (l : Nat) : (l + padCount l) % 8 = 0 := by simp only [padCount]; omega

@[simp] theorem payloadBytes_length (bits : Bits) :
    (payloadBytes bits).length = (bits.length + padCount bits.length) / 8 := by
  simp [payloadBytes]

/-- Eight bits per payload byte, padding included. -/
theorem payloadBytes_length_mul (bits : Bits) :
    8 * (payloadBytes bits).length = bits.length + padCount bits.length := by
  rw [payloadBytes_length]
  have := padCount_dvd bits.length
  omega

theorem byteOfBits_getLsbD (f : Nat → Bit) {i : Nat} (hi : i < 8) : (byteOfBits f).getLsbD (7 - i) = f i := by
  unfold byteOfBits
  rw [BitVec.getLsbD_append, BitVec.getLsbD_append, BitVec.getLsbD_append, BitVec.getLsbD_append,
    BitVec.getLsbD_append, BitVec.getLsbD_append, BitVec.getLsbD_append]
  interval_cases i <;> simp

/-- The bit a payload byte holds at each position. -/
theorem payloadBytes_bit (bits : Bits) {j i : Nat} (hj : j < (payloadBytes bits).length) (hi : i < 8) :
    ((payloadBytes bits)[j]).getLsbD (7 - i) = (bits[8 * j + i]?).getD false := by
  simp only [payloadBytes, List.getElem_map, List.getElem_range, payloadByte]
  exact byteOfBits_getLsbD _ hi

/-! ## UNPACK -/

@[simp] theorem payloadBits_length (bytes : List Byte) (l : Nat) : (payloadBits bytes l).length = l := by
  simp [payloadBits]

theorem payloadBits_getElem? (bytes : List Byte) (l k : Nat) :
    (payloadBits bytes l)[k]?
      = if k < l then some (((bytes[k / 8]?).getD 0).getLsbD (7 - k % 8)) else none := by
  unfold payloadBits
  split
  · rw [List.getElem?_map, List.getElem?_range ‹_›]; rfl
  · rw [List.getElem?_eq_none]; simpa using Nat.le_of_not_lt ‹_›

/-- Expanding the payload of a bitstring gives the bitstring back. -/
theorem payloadBits_payloadBytes (bits : Bits) : payloadBits (payloadBytes bits) bits.length = bits := by
  apply List.ext_getElem?
  intro k
  rw [payloadBits_getElem?]
  split
  · rename_i hk
    have hj : k / 8 < (payloadBytes bits).length := by
      rw [payloadBytes_length]
      have := padCount_dvd bits.length
      omega
    rw [List.getElem?_eq_getElem hj, Option.getD_some, payloadBytes_bit bits hj (Nat.mod_lt _ (by omega)),
      Nat.div_add_mod, List.getElem?_eq_getElem hk]
    rfl
  · rw [List.getElem?_eq_none (Nat.le_of_not_lt ‹_›)]

/-! ## DECODE -/

theorem lookupCode_mem {ct : Cells Bits} {cand : Bits} {x : Symbol} (h : lookupCode ct cand = some x) :
    ∃ k, (k, cand) ∈ ct ∧ x = BitVec.ofNat 8 k := by
  induction ct with
  | nil => simp [lookupCode] at h
  | cons e ct ih =>
    obtain ⟨k, code⟩ := e
    rw [lookupCode] at h
    split at h
    · rename_i hc; subst hc; simp at h; exact ⟨k, by simp, h.symm⟩
    · obtain ⟨k', h1, h2⟩ := ih h; exact ⟨k', List.mem_cons_of_mem _ h1, h2⟩

theorem lookupCode_eq_none {ct : Cells Bits} {cand : Bits} :
    lookupCode ct cand = none ↔ ∀ e ∈ ct, e.2 ≠ cand := by
  induction ct with
  | nil => simp [lookupCode]
  | cons e ct ih =>
    obtain ⟨k, code⟩ := e
    rw [lookupCode]
    split <;> simp_all

/-- Entries of a prefix-free table with codes one of which is a prefix of the other are the same entry. -/
theorem CodeTableOk.eq_of_prefix {ct : Cells Bits} (h : CodeTableOk ct) {a b : Nat × Bits} (ha : a ∈ ct)
    (hb : b ∈ ct) (hab : a.2 <+: b.2) : a = b := by
  obtain ⟨i, hi, rfl⟩ := List.mem_iff_getElem.1 ha
  obtain ⟨j, hj, rfl⟩ := List.mem_iff_getElem.1 hb
  rcases Nat.lt_trichotomy i j with hij | hij | hij
  · exact absurd hab (List.pairwise_iff_getElem.1 h.prefix_free i j hi hj hij).1
  · subst hij; rfl
  · exact absurd hab (List.pairwise_iff_getElem.1 h.prefix_free j i hj hi hij).2

/-- The decode table is the inverse of the code table (10_state.md R19). -/
theorem lookupCode_of_readCell {ct : Cells Bits} (h : CodeTableOk ct) {x : Symbol} {code : Bits}
    (hx : readCell ct x.toNat = some code) : lookupCode ct code = some x := by
  have hm := readCell_mem hx
  cases hl : lookupCode ct code with
  | none => exact absurd rfl (lookupCode_eq_none.1 hl _ hm)
  | some y =>
    obtain ⟨k, hk, rfl⟩ := lookupCode_mem hl
    have := h.eq_of_prefix hk hm (List.prefix_refl _)
    simp only [Prod.mk.injEq, and_true] at this
    rw [this, BitVec.ofNat_toNat, BitVec.setWidth_eq]

/-- The candidate grows to the code it is the beginning of, and then the symbol is emitted. -/
theorem decodeFrom_code {ct : Cells Bits} (h : CodeTableOk ct) {x : Symbol} {code : Bits}
    (hx : readCell ct x.toNat = some code) (bits : Bits) (out : List Symbol) (p : Bits) (hp : p ≠ []) :
    ∀ (k start : Nat) (cand : Bits), cand ++ p = code →
      ∃ start', decodeFrom ct k (p ++ bits) cand start out
        = decodeFrom ct (k + p.length) bits [] start' (out ++ [x]) := by
  induction p with
  | nil => exact absurd rfl hp
  | cons b p ih =>
    intro k start cand hc
    rw [List.cons_append, decodeFrom]
    by_cases hp' : p = []
    · subst hp'
      rw [hc, lookupCode_of_readCell h hx]
      exact ⟨_, rfl⟩
    · have hnone : lookupCode ct (cand ++ [b]) = none := by
        rw [lookupCode_eq_none]
        intro e he heq
        have hpre : e.2 <+: code := by rw [heq, ← hc]; exact ⟨p, by simp⟩
        have := h.eq_of_prefix he (readCell_mem hx) hpre
        rw [this] at heq
        simp only at heq
        rw [heq] at hc
        simp [hp'] at hc
      rw [hnone]
      simp only
      obtain ⟨start', hs⟩ := ih hp' (k + 1) (if cand = [] then k else start) (cand ++ [b]) (by simp [hc])
      exact ⟨start', by rw [hs]; simp only [List.length_cons]; congr 1; omega⟩

/-- A residual no part of which is a code ends in the error, with the index of its first bit. -/
theorem decodeFrom_residual {ct : Cells Bits} (out : List Symbol) (bits : Bits) :
    ∀ (k start : Nat) (cand : Bits), (∀ e ∈ ct, ¬ e.2 <+: cand ++ bits) →
      decodeFrom ct k bits cand start out
        = if cand ++ bits = [] then .ok out else .error (if cand = [] then k else start) := by
  induction bits with
  | nil =>
    intro k start cand h
    rw [decodeFrom]
    by_cases hc : cand = []
    · simp [hc]
    · have : lookupCode ct cand = none := by
        rw [lookupCode_eq_none]; intro e he heq; exact h e he (by simp [heq])
      simp [hc, this]
  | cons b bits ih =>
    intro k start cand h
    rw [decodeFrom]
    have : lookupCode ct (cand ++ [b]) = none := by
      rw [lookupCode_eq_none]; intro e he heq
      exact h e he (by rw [heq]; exact ⟨bits, by simp⟩)
    rw [this]
    simp only
    rw [ih (k + 1) _ (cand ++ [b]) (by simpa using h)]
    simp

/-- DECODE of the codes of a text followed by a residual: the text when there is no residual, the error at
the residual's first bit otherwise. -/
theorem decodeFrom_cuts {ct : Cells Bits} (h : CodeTableOk ct) {bits residual : Bits} {text : List Symbol}
    (hc : CutsInto ct bits text residual) (k start : Nat) (out : List Symbol) :
    decodeFrom ct k bits [] start out
      = if residual = [] then .ok (out ++ text) else .error (k + (bits.length - residual.length)) := by
  obtain ⟨codes, rfl, hf, hr⟩ := hc
  induction hf generalizing k start out with
  | nil =>
    rw [List.flatten_nil, List.nil_append, decodeFrom_residual out residual k start [] (by simpa using hr)]
    simp
  | @cons x code text codes hx _ ih =>
    have hne : code ≠ [] := by
      have := (h.code_length _ (readCell_mem hx)).1
      rintro rfl; simp at this
    rw [List.flatten_cons, List.append_assoc]
    obtain ⟨start', hs⟩ := decodeFrom_code h hx (codes.flatten ++ residual) out code hne k start [] rfl
    rw [hs, ih]
    simp only [List.append_assoc, List.singleton_append, List.length_append, Nat.add_sub_cancel_right]
    split
    · rfl
    · congr 1; omega

/-- DECODE emits no more symbols than there are bits (00_scope.md R5 (e)). -/
theorem decodeFrom_length {ct : Cells Bits} {bits : Bits} : ∀ {k : Nat} {cand : Bits} {start : Nat}
    {out text : List Symbol}, decodeFrom ct k bits cand start out = .ok text →
      text.length ≤ out.length + bits.length + (if cand = [] then 0 else 1) := by
  induction bits with
  | nil =>
    intro k cand start out text h
    rw [decodeFrom] at h
    split at h
    · simp at h; simp [h]
    · split at h
      · simp at h; subst h; simp [*]
      · simp at h
  | cons b bits ih =>
    intro k cand start out text h
    rw [decodeFrom] at h
    split at h
    · have := ih h; simp at this; simp; omega
    · have := ih h; simp at this; simp only [List.length_cons]; omega

end Sys2Proof.Machine
end

