-- ==== Sys2Proof/Laws/State.lean ====
section
/-! SUPPORT. One lemma per field per named update of the state, true by unfolding, so that no later proof
unfolds one. -/

namespace Sys2Proof.Machine

/-! ## takeTxn -/

@[simp] theorem takeTxn_params (rest : List Txn) (s : State) : (takeTxn rest s).params = s.params := rfl
@[simp] theorem takeTxn_err (rest : List Txn) (s : State) : (takeTxn rest s).err = s.err := rfl
@[simp] theorem takeTxn_busy (rest : List Txn) (s : State) : (takeTxn rest s).busy = s.busy := rfl
@[simp] theorem takeTxn_txtLen (rest : List Txn) (s : State) : (takeTxn rest s).txtLen = s.txtLen := rfl
@[simp] theorem takeTxn_ftLen (rest : List Txn) (s : State) : (takeTxn rest s).ftLen = s.ftLen := rfl
@[simp] theorem takeTxn_rlLen (rest : List Txn) (s : State) : (takeTxn rest s).rlLen = s.rlLen := rfl
@[simp] theorem takeTxn_bsLen (rest : List Txn) (s : State) : (takeTxn rest s).bsLen = s.bsLen := rfl
@[simp] theorem takeTxn_byLen (rest : List Txn) (s : State) : (takeTxn rest s).byLen = s.byLen := rfl
@[simp] theorem takeTxn_padOut (rest : List Txn) (s : State) : (takeTxn rest s).padOut = s.padOut := rfl
@[simp] theorem takeTxn_padIn (rest : List Txn) (s : State) : (takeTxn rest s).padIn = s.padIn := rfl
@[simp] theorem takeTxn_ctCount (rest : List Txn) (s : State) : (takeTxn rest s).ctCount = s.ctCount := rfl
@[simp] theorem takeTxn_errInfo (rest : List Txn) (s : State) : (takeTxn rest s).errInfo = s.errInfo := rfl
@[simp] theorem takeTxn_txt (rest : List Txn) (s : State) : (takeTxn rest s).txt = s.txt := rfl
@[simp] theorem takeTxn_ft (rest : List Txn) (s : State) : (takeTxn rest s).ft = s.ft := rfl
@[simp] theorem takeTxn_rl (rest : List Txn) (s : State) : (takeTxn rest s).rl = s.rl := rfl
@[simp] theorem takeTxn_bs (rest : List Txn) (s : State) : (takeTxn rest s).bs = s.bs := rfl
@[simp] theorem takeTxn_byBuf (rest : List Txn) (s : State) : (takeTxn rest s).byBuf = s.byBuf := rfl
@[simp] theorem takeTxn_ct (rest : List Txn) (s : State) : (takeTxn rest s).ct = s.ct := rfl
@[simp] theorem takeTxn_tree (rest : List Txn) (s : State) : (takeTxn rest s).tree = s.tree := rfl
@[simp] theorem takeTxn_pending (rest : List Txn) (s : State) : (takeTxn rest s).pending = rest := rfl
@[simp] theorem takeTxn_response (rest : List Txn) (s : State) : (takeTxn rest s).response = s.response := rfl
@[simp] theorem takeTxn_draws (rest : List Txn) (s : State) : (takeTxn rest s).draws = s.draws := rfl

/-! ## beginCommand -/

@[simp] theorem beginCommand_params (rest : List Txn) (s : State) : (beginCommand rest s).params = s.params := rfl
@[simp] theorem beginCommand_err (rest : List Txn) (s : State) : (beginCommand rest s).err = s.err := rfl
@[simp] theorem beginCommand_busy (rest : List Txn) (s : State) : (beginCommand rest s).busy = true := rfl
@[simp] theorem beginCommand_txtLen (rest : List Txn) (s : State) : (beginCommand rest s).txtLen = s.txtLen := rfl
@[simp] theorem beginCommand_ftLen (rest : List Txn) (s : State) : (beginCommand rest s).ftLen = s.ftLen := rfl
@[simp] theorem beginCommand_rlLen (rest : List Txn) (s : State) : (beginCommand rest s).rlLen = s.rlLen := rfl
@[simp] theorem beginCommand_bsLen (rest : List Txn) (s : State) : (beginCommand rest s).bsLen = s.bsLen := rfl
@[simp] theorem beginCommand_byLen (rest : List Txn) (s : State) : (beginCommand rest s).byLen = s.byLen := rfl
@[simp] theorem beginCommand_padOut (rest : List Txn) (s : State) : (beginCommand rest s).padOut = s.padOut := rfl
@[simp] theorem beginCommand_padIn (rest : List Txn) (s : State) : (beginCommand rest s).padIn = s.padIn := rfl
@[simp] theorem beginCommand_ctCount (rest : List Txn) (s : State) : (beginCommand rest s).ctCount = s.ctCount := rfl
@[simp] theorem beginCommand_errInfo (rest : List Txn) (s : State) : (beginCommand rest s).errInfo = s.errInfo := rfl
@[simp] theorem beginCommand_txt (rest : List Txn) (s : State) : (beginCommand rest s).txt = s.txt := rfl
@[simp] theorem beginCommand_ft (rest : List Txn) (s : State) : (beginCommand rest s).ft = s.ft := rfl
@[simp] theorem beginCommand_rl (rest : List Txn) (s : State) : (beginCommand rest s).rl = s.rl := rfl
@[simp] theorem beginCommand_bs (rest : List Txn) (s : State) : (beginCommand rest s).bs = s.bs := rfl
@[simp] theorem beginCommand_byBuf (rest : List Txn) (s : State) : (beginCommand rest s).byBuf = s.byBuf := rfl
@[simp] theorem beginCommand_ct (rest : List Txn) (s : State) : (beginCommand rest s).ct = s.ct := rfl
@[simp] theorem beginCommand_tree (rest : List Txn) (s : State) : (beginCommand rest s).tree = s.tree := rfl
@[simp] theorem beginCommand_pending (rest : List Txn) (s : State) : (beginCommand rest s).pending = rest := rfl
@[simp] theorem beginCommand_response (rest : List Txn) (s : State) : (beginCommand rest s).response = s.response := rfl
@[simp] theorem beginCommand_draws (rest : List Txn) (s : State) : (beginCommand rest s).draws = s.draws := rfl

/-! ## endCommand -/

@[simp] theorem endCommand_params (s : State) : (endCommand s).params = s.params := rfl
@[simp] theorem endCommand_err (s : State) : (endCommand s).err = s.err := rfl
@[simp] theorem endCommand_busy (s : State) : (endCommand s).busy = false := rfl
@[simp] theorem endCommand_txtLen (s : State) : (endCommand s).txtLen = s.txtLen := rfl
@[simp] theorem endCommand_ftLen (s : State) : (endCommand s).ftLen = s.ftLen := rfl
@[simp] theorem endCommand_rlLen (s : State) : (endCommand s).rlLen = s.rlLen := rfl
@[simp] theorem endCommand_bsLen (s : State) : (endCommand s).bsLen = s.bsLen := rfl
@[simp] theorem endCommand_byLen (s : State) : (endCommand s).byLen = s.byLen := rfl
@[simp] theorem endCommand_padOut (s : State) : (endCommand s).padOut = s.padOut := rfl
@[simp] theorem endCommand_padIn (s : State) : (endCommand s).padIn = s.padIn := rfl
@[simp] theorem endCommand_ctCount (s : State) : (endCommand s).ctCount = s.ctCount := rfl
@[simp] theorem endCommand_errInfo (s : State) : (endCommand s).errInfo = s.errInfo := rfl
@[simp] theorem endCommand_txt (s : State) : (endCommand s).txt = s.txt := rfl
@[simp] theorem endCommand_ft (s : State) : (endCommand s).ft = s.ft := rfl
@[simp] theorem endCommand_rl (s : State) : (endCommand s).rl = s.rl := rfl
@[simp] theorem endCommand_bs (s : State) : (endCommand s).bs = s.bs := rfl
@[simp] theorem endCommand_byBuf (s : State) : (endCommand s).byBuf = s.byBuf := rfl
@[simp] theorem endCommand_ct (s : State) : (endCommand s).ct = s.ct := rfl
@[simp] theorem endCommand_tree (s : State) : (endCommand s).tree = s.tree := rfl
@[simp] theorem endCommand_pending (s : State) : (endCommand s).pending = s.pending := rfl
@[simp] theorem endCommand_response (s : State) : (endCommand s).response = .done := rfl
@[simp] theorem endCommand_draws (s : State) : (endCommand s).draws = s.draws := rfl

/-! ## emptied -/

@[simp] theorem emptied_params (s : State) : (emptied s).params = s.params := rfl
@[simp] theorem emptied_err (s : State) : (emptied s).err = none := rfl
@[simp] theorem emptied_busy (s : State) : (emptied s).busy = false := rfl
@[simp] theorem emptied_txtLen (s : State) : (emptied s).txtLen = 0 := rfl
@[simp] theorem emptied_ftLen (s : State) : (emptied s).ftLen = 0 := rfl
@[simp] theorem emptied_rlLen (s : State) : (emptied s).rlLen = 0 := rfl
@[simp] theorem emptied_bsLen (s : State) : (emptied s).bsLen = 0 := rfl
@[simp] theorem emptied_byLen (s : State) : (emptied s).byLen = 0 := rfl
@[simp] theorem emptied_padOut (s : State) : (emptied s).padOut = 0 := rfl
@[simp] theorem emptied_padIn (s : State) : (emptied s).padIn = 0 := rfl
@[simp] theorem emptied_ctCount (s : State) : (emptied s).ctCount = 0 := rfl
@[simp] theorem emptied_errInfo (s : State) : (emptied s).errInfo = 0 := rfl
@[simp] theorem emptied_txt (s : State) : (emptied s).txt = [] := rfl
@[simp] theorem emptied_ft (s : State) : (emptied s).ft = [] := rfl
@[simp] theorem emptied_rl (s : State) : (emptied s).rl = [] := rfl
@[simp] theorem emptied_bs (s : State) : (emptied s).bs = [] := rfl
@[simp] theorem emptied_byBuf (s : State) : (emptied s).byBuf = [] := rfl
@[simp] theorem emptied_ct (s : State) : (emptied s).ct = none := rfl
@[simp] theorem emptied_tree (s : State) : (emptied s).tree = none := rfl
@[simp] theorem emptied_pending (s : State) : (emptied s).pending = s.pending := rfl
@[simp] theorem emptied_response (s : State) : (emptied s).response = s.response := rfl
@[simp] theorem emptied_draws (s : State) : (emptied s).draws = s.draws := rfl

/-! ## answers of the port -/

@[simp] theorem accessError_params (s : State) : (accessError s).params = s.params := rfl
@[simp] theorem accessError_err (s : State) : (accessError s).err = s.err := rfl
@[simp] theorem accessError_busy (s : State) : (accessError s).busy = s.busy := rfl
@[simp] theorem accessError_txtLen (s : State) : (accessError s).txtLen = s.txtLen := rfl
@[simp] theorem accessError_ftLen (s : State) : (accessError s).ftLen = s.ftLen := rfl
@[simp] theorem accessError_rlLen (s : State) : (accessError s).rlLen = s.rlLen := rfl
@[simp] theorem accessError_bsLen (s : State) : (accessError s).bsLen = s.bsLen := rfl
@[simp] theorem accessError_byLen (s : State) : (accessError s).byLen = s.byLen := rfl
@[simp] theorem accessError_padOut (s : State) : (accessError s).padOut = s.padOut := rfl
@[simp] theorem accessError_padIn (s : State) : (accessError s).padIn = s.padIn := rfl
@[simp] theorem accessError_ctCount (s : State) : (accessError s).ctCount = s.ctCount := rfl
@[simp] theorem accessError_errInfo (s : State) : (accessError s).errInfo = s.errInfo := rfl
@[simp] theorem accessError_txt (s : State) : (accessError s).txt = s.txt := rfl
@[simp] theorem accessError_ft (s : State) : (accessError s).ft = s.ft := rfl
@[simp] theorem accessError_rl (s : State) : (accessError s).rl = s.rl := rfl
@[simp] theorem accessError_bs (s : State) : (accessError s).bs = s.bs := rfl
@[simp] theorem accessError_byBuf (s : State) : (accessError s).byBuf = s.byBuf := rfl
@[simp] theorem accessError_ct (s : State) : (accessError s).ct = s.ct := rfl
@[simp] theorem accessError_tree (s : State) : (accessError s).tree = s.tree := rfl
@[simp] theorem accessError_pending (s : State) : (accessError s).pending = s.pending := rfl
@[simp] theorem accessError_response (s : State) : (accessError s).response = .accessError := rfl
@[simp] theorem accessError_draws (s : State) : (accessError s).draws = s.draws := rfl

@[simp] theorem answer_params (v : PortData) (s : State) : (answer v s).params = s.params := rfl
@[simp] theorem answer_err (v : PortData) (s : State) : (answer v s).err = s.err := rfl
@[simp] theorem answer_busy (v : PortData) (s : State) : (answer v s).busy = s.busy := rfl
@[simp] theorem answer_txtLen (v : PortData) (s : State) : (answer v s).txtLen = s.txtLen := rfl
@[simp] theorem answer_ftLen (v : PortData) (s : State) : (answer v s).ftLen = s.ftLen := rfl
@[simp] theorem answer_rlLen (v : PortData) (s : State) : (answer v s).rlLen = s.rlLen := rfl
@[simp] theorem answer_bsLen (v : PortData) (s : State) : (answer v s).bsLen = s.bsLen := rfl
@[simp] theorem answer_byLen (v : PortData) (s : State) : (answer v s).byLen = s.byLen := rfl
@[simp] theorem answer_padOut (v : PortData) (s : State) : (answer v s).padOut = s.padOut := rfl
@[simp] theorem answer_padIn (v : PortData) (s : State) : (answer v s).padIn = s.padIn := rfl
@[simp] theorem answer_ctCount (v : PortData) (s : State) : (answer v s).ctCount = s.ctCount := rfl
@[simp] theorem answer_errInfo (v : PortData) (s : State) : (answer v s).errInfo = s.errInfo := rfl
@[simp] theorem answer_txt (v : PortData) (s : State) : (answer v s).txt = s.txt := rfl
@[simp] theorem answer_ft (v : PortData) (s : State) : (answer v s).ft = s.ft := rfl
@[simp] theorem answer_rl (v : PortData) (s : State) : (answer v s).rl = s.rl := rfl
@[simp] theorem answer_bs (v : PortData) (s : State) : (answer v s).bs = s.bs := rfl
@[simp] theorem answer_byBuf (v : PortData) (s : State) : (answer v s).byBuf = s.byBuf := rfl
@[simp] theorem answer_ct (v : PortData) (s : State) : (answer v s).ct = s.ct := rfl
@[simp] theorem answer_tree (v : PortData) (s : State) : (answer v s).tree = s.tree := rfl
@[simp] theorem answer_pending (v : PortData) (s : State) : (answer v s).pending = s.pending := rfl
@[simp] theorem answer_response (v : PortData) (s : State) : (answer v s).response = .data v := rfl
@[simp] theorem answer_draws (v : PortData) (s : State) : (answer v s).draws = s.draws := rfl

@[simp] theorem written_params (s : State) : (written s).params = s.params := rfl
@[simp] theorem written_err (s : State) : (written s).err = s.err := rfl
@[simp] theorem written_busy (s : State) : (written s).busy = s.busy := rfl
@[simp] theorem written_txtLen (s : State) : (written s).txtLen = s.txtLen := rfl
@[simp] theorem written_ftLen (s : State) : (written s).ftLen = s.ftLen := rfl
@[simp] theorem written_rlLen (s : State) : (written s).rlLen = s.rlLen := rfl
@[simp] theorem written_bsLen (s : State) : (written s).bsLen = s.bsLen := rfl
@[simp] theorem written_byLen (s : State) : (written s).byLen = s.byLen := rfl
@[simp] theorem written_padOut (s : State) : (written s).padOut = s.padOut := rfl
@[simp] theorem written_padIn (s : State) : (written s).padIn = s.padIn := rfl
@[simp] theorem written_ctCount (s : State) : (written s).ctCount = s.ctCount := rfl
@[simp] theorem written_errInfo (s : State) : (written s).errInfo = s.errInfo := rfl
@[simp] theorem written_txt (s : State) : (written s).txt = s.txt := rfl
@[simp] theorem written_ft (s : State) : (written s).ft = s.ft := rfl
@[simp] theorem written_rl (s : State) : (written s).rl = s.rl := rfl
@[simp] theorem written_bs (s : State) : (written s).bs = s.bs := rfl
@[simp] theorem written_byBuf (s : State) : (written s).byBuf = s.byBuf := rfl
@[simp] theorem written_ct (s : State) : (written s).ct = s.ct := rfl
@[simp] theorem written_tree (s : State) : (written s).tree = s.tree := rfl
@[simp] theorem written_pending (s : State) : (written s).pending = s.pending := rfl
@[simp] theorem written_response (s : State) : (written s).response = .done := rfl
@[simp] theorem written_draws (s : State) : (written s).draws = s.draws := rfl

/-! ## raise: what it writes whatever the destination, and what it leaves alone -/

@[simp] theorem raise_params (d : Dest) (e : ErrorCause) (info : Reg32) (s : State) :
    (raise d e info s).params = s.params := by cases d <;> rfl
@[simp] theorem raise_err (d : Dest) (e : ErrorCause) (info : Reg32) (s : State) :
    (raise d e info s).err = some e := by cases d <;> rfl
@[simp] theorem raise_busy (d : Dest) (e : ErrorCause) (info : Reg32) (s : State) :
    (raise d e info s).busy = s.busy := by cases d <;> rfl
@[simp] theorem raise_rlLen (d : Dest) (e : ErrorCause) (info : Reg32) (s : State) :
    (raise d e info s).rlLen = s.rlLen := by cases d <;> rfl
@[simp] theorem raise_byLen (d : Dest) (e : ErrorCause) (info : Reg32) (s : State) :
    (raise d e info s).byLen = s.byLen := by cases d <;> rfl
@[simp] theorem raise_padOut (d : Dest) (e : ErrorCause) (info : Reg32) (s : State) :
    (raise d e info s).padOut = s.padOut := by cases d <;> rfl
@[simp] theorem raise_padIn (d : Dest) (e : ErrorCause) (info : Reg32) (s : State) :
    (raise d e info s).padIn = s.padIn := by cases d <;> rfl
@[simp] theorem raise_errInfo (d : Dest) (e : ErrorCause) (info : Reg32) (s : State) :
    (raise d e info s).errInfo = info := by cases d <;> rfl
@[simp] theorem raise_rl (d : Dest) (e : ErrorCause) (info : Reg32) (s : State) :
    (raise d e info s).rl = s.rl := by cases d <;> rfl
@[simp] theorem raise_byBuf (d : Dest) (e : ErrorCause) (info : Reg32) (s : State) :
    (raise d e info s).byBuf = s.byBuf := by cases d <;> rfl
@[simp] theorem raise_pending (d : Dest) (e : ErrorCause) (info : Reg32) (s : State) :
    (raise d e info s).pending = s.pending := by cases d <;> rfl
@[simp] theorem raise_response (d : Dest) (e : ErrorCause) (info : Reg32) (s : State) :
    (raise d e info s).response = s.response := by cases d <;> rfl
@[simp] theorem raise_draws (d : Dest) (e : ErrorCause) (info : Reg32) (s : State) :
    (raise d e info s).draws = s.draws := by cases d <;> rfl

/-! ## raise, destination by destination -/

@[simp] theorem raise_ft_txtLen (e : ErrorCause) (info : Reg32) (s : State) :
    (raise .ft e info s).txtLen = s.txtLen := rfl
@[simp] theorem raise_ft_ftLen (e : ErrorCause) (info : Reg32) (s : State) :
    (raise .ft e info s).ftLen = 0 := rfl
@[simp] theorem raise_ft_bsLen (e : ErrorCause) (info : Reg32) (s : State) :
    (raise .ft e info s).bsLen = s.bsLen := rfl
@[simp] theorem raise_ft_ctCount (e : ErrorCause) (info : Reg32) (s : State) :
    (raise .ft e info s).ctCount = s.ctCount := rfl
@[simp] theorem raise_ft_txt (e : ErrorCause) (info : Reg32) (s : State) :
    (raise .ft e info s).txt = s.txt := rfl
@[simp] theorem raise_ft_ft (e : ErrorCause) (info : Reg32) (s : State) :
    (raise .ft e info s).ft = [] := rfl
@[simp] theorem raise_ft_bs (e : ErrorCause) (info : Reg32) (s : State) :
    (raise .ft e info s).bs = s.bs := rfl
@[simp] theorem raise_ft_ct (e : ErrorCause) (info : Reg32) (s : State) :
    (raise .ft e info s).ct = s.ct := rfl
@[simp] theorem raise_ft_tree (e : ErrorCause) (info : Reg32) (s : State) :
    (raise .ft e info s).tree = s.tree := rfl
@[simp] theorem raise_tree_txtLen (e : ErrorCause) (info : Reg32) (s : State) :
    (raise .tree e info s).txtLen = s.txtLen := rfl
@[simp] theorem raise_tree_ftLen (e : ErrorCause) (info : Reg32) (s : State) :
    (raise .tree e info s).ftLen = s.ftLen := rfl
@[simp] theorem raise_tree_bsLen (e : ErrorCause) (info : Reg32) (s : State) :
    (raise .tree e info s).bsLen = s.bsLen := rfl
@[simp] theorem raise_tree_ctCount (e : ErrorCause) (info : Reg32) (s : State) :
    (raise .tree e info s).ctCount = s.ctCount := rfl
@[simp] theorem raise_tree_txt (e : ErrorCause) (info : Reg32) (s : State) :
    (raise .tree e info s).txt = s.txt := rfl
@[simp] theorem raise_tree_ft (e : ErrorCause) (info : Reg32) (s : State) :
    (raise .tree e info s).ft = s.ft := rfl
@[simp] theorem raise_tree_bs (e : ErrorCause) (info : Reg32) (s : State) :
    (raise .tree e info s).bs = s.bs := rfl
@[simp] theorem raise_tree_ct (e : ErrorCause) (info : Reg32) (s : State) :
    (raise .tree e info s).ct = s.ct := rfl
@[simp] theorem raise_tree_tree (e : ErrorCause) (info : Reg32) (s : State) :
    (raise .tree e info s).tree = none := rfl
@[simp] theorem raise_ct_txtLen (e : ErrorCause) (info : Reg32) (s : State) :
    (raise .ct e info s).txtLen = s.txtLen := rfl
@[simp] theorem raise_ct_ftLen (e : ErrorCause) (info : Reg32) (s : State) :
    (raise .ct e info s).ftLen = s.ftLen := rfl
@[simp] theorem raise_ct_bsLen (e : ErrorCause) (info : Reg32) (s : State) :
    (raise .ct e info s).bsLen = s.bsLen := rfl
@[simp] theorem raise_ct_ctCount (e : ErrorCause) (info : Reg32) (s : State) :
    (raise .ct e info s).ctCount = 0 := rfl
@[simp] theorem raise_ct_txt (e : ErrorCause) (info : Reg32) (s : State) :
    (raise .ct e info s).txt = s.txt := rfl
@[simp] theorem raise_ct_ft (e : ErrorCause) (info : Reg32) (s : State) :
    (raise .ct e info s).ft = s.ft := rfl
@[simp] theorem raise_ct_bs (e : ErrorCause) (info : Reg32) (s : State) :
    (raise .ct e info s).bs = s.bs := rfl
@[simp] theorem raise_ct_ct (e : ErrorCause) (info : Reg32) (s : State) :
    (raise .ct e info s).ct = none := rfl
@[simp] theorem raise_ct_tree (e : ErrorCause) (info : Reg32) (s : State) :
    (raise .ct e info s).tree = s.tree := rfl
@[simp] theorem raise_bs_txtLen (e : ErrorCause) (info : Reg32) (s : State) :
    (raise .bs e info s).txtLen = s.txtLen := rfl
@[simp] theorem raise_bs_ftLen (e : ErrorCause) (info : Reg32) (s : State) :
    (raise .bs e info s).ftLen = s.ftLen := rfl
@[simp] theorem raise_bs_bsLen (e : ErrorCause) (info : Reg32) (s : State) :
    (raise .bs e info s).bsLen = 0 := rfl
@[simp] theorem raise_bs_ctCount (e : ErrorCause) (info : Reg32) (s : State) :
    (raise .bs e info s).ctCount = s.ctCount := rfl
@[simp] theorem raise_bs_txt (e : ErrorCause) (info : Reg32) (s : State) :
    (raise .bs e info s).txt = s.txt := rfl
@[simp] theorem raise_bs_ft (e : ErrorCause) (info : Reg32) (s : State) :
    (raise .bs e info s).ft = s.ft := rfl
@[simp] theorem raise_bs_bs (e : ErrorCause) (info : Reg32) (s : State) :
    (raise .bs e info s).bs = [] := rfl
@[simp] theorem raise_bs_ct (e : ErrorCause) (info : Reg32) (s : State) :
    (raise .bs e info s).ct = s.ct := rfl
@[simp] theorem raise_bs_tree (e : ErrorCause) (info : Reg32) (s : State) :
    (raise .bs e info s).tree = s.tree := rfl
@[simp] theorem raise_txt_txtLen (e : ErrorCause) (info : Reg32) (s : State) :
    (raise .txt e info s).txtLen = 0 := rfl
@[simp] theorem raise_txt_ftLen (e : ErrorCause) (info : Reg32) (s : State) :
    (raise .txt e info s).ftLen = s.ftLen := rfl
@[simp] theorem raise_txt_bsLen (e : ErrorCause) (info : Reg32) (s : State) :
    (raise .txt e info s).bsLen = s.bsLen := rfl
@[simp] theorem raise_txt_ctCount (e : ErrorCause) (info : Reg32) (s : State) :
    (raise .txt e info s).ctCount = s.ctCount := rfl
@[simp] theorem raise_txt_txt (e : ErrorCause) (info : Reg32) (s : State) :
    (raise .txt e info s).txt = [] := rfl
@[simp] theorem raise_txt_ft (e : ErrorCause) (info : Reg32) (s : State) :
    (raise .txt e info s).ft = s.ft := rfl
@[simp] theorem raise_txt_bs (e : ErrorCause) (info : Reg32) (s : State) :
    (raise .txt e info s).bs = s.bs := rfl
@[simp] theorem raise_txt_ct (e : ErrorCause) (info : Reg32) (s : State) :
    (raise .txt e info s).ct = s.ct := rfl
@[simp] theorem raise_txt_tree (e : ErrorCause) (info : Reg32) (s : State) :
    (raise .txt e info s).tree = s.tree := rfl
@[simp] theorem raise_nothing_txtLen (e : ErrorCause) (info : Reg32) (s : State) :
    (raise .nothing e info s).txtLen = s.txtLen := rfl
@[simp] theorem raise_nothing_ftLen (e : ErrorCause) (info : Reg32) (s : State) :
    (raise .nothing e info s).ftLen = s.ftLen := rfl
@[simp] theorem raise_nothing_bsLen (e : ErrorCause) (info : Reg32) (s : State) :
    (raise .nothing e info s).bsLen = s.bsLen := rfl
@[simp] theorem raise_nothing_ctCount (e : ErrorCause) (info : Reg32) (s : State) :
    (raise .nothing e info s).ctCount = s.ctCount := rfl
@[simp] theorem raise_nothing_txt (e : ErrorCause) (info : Reg32) (s : State) :
    (raise .nothing e info s).txt = s.txt := rfl
@[simp] theorem raise_nothing_ft (e : ErrorCause) (info : Reg32) (s : State) :
    (raise .nothing e info s).ft = s.ft := rfl
@[simp] theorem raise_nothing_bs (e : ErrorCause) (info : Reg32) (s : State) :
    (raise .nothing e info s).bs = s.bs := rfl
@[simp] theorem raise_nothing_ct (e : ErrorCause) (info : Reg32) (s : State) :
    (raise .nothing e info s).ct = s.ct := rfl
@[simp] theorem raise_nothing_tree (e : ErrorCause) (info : Reg32) (s : State) :
    (raise .nothing e info s).tree = s.tree := rfl

/-! ## The outcome of a command -/

@[simp] theorem whenReady_ready {s : State} (h : s.err = none) {held : Bool} (hh : held = true)
    (body : State → State) : whenReady s held body = .next (body s) := by simp [whenReady, h, hh]

@[simp] theorem whenReady_refused {s : State} (h : s.err = none) {held : Bool} (hh : held = false)
    (body : State → State) : whenReady s held body = .refused .unwrittenInput := by simp [whenReady, h, hh]

@[simp] theorem whenReady_faulted {s : State} {e : ErrorCause} (h : s.err = some e) (held : Bool)
    (body : State → State) : whenReady s held body = .next s := by simp [whenReady, h]

/-- All that a command under `whenReady` can do when it gives a next state. -/
theorem whenReady_next {s t : State} {held : Bool} {body : State → State} (h : whenReady s held body = .next t) :
    (s.err = none ∧ held = true ∧ t = body s) ∨ ((∃ e, s.err = some e) ∧ t = s) := by
  cases he : s.err with
  | none =>
    cases held
    · rw [whenReady_refused he rfl] at h; cases h
    · rw [whenReady_ready he rfl] at h; cases h; exact .inl ⟨rfl, rfl, rfl⟩
  | some e => rw [whenReady_faulted he] at h; cases h; exact .inr ⟨⟨e, rfl⟩, rfl⟩

@[simp] theorem mapNext_next (f : State → State) (s : State) : mapNext f (.next s) = .next (f s) := rfl

@[simp] theorem mapNext_refused (f : State → State) (r : Refusal) : mapNext f (.refused r) = .refused r := rfl

@[simp] theorem nextState?_next (s : State) : nextState? (.next s) = some s := rfl

end Sys2Proof.Machine
end

