-- ==== Sys2Proof/Laws/Step.lean ====
section
/-! SUPPORT. What a step and a command can do: the step by the transaction it takes, and what every command
leaves alone. -/

namespace Sys2Proof.Machine

/-! ## The step, by the transaction it takes -/

theorem step_idle {s : State} (h : s.pending = []) : step s = .next s := by
  rw [step, h]

theorem step_command {s : State} {w : CmdWord} {rest : List Txn} {i : Instr} (h : s.pending = .cmd w :: rest)
    (hd : decode w = .ok i) : step s = mapNext endCommand (exec i (beginCommand rest s)) := by
  rw [step, h]
  simp [hd]

theorem step_illegal {s : State} {w : CmdWord} {rest : List Txn} (h : s.pending = .cmd w :: rest)
    (hd : ¬ LegalWord w) : step s = mapNext endCommand (execIllegal w (beginCommand rest s)) := by
  rw [step, h]
  cases hh : decode w with
  | ok i => exact absurd ⟨i, hh⟩ hd
  | error e => simp [hh]

theorem step_memRead {s : State} {space : BitVec 4} {index : BitVec 32} {rest : List Txn}
    (h : s.pending = .memRead space index :: rest) : step s = .next (memRead space index (takeTxn rest s)) := by
  rw [step, h]

theorem step_memWrite {s : State} {space : BitVec 4} {index : BitVec 32} {v : PortData} {rest : List Txn}
    (h : s.pending = .memWrite space index v :: rest) :
    step s = .next (memWrite space index v (takeTxn rest s)) := by
  rw [step, h]

theorem step_reset {s : State} {rest : List Txn} (h : s.pending = .reset :: rest) :
    step s = .next (resetBlock (takeTxn rest s)) := by
  rw [step, h]

/-- All that a step can have done. -/
theorem step_cases {s t : State} (h : step s = .next t) :
    (s.pending = [] ∧ t = s)
      ∨ (∃ w rest i u, s.pending = .cmd w :: rest ∧ decode w = .ok i
          ∧ exec i (beginCommand rest s) = .next u ∧ t = endCommand u)
      ∨ (∃ w rest u, s.pending = .cmd w :: rest ∧ ¬ LegalWord w
          ∧ execIllegal w (beginCommand rest s) = .next u ∧ t = endCommand u)
      ∨ (∃ space index rest, s.pending = .memRead space index :: rest
          ∧ t = memRead space index (takeTxn rest s))
      ∨ (∃ space index v rest, s.pending = .memWrite space index v :: rest
          ∧ t = memWrite space index v (takeTxn rest s))
      ∨ ∃ rest, s.pending = .reset :: rest ∧ t = resetBlock (takeTxn rest s) := by
  have inv : ∀ {o : Host.Outcome State Fault Refusal}, mapNext endCommand o = .next t →
      ∃ u, o = .next u ∧ t = endCommand u := by
    intro o ho
    cases o with
    | next u => simp [mapNext] at ho; exact ⟨u, rfl, ho.symm⟩
    | fault r => simp [mapNext] at ho
    | refused r => simp [mapNext] at ho
  cases hp : s.pending with
  | nil => rw [step_idle hp] at h; left; cases h; exact ⟨rfl, rfl⟩
  | cons x rest =>
    right
    cases x with
    | cmd w =>
      by_cases hl : LegalWord w
      · obtain ⟨i, hi⟩ := hl
        rw [step_command hp hi] at h
        obtain ⟨u, hu, ht⟩ := inv h
        exact .inl ⟨w, rest, i, u, rfl, hi, hu, ht⟩
      · rw [step_illegal hp hl] at h
        obtain ⟨u, hu, ht⟩ := inv h
        exact .inr (.inl ⟨w, rest, u, rfl, hl, hu, ht⟩)
    | memRead space index =>
      rw [step_memRead hp] at h; cases h
      exact .inr (.inr (.inl ⟨space, index, rest, rfl, rfl⟩))
    | memWrite space index v =>
      rw [step_memWrite hp] at h; cases h
      exact .inr (.inr (.inr (.inl ⟨space, index, v, rest, rfl, rfl⟩)))
    | reset =>
      rw [step_reset hp] at h; cases h
      exact .inr (.inr (.inr (.inr ⟨rest, rfl, rfl⟩)))

/-! ## Bodies and what they leave alone -/

/-- The body of a command that runs only while no error is recorded; `none` for NOP and CLEAR. -/
def bodyOf : Instr → Option (State → State)
  | .nop => none
  | .clear => none
  | .count => some countBody
  | .sort => some sortBody
  | .build => some buildBody
  | .derive => some deriveBody
  | .encode => some encodeBody
  | .pack t => some (packBody t)
  | .unpack t => some (unpackBody t)
  | .decode => some decodeBody

/-- Whether every element the command reads holds a value. -/
def heldFor : Instr → State → Bool
  | .nop, _ => true
  | .clear, _ => true
  | .count, s => txtHeld s
  | .sort, s => ftHeld s
  | .build, s => rlHeld s
  | .derive, _ => true
  | .encode, s => s.ct.isNone || txtHeld s
  | .pack _, s => bsHeld s
  | .unpack t, s => (!t && (payloadError s.byLen.toNat s).isSome) || byHeld s
  | .decode, s => s.ct.isNone || bsHeld s

theorem exec_of_body {i : Instr} {body : State → State} (h : bodyOf i = some body) (s : State) :
    exec i s = whenReady s (heldFor i s) body := by
  cases i <;> simp [bodyOf] at h <;> subst h <;> rfl

theorem payloadError_eq_none (np : Nat) (s : State) : payloadError np s = none ↔
    s.padIn.toNat < 8 ∧ s.padIn.toNat ≤ 8 * np ∧ 8 * np - s.padIn.toNat ≤ bitsMax s.params := by
  unfold payloadError
  split
  · simp; omega
  · split
    · simp; omega
    · split
      · simp; omega
      · simp; omega

/-- A command reads an element that holds no value exactly when `heldFor` fails. -/
theorem readsUnwritten_iff (i : Instr) (s : State) : ReadsUnwritten i s ↔ heldFor i s = false := by
  have key : ∀ {α : Type} (c : Cells α) (n : Reg32), ExposesUnwritten c n ↔ allWritten c n.toNat = false :=
    fun c n => (allWritten_eq_false_iff c n.toNat).symm
  have hct : s.ct ≠ none ↔ s.ct.isNone = false := by cases s.ct <;> simp
  cases i
  case unpack t =>
    cases t
    · simp only [ReadsUnwritten, key, ← payloadError_eq_none, heldFor, byHeld, Bool.or_eq_false_iff, Bool.not_false,
        Bool.true_and]
      cases payloadError s.byLen.toNat s <;> simp
    · simp [ReadsUnwritten, key, heldFor, byHeld]
  all_goals simp [ReadsUnwritten, key, heldFor, txtHeld, ftHeld, rlHeld, bsHeld, hct, Bool.or_eq_false_iff,
    -Bool.not_eq_true, -Option.isNone_eq_false_iff, -ne_eq]

/-- All that a command can have done: NOP nothing, CLEAR its emptying, another nothing while an error is
recorded and its body otherwise. -/
theorem exec_cases {i : Instr} {s t : State} (h : exec i s = .next t) :
    (i = .nop ∧ t = s) ∨ (i = .clear ∧ t = emptied s)
      ∨ ((∃ e, s.err = some e) ∧ t = s)
      ∨ ∃ body, bodyOf i = some body ∧ s.err = none ∧ heldFor i s = true ∧ t = body s := by
  cases hb : bodyOf i with
  | none =>
    cases i <;> simp [bodyOf] at hb
    · cases h; exact .inl ⟨rfl, rfl⟩
    · cases h; exact .inr (.inl ⟨rfl, rfl⟩)
  | some body =>
    rw [exec_of_body hb] at h
    rcases whenReady_next h with ⟨h1, hh, h2⟩ | ⟨h1, h2⟩
    · exact .inr (.inr (.inr ⟨body, rfl, h1, hh, h2⟩))
    · exact .inr (.inr (.inl ⟨h1, h2⟩))

/-- The state with the fields a command never writes set aside. -/
def Untouched (s t : State) : Prop :=
  t.params = s.params ∧ t.pending = s.pending ∧ t.response = s.response ∧ t.draws = s.draws

theorem countBody_untouched (s : State) : Untouched s (countBody s) ∧ (countBody s).busy = s.busy := by
  unfold countBody Untouched; split <;> simp

theorem sortBody_untouched (s : State) : Untouched s (sortBody s) ∧ (sortBody s).busy = s.busy := by
  simp [sortBody, Untouched]

theorem buildBody_untouched (s : State) : Untouched s (buildBody s) ∧ (buildBody s).busy = s.busy := by
  unfold buildBody Untouched; split
  · simp
  · split <;> simp

theorem deriveBody_untouched (s : State) : Untouched s (deriveBody s) ∧ (deriveBody s).busy = s.busy := by
  unfold deriveBody Untouched; split <;> simp

theorem encodeBody_untouched (s : State) : Untouched s (encodeBody s) ∧ (encodeBody s).busy = s.busy := by
  unfold encodeBody Untouched; split
  · simp
  · split <;> simp

theorem packBody_untouched (b : Bool) (s : State) :
    Untouched s (packBody b s) ∧ (packBody b s).busy = s.busy := by
  simp [packBody, Untouched]

theorem expandPayload_untouched (p : List Byte) (np : Nat) (s : State) :
    Untouched s (expandPayload p np s) ∧ (expandPayload p np s).busy = s.busy := by
  unfold expandPayload Untouched
  split <;> simp

theorem unpackBody_untouched (b : Bool) (s : State) :
    Untouched s (unpackBody b s) ∧ (unpackBody b s).busy = s.busy := by
  unfold unpackBody
  split
  · split
    · simp [Untouched]
    · exact expandPayload_untouched _ _ { s with padIn := _ }
  · exact expandPayload_untouched _ _ _

theorem decodeBody_untouched (s : State) : Untouched s (decodeBody s) ∧ (decodeBody s).busy = s.busy := by
  unfold decodeBody Untouched; split
  · simp
  · split <;> simp

theorem body_untouched {i : Instr} {body : State → State} (h : bodyOf i = some body) (s : State) :
    Untouched s (body s) ∧ (body s).busy = s.busy := by
  cases i <;> simp [bodyOf] at h <;> subst h
  · exact countBody_untouched s
  · exact sortBody_untouched s
  · exact buildBody_untouched s
  · exact deriveBody_untouched s
  · exact encodeBody_untouched s
  · exact packBody_untouched _ s
  · exact unpackBody_untouched _ s
  · exact decodeBody_untouched s

/-- No command writes the open parameter, the pending transactions, the port's answer or the draw counter. -/
theorem exec_untouched {i : Instr} {s t : State} (h : exec i s = .next t) : Untouched s t := by
  rcases exec_cases h with ⟨_, rfl⟩ | ⟨_, rfl⟩ | ⟨_, rfl⟩ | ⟨body, hb, _, _, rfl⟩
  · exact ⟨rfl, rfl, rfl, rfl⟩
  · exact ⟨rfl, rfl, rfl, rfl⟩
  · exact ⟨rfl, rfl, rfl, rfl⟩
  · exact (body_untouched hb s).1

/-! ## The port -/

/-- A read writes the answer and the draw counter only. -/
theorem memRead_eq (space : BitVec 4) (index : BitVec 32) (s : State) :
    ∃ r d, memRead space index s = { s with response := r, draws := d } := by
  have ha : ∀ v f, ∃ r d, answerElement v f s = { s with response := r, draws := d } := by
    intro v f; cases v <;> exact ⟨_, _, rfl⟩
  have he : ∃ r d, accessError s = { s with response := r, draws := d } := ⟨_, _, rfl⟩
  unfold memRead
  simp only
  split
  · exact he
  · split
    · exact he
    · exact ⟨_, _, rfl⟩
  · split
    · exact ha _ _
    · exact he
  · split
    · exact ha _ _
    · exact he
  · split
    · exact ha _ _
    · exact he
  · split
    · unfold readHead
      split
      · exact ha _ _
      · split
        · exact ha _ _
        · exact ⟨_, _, rfl⟩
    · exact he
  · split
    · exact ha _ _
    · exact he
  · split
    · exact ha _ _
    · exact he
  · split
    · exact ha _ _
    · exact he

/-- All that a write of a register can have done. -/
theorem writeCsr_cases (r : Csr) (v : PortData) (s : State) :
    writeCsr r v s = accessError s
      ∨ (∃ n, n.toNat ≤ textMax s.params ∧ writeCsr r v s = { s with txtLen := n, response := .done })
      ∨ (∃ n, n.toNat ≤ nsymMax ∧ writeCsr r v s = { s with ftLen := n, response := .done })
      ∨ (∃ n, n.toNat ≤ nsymMax ∧ writeCsr r v s = { s with rlLen := n, response := .done })
      ∨ (∃ n, n.toNat ≤ bitsMax s.params ∧ writeCsr r v s = { s with bsLen := n, response := .done })
      ∨ (∃ n, n.toNat ≤ byCap s.params ∧ writeCsr r v s = { s with byLen := n, response := .done })
      ∨ (r = .padIn ∧ ∃ b, writeCsr r v s = { s with padIn := b, response := .done }) := by
  unfold writeCsr
  simp only
  cases r <;> simp only
  case status | padOut | ctCount | errInfo => exact .inl trivial
  case txtLen => split; exacts [.inr (.inl ⟨_, ‹_›, rfl⟩), .inl rfl]
  case ftLen => split; exacts [.inr (.inr (.inl ⟨_, ‹_›, rfl⟩)), .inl rfl]
  case rlLen => split; exacts [.inr (.inr (.inr (.inl ⟨_, ‹_›, rfl⟩))), .inl rfl]
  case bsLen => split; exacts [.inr (.inr (.inr (.inr (.inl ⟨_, ‹_›, rfl⟩)))), .inl rfl]
  case byLen => split; exacts [.inr (.inr (.inr (.inr (.inr (.inl ⟨_, ‹_›, rfl⟩))))), .inl rfl]
  case padIn => exact .inr (.inr (.inr (.inr (.inr (.inr ⟨trivial, _, rfl⟩)))))

/-- All that a write can have done: an access error, a register, or one element of one buffer. -/
theorem memWrite_cases (space : BitVec 4) (index : BitVec 32) (v : PortData) (s : State) :
    memWrite space index v s = accessError s
      ∨ (∃ r, spaceOf space = some .csr ∧ csrOf index = some r ∧ memWrite space index v s = writeCsr r v s)
      ∨ (∃ i x, i < textMax s.params
          ∧ memWrite space index v s = { s with txt := writeCell s.txt i x, response := .done })
      ∨ (∃ i x, i < nsymMax ∧ memWrite space index v s = { s with ft := writeCell s.ft i x, response := .done })
      ∨ (∃ i x, i < nsymMax ∧ memWrite space index v s = { s with rl := writeCell s.rl i x, response := .done })
      ∨ (∃ i x, i < bitsMax s.params
          ∧ memWrite space index v s = { s with bs := writeCell s.bs i x, response := .done })
      ∨ (∃ i x, i < byCap s.params
          ∧ memWrite space index v s = { s with byBuf := writeCell s.byBuf i x, response := .done }) := by
  unfold memWrite
  simp only
  split
  · exact .inl rfl
  · rename_i hs
    split
    · exact .inl rfl
    · rename_i r hr; exact .inr (.inl ⟨r, hs, hr, rfl⟩)
  · split; exacts [.inr (.inr (.inl ⟨_, _, ‹_›, rfl⟩)), .inl rfl]
  · split; exacts [.inr (.inr (.inr (.inl ⟨_, _, ‹_›, rfl⟩))), .inl rfl]
  · split; exacts [.inr (.inr (.inr (.inr (.inl ⟨_, _, ‹_›, rfl⟩)))), .inl rfl]
  · exact .inl rfl
  · exact .inl rfl
  · split; exacts [.inr (.inr (.inr (.inr (.inr (.inl ⟨_, _, ‹_›, rfl⟩))))), .inl rfl]
  · split; exacts [.inr (.inr (.inr (.inr (.inr (.inr ⟨_, _, ‹_›, rfl⟩))))), .inl rfl]

/-- A write leaves the tree, the table, the error and the registers the host may not write as they were. -/
theorem memWrite_frame (space : BitVec 4) (index : BitVec 32) (v : PortData) (s : State) :
    let t := memWrite space index v s
    t.params = s.params ∧ t.err = s.err ∧ t.busy = s.busy ∧ t.padOut = s.padOut ∧ t.ctCount = s.ctCount
      ∧ t.errInfo = s.errInfo ∧ t.ct = s.ct ∧ t.tree = s.tree ∧ t.pending = s.pending ∧ t.draws = s.draws := by
  simp only
  rcases memWrite_cases space index v s with h | ⟨r, _, _, h⟩ | ⟨i, x, _, h⟩ | ⟨i, x, _, h⟩ | ⟨i, x, _, h⟩ |
    ⟨i, x, _, h⟩ | ⟨i, x, _, h⟩ <;> rw [h]
  · simp
  · rcases writeCsr_cases r v s with h | ⟨n, _, h⟩ | ⟨n, _, h⟩ | ⟨n, _, h⟩ | ⟨n, _, h⟩ | ⟨n, _, h⟩ | ⟨_, b, h⟩ <;>
      rw [h] <;> simp
  all_goals simp

end Sys2Proof.Machine
end

