-- ==== Sys2Proof/Laws/Commands.lean ====
section
/-! SUPPORT. What the body of each command comes to, written once for the provers: the contents a command
reads after another has written them, the sums and the uniqueness behind the sorter, and the forms of UNPACK
and DECODE; and that every memory operation keeps the canonical form. -/

namespace Sys2Proof.Machine

/-! ## Small facts -/

theorem toNat_ofNat32 {n : Nat} (h : n < 2 ^ 32) : (BitVec.ofNat 32 n).toNat = n := by
  rw [BitVec.toNat_ofNat]; exact Nat.mod_eq_of_lt h

theorem txtContent_length {s : State} (h : txtHeld s = true) : (txtContent s).length = s.txtLen.toNat :=
  content_length h

theorem ftContent_length {s : State} (h : ftHeld s = true) : (ftContent s).length = s.ftLen.toNat :=
  content_length h

theorem rlContent_length {s : State} (h : rlHeld s = true) : (rlContent s).length = s.rlLen.toNat :=
  content_length h

theorem bsContent_length {s : State} (h : bsHeld s = true) : (bsContent s).length = s.bsLen.toNat :=
  content_length h

theorem byContent_length {s : State} (h : byHeld s = true) : (byContent s).length = s.byLen.toNat :=
  content_length h

theorem txtContent_length_le (s : State) : (txtContent s).length ≤ s.txtLen.toNat := content_length_le _ _

theorem ftContent_length_le (s : State) : (ftContent s).length ≤ s.ftLen.toNat := content_length_le _ _

theorem rlContent_length_le (s : State) : (rlContent s).length ≤ s.rlLen.toNat := content_length_le _ _

theorem bsContent_length_le (s : State) : (bsContent s).length ≤ s.bsLen.toNat := content_length_le _ _

theorem byContent_length_le (s : State) : (byContent s).length ≤ s.byLen.toNat := content_length_le _ _

theorem txtContent_lt (s : State) : (txtContent s).length < 2 ^ 32 :=
  lt_of_le_of_lt (txtContent_length_le s) s.txtLen.isLt

/-- What a prefix write laid down is read back under a length register that holds its length. -/
theorem content_of_prefix {α : Type} (c : Cells α) (vs : List α) {n : Nat} (h : n = vs.length) :
    content (writePrefix c vs) n = vs := by
  subst h; exact content_writePrefix _ _

theorem allWritten_of_prefix {α : Type} (c : Cells α) (vs : List α) {n : Nat} (h : n = vs.length) :
    allWritten (writePrefix c vs) n = true := by
  subst h; exact allWritten_writePrefix _ _

theorem holdsPrefix_writePrefix {α : Type} (c : Cells α) (vs : List α) : HoldsPrefix (writePrefix c vs) vs :=
  fun i hi => by rw [readCell_writePrefix, if_pos hi]

theorem content_of_holdsPrefix {α : Type} {c : Cells α} {vs : List α} (h : HoldsPrefix c vs) {n : Nat}
    (hn : n = vs.length) : content c n = vs := by
  subst hn; exact content_eq h

theorem allWritten_of_holdsPrefix {α : Type} {c : Cells α} {vs : List α} (h : HoldsPrefix c vs) {n : Nat}
    (hn : n = vs.length) : allWritten c n = true := by
  subst hn; exact allWritten_of_eq h

theorem replaced_writePrefix {α : Type} (c : Cells α) (vs : List α) : Replaced c (writePrefix c vs) vs :=
  fun i => readCell_writePrefix c vs i

theorem Replaced.holdsPrefix {α : Type} {c d : Cells α} {vs : List α} (h : Replaced c d vs) :
    HoldsPrefix d vs := fun i hi => by rw [h i, if_pos hi]

/-- A command that is not ignored, with the elements it reads held, runs its body. -/
theorem exec_ready {i : Instr} {body : State → State} (hb : bodyOf i = some body) {s : State}
    (h : s.err = none) (hh : heldFor i s = true) : exec i s = .next (body s) := by
  rw [exec_of_body hb, whenReady_ready h hh]

/-- A command that reads an element which holds no value is refused. -/
theorem exec_refused {i : Instr} {s : State} (h : s.err = none) (hh : ReadsUnwritten i s) :
    exec i s = .refused .unwrittenInput := by
  have hf := (readsUnwritten_iff i s).1 hh
  cases hb : bodyOf i with
  | none => cases i <;> simp [bodyOf, heldFor] at hb hf
  | some body => rw [exec_of_body hb, whenReady_refused h hf]

/-- While an error is recorded every command but CLEAR is ignored. -/
theorem exec_ignored {i : Instr} {s : State} {e : ErrorCause} (h : s.err = some e) (hi : i ≠ .clear) :
    exec i s = .next s := by
  cases hb : bodyOf i with
  | none => cases i <;> simp [bodyOf] at hb hi <;> rfl
  | some body => rw [exec_of_body hb, whenReady_faulted h]

/-! ## The sorter -/

theorem countSymbol_sum (ft : List Entry) (x : Symbol) (h : ∀ e ∈ ft, e.cnt.toNat + 1 < 2 ^ 32) :
    ((countSymbol ft x).map (fun e => e.cnt.toNat)).sum = (ft.map (fun e => e.cnt.toNat)).sum + 1 := by
  induction ft with
  | nil => simp [countSymbol]
  | cons e ft ih =>
    unfold countSymbol
    split
    · have := h e (by simp)
      simp only [List.map_cons, List.sum_cons, BitVec.toNat_add]
      rw [Nat.mod_eq_of_lt (by simpa using this)]
      simp; omega
    · simp only [List.map_cons, List.sum_cons]
      rw [ih (fun e he => h e (by simp [he]))]; omega

/-- The counts add up to the length of the text. -/
theorem countText_sum (text : List Symbol) (h : text.length < 2 ^ 32) :
    ((countText text).map (fun e => e.cnt.toNat)).sum = text.length := by
  induction text using List.reverseRecOn with
  | nil => rfl
  | append_singleton text x ih =>
    simp only [List.length_append, List.length_singleton] at h
    rw [countText_snoc, countSymbol_sum, ih (by omega)]
    · simp
    · intro e he
      have := (countText_spec text (by omega)).2.2.2 e he
      have h2 : text.count e.sym ≤ text.length := List.count_le_length
      omega

theorem countText_pos (text : List Symbol) (h : text.length < 2 ^ 32) (hne : text ≠ []) :
    1 ≤ (countText text).length := by
  rcases Nat.eq_zero_or_pos (countText text).length with h0 | h0
  · have h1 := countText_sum text h
    rw [List.length_eq_zero_iff.1 h0] at h1
    exact absurd (List.eq_nil_of_length_eq_zero h1.symm) hne
  · exact h0

/-- Two lists in descending order with the same entries, each key's in the same order, are the same. -/
theorem stable_unique {α : Type} (key : α → Nat) : ∀ l m : List α, l.Perm m →
    l.Pairwise (fun a b => key b ≤ key a) → m.Pairwise (fun a b => key b ≤ key a) →
    (∀ k : Nat, l.filter (fun e => key e = k) = m.filter (fun e => key e = k)) → l = m := by
  intro l
  induction l with
  | nil => intro m hp _ _ _; exact (List.nil_perm.1 hp).symm
  | cons a l ih =>
    intro m hp hl hm hf
    cases m with
    | nil => exact absurd hp.length_eq (by simp)
    | cons b m =>
      rw [List.pairwise_cons] at hl hm
      have h1 : key a = key b := by
        have ha : a ∈ b :: m := hp.subset (by simp)
        have hb : b ∈ a :: l := hp.symm.subset (by simp)
        have : key a ≤ key b := by
          rcases List.mem_cons.1 ha with rfl | h
          · exact le_refl _
          · exact hm.1 _ h
        have : key b ≤ key a := by
          rcases List.mem_cons.1 hb with rfl | h
          · exact le_refl _
          · exact hl.1 _ h
        omega
      have hab : a = b := by
        have := hf (key a)
        simp only [List.filter_cons, decide_true, if_true, h1] at this
        exact (List.cons.inj this).1
      subst hab
      congr 1
      refine ih m ((List.perm_cons a).1 hp) hl.2 hm.2 (fun k => ?_)
      have := hf k
      by_cases hk : key a = k <;> simp [hk] at this <;> exact this

/-- The library's stable sort keeps each key's entries in their order. -/
theorem mergeSort_filter {α : Type} (key : α → Nat) (l : List α) (k : Nat) :
    (l.mergeSort (fun a b => decide (key b ≤ key a))).filter (fun e => key e = k)
      = l.filter (fun e => key e = k) := by
  have hs : (l.filter (fun e => key e = k)).Sublist (l.mergeSort (fun a b => decide (key b ≤ key a))) := by
    apply List.sublist_mergeSort (le := fun a b => decide (key b ≤ key a))
    · intro a b c h1 h2; simp at *; omega
    · intro a b; simp; omega
    · rw [List.pairwise_filter]
      exact List.pairwise_of_forall_mem_list (fun a _ b _ ha hb => by simp at *; omega)
    · exact List.filter_sublist
  have hs2 := hs.filter (fun e => decide (key e = k))
  rw [List.filter_filter] at hs2
  simp only [Bool.and_self] at hs2
  refine (hs2.eq_of_length ?_).symm
  exact ((List.mergeSort_perm l (fun a b => decide (key b ≤ key a))).filter _).length_eq.symm

theorem mergeSort_descending {α : Type} (key : α → Nat) (l : List α) :
    (l.mergeSort (fun a b => decide (key b ≤ key a))).Pairwise (fun a b => key b ≤ key a) := by
  have := List.pairwise_mergeSort (le := fun a b => decide (key b ≤ key a))
    (by intro a b c h1 h2; simp at *; omega) (by intro a b; simp; omega) l
  simpa using this

/-! ## PACK and UNPACK -/

theorem packedBytes_length (t : Bool) (bits : Bits) : (packedBytes t bits).length
    = if t then (payloadBytes bits).length + 1 else (payloadBytes bits).length := by
  cases t <;> simp [packedBytes]

theorem packedBytes_lt (t : Bool) (s : State) : (packedBytes t (bsContent s)).length < 2 ^ 32 := by
  rw [packedBytes_length]
  have := payloadBytes_length_mul (bsContent s)
  have := padCount_lt (bsContent s).length
  have := bsContent_length_le s
  have := s.bsLen.isLt
  split <;> omega

/-- The bytes PACK left are read back. -/
theorem byContent_packBody (t : Bool) (s : State) : byContent (packBody t s) = packedBytes t (bsContent s) :=
  content_of_prefix _ _ (toNat_ofNat32 (packedBytes_lt t s))

/-- Every byte PACK exposes is held. -/
theorem byHeld_packBody (t : Bool) (s : State) : byHeld (packBody t s) = true :=
  allWritten_of_prefix _ _ (toNat_ofNat32 (packedBytes_lt t s))

/-- UNPACK on a payload and a stated padding count, whichever way they are stated. -/
theorem unpackBody_operands {t : Bool} {s : State} {payload : List Byte} {pad : Byte} (hh : byHeld s = true)
    (h : UnpackOperands t s payload pad) :
    unpackBody t s = expandPayload payload payload.length { s with padIn := pad } := by
  have hl := byContent_length hh
  cases t with
  | false =>
    obtain ⟨h1, h2⟩ := h
    rw [unpackBody, if_neg (by simp), ← hl, h1]
    cases s; simp at h2; subst h2; rfl
  | true =>
    replace h : byContent s = payload ++ [pad] := h
    rw [unpackBody, if_pos rfl, ← hl, h]
    simp

/-- UNPACK with the checks failed: BY is not read when T = 0. -/
theorem unpackBody_error {s : State} {e : ErrorCause} {info : Reg32}
    (h : payloadError s.byLen.toNat s = some (e, info)) : unpackBody false s = raise .bs e info s := by
  rw [unpackBody, if_neg (by simp), expandPayload, h]

/-! ## DECODE -/

/-- An entry of a table in canonical form is the code of a symbol. -/
theorem symbol_of_mem {c : Cells Bits} (h : cellsWf nsymMax c) {e : Nat × Bits} (he : e ∈ c) :
    ∃ x : Symbol, x.toNat = e.1 ∧ readCell c x.toNat = some e.2 := by
  have hb : e.1 < 256 := h.2 e he
  have hx : (BitVec.ofNat 8 e.1).toNat = e.1 := by
    rw [BitVec.toNat_ofNat]; exact Nat.mod_eq_of_lt hb
  exact ⟨BitVec.ofNat 8 e.1, hx, by rw [hx]; exact (readCell_eq_some_iff h.1 _ _).2 he⟩

/-- The loop of DECODE on a bitstring that is the codes of a text. -/
theorem decodeFrom_text {c : Cells Bits} (hok : CodeTableOk c) {bits : Bits} {text : List Symbol}
    (h : CutsInto c bits text []) : decodeFrom c 0 bits [] 0 [] = .ok text ∧ text.length ≤ bits.length := by
  have hd : decodeFrom c 0 bits [] 0 [] = .ok text := by rw [decodeFrom_cuts hok h]; simp
  exact ⟨hd, by simpa using decodeFrom_length hd⟩

/-! ## Memory keeps its canonical form -/

theorem reset_memory_wf : Memory.wf State.reset := by
  refine ⟨?_, ?_, ?_, ?_, ?_, ?_⟩ <;> simp [State.reset, cellsWf]

/-- A write of the host keeps the canonical form. -/
theorem memWrite_memory_wf {s : State} (h : Memory.wf s) (space : BitVec 4) (index : BitVec 32) (v : PortData) :
    Memory.wf (memWrite space index v s) := by
  have hE : Memory.wf (accessError s) := h
  obtain ⟨m1, m2, m3, m4, m5, m6⟩ := h
  rcases memWrite_cases space index v s with h | ⟨r, _, _, h⟩ | ⟨i, x, hi, h⟩ | ⟨i, x, hi, h⟩ | ⟨i, x, hi, h⟩ |
    ⟨i, x, hi, h⟩ | ⟨i, x, hi, h⟩ <;> rw [h]
  · exact hE
  · rcases writeCsr_cases r v s with h | ⟨n, _, h⟩ | ⟨n, _, h⟩ | ⟨n, _, h⟩ | ⟨n, _, h⟩ | ⟨n, _, h⟩ |
      ⟨_, b, h⟩ <;> rw [h]
    · exact hE
    all_goals exact ⟨m1, m2, m3, m4, m5, m6⟩
  · exact ⟨writeCell_wf m1 hi _, m2, m3, m4, m5, m6⟩
  · exact ⟨m1, writeCell_wf m2 hi _, m3, m4, m5, m6⟩
  · exact ⟨m1, m2, writeCell_wf m3 hi _, m4, m5, m6⟩
  · exact ⟨m1, m2, m3, writeCell_wf m4 hi _, m5, m6⟩
  · exact ⟨m1, m2, m3, m4, writeCell_wf m5 hi _, m6⟩

/-- A read of the host leaves memory as it was. -/
theorem memRead_memory_wf {s : State} (h : Memory.wf s) (space : BitVec 4) (index : BitVec 32) :
    Memory.wf (memRead space index s) := by
  obtain ⟨r, d, e⟩ := memRead_eq space index s
  rw [e]; exact h

/-- Recording an error keeps the canonical form. -/
theorem raise_memory_wf {s : State} (h : Memory.wf s) (d : Dest) (e : ErrorCause) (info : Reg32) :
    Memory.wf (raise d e info s) := by
  obtain ⟨m1, m2, m3, m4, m5, m6⟩ := h
  have none_wf : ∀ {α : Type} (n : Nat), cellsWf n ([] : Cells α) := fun n => ⟨List.Pairwise.nil, by simp⟩
  cases d
  · exact ⟨m1, none_wf _, m3, m4, m5, m6⟩
  · exact ⟨m1, m2, m3, m4, m5, m6⟩
  · exact ⟨m1, m2, m3, m4, m5, by simp⟩
  · exact ⟨m1, m2, m3, none_wf _, m5, m6⟩
  · exact ⟨none_wf _, m2, m3, m4, m5, m6⟩
  · exact ⟨m1, m2, m3, m4, m5, m6⟩

/-- CLEAR and reset leave memory in canonical form. -/
theorem emptied_memory_wf (s : State) : Memory.wf (emptied s) := by
  refine ⟨?_, ?_, ?_, ?_, ?_, ?_⟩ <;> simp [cellsWf]

end Sys2Proof.Machine
end

