-- ==== Sys2Proof/Laws/Host.lean ====
section
/-! SUPPORT. Runs: one step after another through the host's interface, one command after another, and the
lines of a host sequence. -/

namespace Sys2Proof.Machine

theorem run_zero (s : State) : Sys2Proof.core.run 0 s = .next s := rfl

theorem core_run_succ (M : Host.Core) {s t : M.State} (k : Nat) (h : M.step s = .next t) :
    M.run (k + 1) s = M.run k t := by
  simp [Host.Core.run, h]

/-- A run of one more step: the step, then the rest. -/
theorem run_succ {s t : State} (k : Nat) (h : step s = .next t) :
    Sys2Proof.core.run (k + 1) s = Sys2Proof.core.run k t :=
  core_run_succ Sys2Proof.core k h

theorem runCommands_cons {i : Instr} {l : List Instr} {s t : State} (h : exec i s = .next t) :
    runCommands (i :: l) s = runCommands l t := by
  rw [runCommands, h]; rfl

/-- A faulted block ignores a whole sequence of commands. -/
theorem runCommands_ignored {l : List Instr} (hl : ∀ i ∈ l, i ≠ .clear) {s : State} {e : ErrorCause}
    (h : s.err = some e) : runCommands l s = some s := by
  induction l with
  | nil => rfl
  | cons i l ih =>
    rw [runCommands_cons (exec_ignored h (hl i (by simp)))]
    exact ih (fun i hi => hl i (by simp [hi]))

@[simp] theorem writeLines_length (space : BitVec 4) (k : Nat) (vs : List PortData) :
    (writeLines space k vs).length = vs.length := by
  induction vs generalizing k with
  | nil => rfl
  | cons v vs ih => simp [writeLines, ih]

end Sys2Proof.Machine
end

