-- ==== Sys2Proof/Laws/PerInstr.lean ====
section
/-! SUPPORT. Statements made of every command, one lemma per constructor. -/

namespace Sys2Proof.Laws.Legal

/-- The command is well-formed, and so are the fields of its word: it is one of the legal words
(30_encoding.md R60 to R62). -/
def Statement (i : Instr) : Prop := i.wellFormed = true ∧ (fieldsOf (encode i)).wellFormed = true

theorem nop : Statement .nop := by unfold Statement; decide
theorem clear : Statement .clear := by unfold Statement; decide
theorem count : Statement .count := by unfold Statement; decide
theorem sort : Statement .sort := by unfold Statement; decide
theorem build : Statement .build := by unfold Statement; decide
theorem derive : Statement .derive := by unfold Statement; decide
theorem encode : Statement .encode := by unfold Statement; decide
theorem pack (t : Bool) : Statement (.pack t) := by unfold Statement; cases t <;> decide
theorem unpack (t : Bool) : Statement (.unpack t) := by unfold Statement; cases t <;> decide
theorem decode : Statement .decode := by unfold Statement; decide

end Sys2Proof.Laws.Legal
end

