-- ==== Sys2Proof/Tests/Slice0.lean ====
section
/-! SUPPORT. Tests of the model, their expected results taken from spec/95_test_vectors.md (the table and row
is named at each) or from the rule named, and a witness for the hypotheses of each statement. -/

namespace Sys2Proof.Tests

open Sys2Proof.Machine

/-! ## Small states -/

/-- A bitstring written as 0 and 1. -/
def bits (l : List Nat) : Bits := l.map (fun n => n == 1)

/-- The reset state with a text loaded. -/
def withText (t : List Symbol) (s : State := State.reset) : State :=
  { s with txt := cellsFrom 0 t, txtLen := BitVec.ofNat 32 t.length }

/-- The reset state with a frequency table loaded. -/
def withTable (l : List Entry) (s : State := State.reset) : State :=
  { s with ft := cellsFrom 0 l, ftLen := BitVec.ofNat 32 l.length }

/-- The reset state with a ranked list loaded. -/
def withList (l : List Entry) (s : State := State.reset) : State :=
  { s with rl := cellsFrom 0 l, rlLen := BitVec.ofNat 32 l.length }

/-- The reset state with a bitstring loaded. -/
def withBits (l : List Nat) (s : State := State.reset) : State :=
  { s with bs := cellsFrom 0 (bits l), bsLen := BitVec.ofNat 32 l.length }

/-- The reset state with bytes loaded. -/
def withBytes (l : List Byte) (s : State := State.reset) : State :=
  { s with byBuf := cellsFrom 0 l, byLen := BitVec.ofNat 32 l.length }

/-- The reset state with a code table. -/
def withCodes (c : Cells Bits) (s : State := State.reset) : State :=
  { s with ct := some c, ctCount := BitVec.ofNat 32 c.length }

/-- A check of the state after a command. -/
def after (o : Host.Outcome State Fault Refusal) (p : State → Bool) : Bool :=
  match o with
  | .next t => p t
  | .fault _ => false
  | .refused _ => false

/-- A check of the state after a run of commands. -/
def afterAll (o : Option State) (p : State → Bool) : Bool :=
  match o with
  | some t => p t
  | none => false

theorem next_of_after {o : Host.Outcome State Fault Refusal} {p : State → Bool} (h : after o p = true) :
    ∃ t, o = .next t ∧ p t = true := by
  cases o with
  | next t => exact ⟨t, rfl, h⟩
  | fault r => exact absurd h (by simp [after])
  | refused r => exact absurd h (by simp [after])

theorem some_of_after {o : Option State} {p : State → Bool} (h : afterAll o p = true) :
    ∃ t, o = some t ∧ p t = true := by
  cases o with
  | some t => exact ⟨t, rfl, h⟩
  | none => exact absurd h (by simp [afterAll])

/-- The code table a "0", c "10", b "11" of V-DERIVE row 3. -/
def codesACB : Cells Bits := [(0x61, bits [0]), (0x62, bits [1, 1]), (0x63, bits [1, 0])]

/-- The code table b "0", a "1" of V-DERIVE row 2. -/
def codesBA : Cells Bits := [(0x61, bits [1]), (0x62, bits [0])]

/-- The tree (ba) of V-BUILD row 3. -/
def treeBA : Tree := .node (.leaf 0x62 1) (.leaf 0x61 1) 2

/-! ## WellFormed: one ill-formed term for each check -/

theorem test_wf_reserved : (CmdFields.wellFormed { op := 7, t := false, reserved := 1 }) = false := by decide
theorem test_wf_op : (CmdFields.wellFormed { op := 0xA, t := false, reserved := 0 }) = false := by decide
theorem test_wf_t : (CmdFields.wellFormed { op := 3, t := true, reserved := 0 }) = false := by decide
theorem test_wf_good : (CmdFields.wellFormed { op := 7, t := true, reserved := 0 }) = true := by decide
theorem test_wf_txn_bit : (Txn.memWrite 6 0 2).wellFormed = false := by decide
theorem test_wf_txn_symbol : (Txn.memWrite 1 0 0x100).wellFormed = false := by decide
theorem test_wf_txn_padIn : (Txn.memWrite 0 7 0x100).wellFormed = false := by decide
theorem test_wf_txn_good : (Txn.memWrite 3 0 0x0000000861).wellFormed = true := by decide

/-! ## Decoding: the words of 30_encoding.md R61, bit by bit (reserved, T, OP) -/

theorem test_decode_nop : decodeTableWord 8 0b000_0_0000 = some .nop := by decide
theorem test_decode_clear : decodeTableWord 8 0b000_0_0001 = some .clear := by decide
theorem test_decode_count : decodeTableWord 8 0b000_0_0010 = some .count := by decide
theorem test_decode_sort : decodeTableWord 8 0b000_0_0011 = some .sort := by decide
theorem test_decode_build : decodeTableWord 8 0b000_0_0100 = some .build := by decide
theorem test_decode_derive : decodeTableWord 8 0b000_0_0101 = some .derive := by decide
theorem test_decode_encode : decodeTableWord 8 0b000_0_0110 = some .encode := by decide
theorem test_decode_pack : decodeTableWord 8 0b000_0_0111 = some (.pack false) := by decide
theorem test_decode_packT : decodeTableWord 8 0b000_1_0111 = some (.pack true) := by decide
theorem test_decode_unpack : decodeTableWord 8 0b000_0_1000 = some (.unpack false) := by decide
theorem test_decode_unpackT : decodeTableWord 8 0b000_1_1000 = some (.unpack true) := by decide
theorem test_decode_decode : decodeTableWord 8 0b000_0_1001 = some .decode := by decide

/-- The three reasons of R63. -/
theorem test_decode_reasons : decode 0b001_0_0111 = .error .reservedBits ∧ decode 0b000_0_1010 = .error .operation
    ∧ decode 0b000_1_0011 = .error .trailerFlag := ⟨rfl, rfl, rfl⟩

/-! ## One step each -/

/-- A command word handed over at reset is the next thing a step runs: V-CTRL row 7, 0x10. -/
theorem test_step_illegal : after (step (State.reset.withFetchWord 8 0x10))
    (fun t => statusReg t == 0x09 && t.errInfo == 0x10 && t.pending == []) = true := by decide

/-- V-CTRL row 9: while an error is recorded an illegal word is ignored. -/
theorem test_step_illegal_faulted :
    after (step ({ State.reset with err := some .emptyInput }.withFetchWord 8 0x0A))
      (fun t => statusReg t == 0x01 && t.errInfo == 0) = true := by decide

/-- V-CTRL row 14: NOP. -/
theorem test_nop : after (exec .nop (withCodes codesACB)) (fun t => decide (t = withCodes codesACB)) = true := by
  decide

/-- V-CTRL row 13: CLEAR out of the faulted state. -/
theorem test_clear : after (exec .clear { withCodes codesACB with err := some .corruptStream, errInfo := 24 })
    (fun t => decide (t = State.reset)) = true := by decide

/-- V-CTRL row 8: SORT is ignored while an error is recorded. -/
theorem test_sort_faulted : after (exec .sort { withTable [⟨0x61, 1⟩] with err := some .emptyInput })
    (fun t => t.rlLen == 0 && t.rl == []) = true := by decide

/-- V-COUNT row 2: "mississippi". -/
theorem test_count : after (exec .count (withText
      [0x6D, 0x69, 0x73, 0x73, 0x69, 0x73, 0x73, 0x69, 0x70, 0x70, 0x69]))
    (fun t => t.ft == cellsFrom 0 [⟨0x6D, 1⟩, ⟨0x69, 4⟩, ⟨0x73, 4⟩, ⟨0x70, 2⟩] && t.ftLen == 4
      && statusReg t == 0x00) = true := by decide

/-- V-COUNT row 8: an empty text. -/
theorem test_count_empty : after (exec .count State.reset)
    (fun t => statusReg t == 0x01 && t.errInfo == 0 && t.ftLen == 0) = true := by decide

/-- V-SORT row 2: the order of encounter breaks ties, the value of the symbol plays no part. -/
theorem test_sort : after (exec .sort (withTable [⟨0x7A, 3⟩, ⟨0x61, 3⟩, ⟨0x6D, 5⟩, ⟨0x62, 1⟩, ⟨0x63, 3⟩]))
    (fun t => t.rl == cellsFrom 0 [⟨0x6D, 5⟩, ⟨0x7A, 3⟩, ⟨0x61, 3⟩, ⟨0x63, 3⟩, ⟨0x62, 1⟩] && t.rlLen == 5)
      = true := by decide

/-- V-BUILD row 8: "abracadabra", ties behind, the last entry on the left. -/
theorem test_build : after (exec .build (withList [⟨0x61, 5⟩, ⟨0x62, 2⟩, ⟨0x72, 2⟩, ⟨0x63, 1⟩, ⟨0x64, 1⟩]))
    (fun t => t.tree == some (.node (.leaf 0x61 5) (.node (.leaf 0x62 2)
        (.node (.node (.leaf 0x64 1) (.leaf 0x63 1) 2) (.leaf 0x72 2) 4) 6) 11) && statusReg t == 0x10)
      = true := by decide

/-- V-BUILD row 17: the smallest ill-formed index. -/
theorem test_build_badList : after (exec .build (withList [⟨0x61, 0⟩, ⟨0x61, 5⟩]))
    (fun t => statusReg t == 0x06 && t.errInfo == 0) = true := by decide

/-- V-DERIVE row 3: (a(cb)). -/
theorem test_derive : after (exec .derive { State.reset with
      tree := some (.node (.leaf 0x61 8) (.node (.leaf 0x63 6) (.leaf 0x62 7) 13) 21) })
    (fun t => t.ct == some codesACB && t.ctCount == 3 && statusReg t == 0x20) = true := by decide

/-- V-DERIVE row 12: a second DERIVE loses the table. -/
theorem test_derive_twice : after (exec .derive (withCodes [(0x61, bits [0])]))
    (fun t => statusReg t == 0x03 && t.ctCount == 0 && t.ct == none) = true := by decide

/-- V-ENCODE row 8: c "00", b "01", a "1", text "abca". -/
theorem test_encode : after (exec .encode (withText [0x61, 0x62, 0x63, 0x61]
      (withCodes [(0x61, bits [1]), (0x62, bits [0, 1]), (0x63, bits [0, 0])])))
    (fun t => t.bs == cellsFrom 0 (bits [1, 0, 1, 0, 0, 1]) && t.bsLen == 6 && statusReg t == 0x20)
      = true := by decide

/-- V-ENCODE row 5: "abcab" with no code for c. -/
theorem test_encode_noCode : after (exec .encode (withText [0x61, 0x62, 0x63, 0x61, 0x62] (withCodes codesBA)))
    (fun t => statusReg t == 0x27 && t.errInfo == 2 && t.bsLen == 0) = true := by decide

/-- V-PACK row 5: "101010101". -/
theorem test_pack : after (exec (.pack false) (withBits [1, 0, 1, 0, 1, 0, 1, 0, 1]))
    (fun t => t.byBuf == cellsFrom 0 [0xAA, 0x80] && t.byLen == 2 && t.padOut == 7) = true := by decide

/-- V-PACK row 3: "1111111" with the trailer. -/
theorem test_packT : after (exec (.pack true) (withBits [1, 1, 1, 1, 1, 1, 1]))
    (fun t => t.byBuf == cellsFrom 0 [0xFE, 0x01] && t.byLen == 2 && t.padOut == 1) = true := by decide

/-- V-UNPACK row 3: A4 with PAD_IN = 2. -/
theorem test_unpack : after (exec (.unpack false) { withBytes [0xA4] with padIn := 2 })
    (fun t => t.bs == cellsFrom 0 (bits [1, 0, 1, 0, 0, 1]) && t.bsLen == 6 && statusReg t == 0x00)
      = true := by decide

/-- V-UNPACK row 10: a trailer of 5 and no payload; PAD_IN keeps the trailer. -/
theorem test_unpackT_padding : after (exec (.unpack true) (withBytes [0x05]))
    (fun t => statusReg t == 0x04 && t.errInfo == 5 && t.padIn == 5 && t.bsLen == 0) = true := by decide

/-- V-DECODE row 11: "01001110" is "abcd". -/
theorem test_decode : after (exec .decode (withBits [0, 1, 0, 0, 1, 1, 1, 0] (withCodes
      [(0x61, bits [0, 1]), (0x62, bits [0, 0]), (0x63, bits [1, 1]), (0x64, bits [1, 0])])))
    (fun t => t.txt == cellsFrom 0 [0x61, 0x62, 0x63, 0x64] && t.txtLen == 4 && statusReg t == 0x20)
      = true := by decide

/-- V-DECODE row 5: "001" leaves a residual at bit 2. -/
theorem test_decode_residual : after (exec .decode (withBits [0, 0, 1] (withCodes codesACB)))
    (fun t => statusReg t == 0x25 && t.errInfo == 2 && t.txtLen == 0) = true := by decide

/-- V-DERIVE row 3, the port's view: CTL[0x63] = 0x102, CTC[0x6300] = 1, CTC[0x6301] = 0. -/
theorem test_port_table : (memRead 4 0x63 (withCodes codesACB)).response = .data 0x102
    ∧ (memRead 5 0x6300 (withCodes codesACB)).response = .data 1
    ∧ (memRead 5 0x6301 (withCodes codesACB)).response = .data 0 := by decide

/-- V-PORT rows 3 and 4 at the boundary: FT_LEN takes 256, not 257; BY_LEN takes BY_CAP, not BY_CAP + 1. -/
theorem test_port_lengths : (memWrite 0 0x2 256 State.reset).ftLen = 256
    ∧ (memWrite 0 0x2 257 State.reset).response = .accessError
    ∧ (memWrite 0 0x5 65537 State.reset).byLen = 65537
    ∧ (memWrite 0 0x5 65538 State.reset).response = .accessError := by decide

/-- An entry at the port is cnt above sym (20_memory.md R42): ('a', 8) is 0x861. -/
theorem test_port_entry : (memRead 3 0 (withList [⟨0x61, 8⟩])).response = .data 0x0000000861
    ∧ (memWrite 3 0 0x0000000861 State.reset).rl = [(0, ⟨0x61, 8⟩)] := by decide

/-! ## Elements that hold no value (70_reset_and_hazards.md R172, 93_implementation_defined.md U1) -/

/-- A length raised above what was written: COUNT and PACK.T have no defined result and are refused. -/
theorem test_unwritten : exec .count { withText [0x61, 0x62] with txtLen := 3 } = .refused .unwrittenInput
    ∧ exec (.pack true) { withBits [1] with bsLen := 2 } = .refused .unwrittenInput
    ∧ step (({ withText [0x61, 0x62] with txtLen := 3 } : State).withFetchWord 8 0x02)
        = .refused .unwrittenInput := ⟨rfl, rfl, rfl⟩

/-- The checks before the buffer is read raise all the same: EmptyTree of ENCODE (43_bitstream_encoder.md R111),
InvalidPadding of UNPACK (44_bitstream_decoder.md R121); and a faulted block ignores the command. -/
theorem test_unwritten_checks :
    after (exec .encode { State.reset with txtLen := 3 }) (fun t => t.err == some .emptyTree)
      && after (exec (.unpack false) { State.reset with byLen := 3, padIn := 8 })
          (fun t => t.err == some .invalidPadding && t.errInfo == 8)
      && after (exec .sort { State.reset with ftLen := 3, err := some .badList }) (fun t => t.rlLen == 0)
      = true := by decide

/-! ## Witnesses for the hypotheses of the statements -/

/-- A state in which every buffer, the tree and the table hold something. -/
def loaded : State :=
  withBytes [0xC0, 0x05] (withBits [1, 1, 0] (withList [⟨0x61, 2⟩, ⟨0x62, 1⟩] (withTable [⟨0x61, 2⟩, ⟨0x62, 1⟩]
    (withText [0x61, 0x61, 0x62] (withCodes codesBA { State.reset with
      padIn := 5, tree := some (.node (.leaf 0x62 1) (.leaf 0x61 2) 3) })))))

/-- The same with an error recorded. -/
def faulted : State := { loaded with err := some .badList, errInfo := 1 }

/-- The same with one transaction pending. -/
def issuing (x : Txn) (s : State := loaded) : State := { s with pending := [x] }

theorem codesBA_ok : CodeTableOk codesBA :=
  ⟨by decide, by decide, by decide, by decide⟩

theorem codesACB_ok : CodeTableOk codesACB :=
  ⟨by decide, by decide, by decide, by decide⟩

theorem witness_inv : Inv loaded where
  params := by decide
  memory := ⟨by decide, by decide, by decide, by decide, by decide, by
    intro ct h; cases h; exact codesBA_ok.cells⟩
  lengths := by decide
  idle := rfl
  no_table := by intro h; cases h
  table := by intro ct h; cases h; exact ⟨codesBA_ok, rfl⟩
  tree := by intro t h; cases h; exact ⟨by decide, by simp only [weightsAdd, treeWeight]; decide⟩
  no_error := fun _ => rfl

/-- EveryStepKeepsTheInvariant, on a state whose next transaction is SORT. -/
theorem witness_step_inv : ∃ s t : State, Inv s ∧ s.pending ≠ [] ∧ step s = .next t := by
  refine ⟨issuing (.cmd 0x03), _, ?_, by decide, rfl⟩
  exact ⟨witness_inv.params, witness_inv.memory, witness_inv.lengths, rfl, witness_inv.no_table,
    witness_inv.table, witness_inv.tree, witness_inv.no_error⟩

/-- IllegalWordsRaiseIllegalCommand and DispatchOfACommandWord: an illegal word, ready and faulted. -/
theorem witness_illegal : (issuing (.cmd 0x13)).pending = .cmd 0x13 :: [] ∧ ¬ LegalWord 0x13
    ∧ (issuing (.cmd 0x13)).err = none ∧ (issuing (.cmd 0xFF) faulted).err = some .badList ∧ ¬ LegalWord 0xFF := by
  refine ⟨rfl, ?_, rfl, rfl, ?_⟩ <;> rintro ⟨i, h⟩ <;> exact absurd h (by revert i; rintro (_ | _) <;> nofun)

/-- StepRunsTheDecodedCommand and DispatchOfACommandWord: a legal word that reads held elements, and one that
is refused; CLEAR and another while faulted. -/
theorem witness_dispatch : (∃ t, (issuing (.cmd 0x18)).pending = .cmd 0x18 :: [] ∧ decode 0x18 = .ok (.unpack true)
      ∧ exec (.unpack true) { issuing (.cmd 0x18) with pending := [], busy := true } = .next t)
    ∧ exec (.unpack true) { issuing (.cmd 0x18) { loaded with byLen := 3 } with pending := [], busy := true }
        = .refused .unwrittenInput
    ∧ (issuing (.cmd 0x01) faulted).err = some .badList ∧ (issuing (.cmd 0x03) faulted).pending = .cmd 0x03 :: [] :=
  ⟨⟨_, rfl, rfl, rfl⟩, rfl, rfl, rfl⟩

/-- EveryStepEndsOrIsRefused and DispatchOfACommandWord: for each command that reads a buffer a state in which it
reads an element that holds no value, at the last index below the length, and one in which it reads none. -/
theorem witness_reads_unwritten : ReadsUnwritten .count { loaded with txtLen := 4 }
    ∧ ReadsUnwritten .sort { loaded with ftLen := 3 } ∧ ReadsUnwritten .build { loaded with rlLen := 3 }
    ∧ ReadsUnwritten .encode { loaded with txtLen := 4 } ∧ ReadsUnwritten (.pack false) { loaded with bsLen := 4 }
    ∧ ReadsUnwritten (.unpack true) { loaded with byLen := 3 }
    ∧ ReadsUnwritten (.unpack false) { loaded with byLen := 3 } ∧ ReadsUnwritten .decode { loaded with bsLen := 4 }
    ∧ ({ loaded with txtLen := 4 } : State).err = none
    ∧ ¬ ReadsUnwritten .count loaded ∧ ¬ ReadsUnwritten .sort loaded ∧ ¬ ReadsUnwritten .build loaded
    ∧ ¬ ReadsUnwritten .derive loaded ∧ ¬ ReadsUnwritten .encode loaded ∧ ¬ ReadsUnwritten (.pack true) loaded
    ∧ ¬ ReadsUnwritten (.unpack true) loaded ∧ ¬ ReadsUnwritten (.unpack false) loaded
    ∧ ¬ ReadsUnwritten .decode loaded := by
  simp only [readsUnwritten_iff]; decide

/-- StepTakesTheOldestTransaction, OnlyClearAndResetLeaveTheFaultedState, ResetAndClearLeaveTheResetState. -/
theorem witness_steps : (∃ t, step (issuing (.memRead 1 0)) = .next t)
    ∧ (∃ t, step (issuing (.cmd 0x04) faulted) = .next t) ∧ (∃ t, step (issuing (.cmd 0x01) faulted) = .next t)
    ∧ (∃ t, IssuesReset (issuing .reset faulted) ∧ step (issuing .reset faulted) = .next t)
    ∧ ∃ t, exec .clear faulted = .next t :=
  ⟨⟨_, rfl⟩, ⟨_, rfl⟩, ⟨_, rfl⟩, ⟨_, ⟨[], rfl⟩, rfl⟩, ⟨_, rfl⟩⟩

/-- StepTakesTheOldestTransaction, each clause: a read, a write, a reset, and nothing pending. -/
theorem witness_pending : (issuing (.memRead 1 2)).pending = .memRead 1 2 :: []
    ∧ (issuing (.memWrite 7 1 5)).pending = .memWrite 7 1 5 :: [] ∧ (issuing .reset).pending = .reset :: []
    ∧ loaded.pending = [] := ⟨rfl, rfl, rfl, rfl⟩

/-- ErrorCodes: an error recorded, the first and the last of the table, and none. -/
theorem witness_errors : loaded.err = none ∧ ({ loaded with err := some .emptyInput } : State).err = some .emptyInput
    ∧ ({ loaded with err := some .illegalCommand } : State).err = some .illegalCommand := ⟨rfl, rfl, rfl⟩

/-- RaisedErrorsArePrecise: each command that can raises an error here, and the others run. -/
theorem witness_raised :
    after (exec .count { loaded with txtLen := 0 }) (fun t => t.err == some .emptyInput)
      && after (exec .build { loaded with rl := cellsFrom 0 [⟨0x61, 1⟩, ⟨0x62, 2⟩] }) (fun t => t.err == some .badList)
      && after (exec .derive { loaded with tree := none }) (fun t => t.err == some .emptyTree)
      && after (exec .encode (withText [0x63] loaded)) (fun t => t.err == some .noCode)
      && after (exec (.unpack false) { loaded with padIn := 8 }) (fun t => t.err == some .invalidPadding)
      && after (exec (.unpack true) (withBytes [0x08] loaded)) (fun t => t.err == some .invalidPadding && t.padIn == 8)
      && after (exec .decode (withBits [1] (withCodes [(0x61, bits [0])] loaded))) (fun t => t.err == some .corruptStream)
      && after (exec .sort loaded) (fun t => t.err == none) && after (exec (.pack true) loaded) (fun t => t.err == none)
      && after (execIllegal 0x0A loaded) (fun t => t.err == some .illegalCommand) = true := by decide

/-- CommandsWriteFlagsAsTabled, each clause: an error cleared, a tree made, consumed and lost, a table made and
lost. -/
theorem witness_flags :
    after (exec .clear faulted) (fun t => t.err == none)
      && after (exec .build { loaded with tree := none }) (fun t => t.tree.isSome)
      && after (exec .derive loaded) (fun t => !t.tree.isSome && t.ct.isSome)
      && after (exec .build { loaded with rlLen := 0 }) (fun t => !t.tree.isSome)
      && after (exec .derive { loaded with ct := none }) (fun t => t.ct.isSome)
      && after (exec .derive { loaded with tree := none }) (fun t => !t.ct.isSome) = true := by decide

/-- TablesAreNeverLoadedFromOutside, each clause: a table made anew, a tree made anew, a write. -/
theorem witness_tables :
    after (step (issuing (.cmd 0x05) { loaded with ct := none })) (fun t => t.ct == some codesBA)
      && after (step (issuing (.cmd 0x04) { loaded with tree := none })) (fun t => t.tree.isSome)
      && after (step (issuing (.memWrite 4 0x61 0x101))) (fun t => t.ct == some codesBA && t.response == .accessError)
      = true := by decide

/-- OnlyTheNamedTransactionsWriteEachRegister: each register changed by each transaction that may. -/
theorem witness_registers :
    after (step (issuing (.cmd 0x07))) (fun t => t.padOut != loaded.padOut)
      && after (step (issuing (.cmd 0x18) (withBytes [0x80, 0x07] loaded))) (fun t => t.padIn == 7)
      && after (step (issuing (.memWrite 0 7 0xFF))) (fun t => t.padIn == 0xFF)
      && after (step (issuing (.cmd 0x0A))) (fun t => t.errInfo == 0x0A)
      && after (step (issuing (.cmd 0x05) { loaded with ctCount := 9 })) (fun t => t.ctCount == 2)
      && after (step (issuing .reset faulted)) (fun t => t.padIn == 0 && t.errInfo == 0 && t.ctCount == 0)
      = true := by decide

/-- CountBuildsTheFrequencyTable, SortRanksTheFrequencyTable, CountAndSortFeedBuild. -/
theorem witness_sorter : loaded.err = none ∧ loaded.txtLen ≠ 0 ∧ State.reset.err = none ∧ State.reset.txtLen = 0
    ∧ txtHeld loaded = true ∧ ftHeld loaded = true := by decide

/-- RankingIsTheStableSort: a list and its ranking. -/
theorem witness_ranking : ∃ ft rl : List Entry, rl ≠ ft ∧ rl.Perm ft
    ∧ rl.Pairwise (fun a b => b.cnt.toNat ≤ a.cnt.toNat)
    ∧ ∀ k : Nat, rl.filter (fun e => e.cnt.toNat = k) = ft.filter (fun e => e.cnt.toNat = k) := by
  refine ⟨[⟨0x61, 1⟩, ⟨0x62, 2⟩], [⟨0x62, 2⟩, ⟨0x61, 1⟩], by decide, by decide, by decide, fun k => ?_⟩
  by_cases h1 : k = 1
  · subst h1; decide
  · by_cases h2 : k = 2
    · subst h2; decide
    · rw [List.filter_eq_nil_iff.2, List.filter_eq_nil_iff.2] <;> simp <;> omega

/-- BuildFollowsTheMergeRule and BuildReportsTheFirstIllFormedEntry: an empty list, a well-formed one, and
ill-formed ones at index 0, at index 1 for its count, and at index 2 for its symbol. -/
theorem witness_build : State.reset.rlLen = 0 ∧ loaded.rlLen ≠ 0 ∧ rlHeld loaded = true
    ∧ rlHeld (withList [⟨0x61, 0⟩]) = true
    ∧ (∀ i < 2, ¬ illFormedAt (rlContent loaded) i = true)
    ∧ illFormedAt (rlContent (withList [⟨0x61, 0⟩])) 0 = true
    ∧ illFormedAt (rlContent (withList [⟨0x61, 2⟩, ⟨0x62, 3⟩])) 1 = true
    ∧ illFormedAt (rlContent (withList [⟨0x61, 2⟩, ⟨0x62, 2⟩, ⟨0x61, 1⟩])) 2 = true
    ∧ after (exec .build loaded) (fun t => t.err == none) = true := by decide

/-- The same in the words of the statement. -/
theorem witness_illFormed : rlHeld (withList [⟨0x61, 2⟩, ⟨0x62, 3⟩]) = true
    ∧ IllFormedEntry (rlContent (withList [⟨0x61, 2⟩, ⟨0x62, 3⟩])) 1 :=
  ⟨by decide, ⟨0x62, 3⟩, by decide, Or.inr (Or.inl ⟨by decide, ⟨0x61, 2⟩, by decide, by decide⟩)⟩

/-- BuildDependsOnTheRankedListAlone: two different states with the same ranked list. -/
theorem witness_build_alone : ∃ s u s' u' : State, s ≠ u ∧ s.err = none ∧ u.err = none ∧ s.rlLen = u.rlLen
    ∧ (∀ i < s.rlLen.toNat, readCell s.rl i = readCell u.rl i ∧ readCell s.rl i ≠ none)
    ∧ exec .build s = .next s' ∧ exec .build u = .next u' :=
  ⟨loaded, withList [⟨0x61, 2⟩, ⟨0x62, 1⟩], _, _, by decide, rfl, rfl, rfl, by decide, rfl, rfl⟩

/-- TiesLastIsTheStableResort and MergesKeepTheWorkListDescending: a work list with a tie, and two entries. -/
theorem witness_merges : ∃ wl : List Tree, wl.Pairwise (fun a b => (treeWeight b).toNat ≤ (treeWeight a).toNat)
    ∧ ∃ pre before last, wl = pre ++ [before, last] :=
  ⟨[.leaf 0x61 2, .leaf 0x62 1, .leaf 0x63 1], by decide, [.leaf 0x61 2], .leaf 0x62 1, .leaf 0x63 1, rfl⟩

/-- DeriveReadsCodesOffThePaths, DeriveConsumesTheTree, SingleSymbolHasCodeZero,
CodesArePrefixFreeAndComplete: no tree, a node, a leaf; and bits for the lone symbol. -/
theorem witness_derive : State.reset.tree = none ∧ loaded.err = none
    ∧ loaded.tree = some (.node (.leaf 0x62 1) (.leaf 0x61 2) 3)
    ∧ (treeSymbols treeBA).Nodup ∧ (treeSymbols (.leaf 0x61 4)).Nodup
    ∧ ({ loaded with tree := some (.leaf 0x61 4) } : State).tree = some (.leaf 0x61 4)
    ∧ bsHeld (withBits [0, 0, 0]) = true ∧ (∀ b ∈ bsContent (withBits [0, 0, 0]), b = false)
    ∧ true ∈ bits [0, 1] ∧ readCell (codeTable treeBA) 0x61 = some (bits [1])
    ∧ readCell (codeTable treeBA) 0x62 = some (bits [0]) := by decide

/-- DeriveConsumesTheTree: two DERIVEs in a row. -/
theorem witness_derive_twice : ∃ t u : State, exec .derive loaded = .next t ∧ exec .derive t = .next u :=
  ⟨_, _, rfl, rfl⟩

/-- EncodeConcatenatesTheCodes: no table; codes that fit; a symbol without a code; a capacity of 8 bits that
the ninth code bit exceeds. -/
theorem witness_encode : State.reset.ct = none ∧ loaded.ct = some codesBA ∧ txtHeld loaded = true
    ∧ txtHeld (withText [0x61, 0x63] loaded) = true ∧ txtHeld (withText (List.replicate 9 0x61)) = true
    ∧ List.Forall₂ (fun (x : Symbol) code => readCell codesBA x.toNat = some code) (txtContent loaded)
        [bits [1], bits [1], bits [0]]
    ∧ [bits [1], bits [1], bits [0]].flatten.length ≤ bitsMax loaded.params ∧ paramsLegal loaded.params
    ∧ txtContent (withText [0x61, 0x63] loaded) = [0x61] ++ 0x63 :: [] ∧ readCell codesBA 0x63 = none
    ∧ txtContent (withText (List.replicate 9 0x61)) = List.replicate 8 0x61 ++ 0x61 :: []
    ∧ bitsMax { bytesCap := 1 } < (List.replicate 8 (bits [1])).flatten.length + (bits [1]).length := by
  refine ⟨rfl, rfl, by decide, by decide, by decide, ?_, by decide, by decide, by decide, by decide, by decide,
    by decide⟩
  exact .cons (by decide) (.cons (by decide) (.cons (by decide) .nil))

/-- PackPacksTheBitstring, PaddingBound, UnpackUndoesPack. -/
theorem witness_pack : loaded.err = none ∧ bsHeld loaded = true
    ∧ loaded.bsLen.toNat ≤ bitsMax loaded.params ∧ (∃ t, exec (.pack true) loaded = .next t)
    ∧ ∃ t, exec (.pack false) loaded = .next t :=
  ⟨by decide, by decide, by decide, ⟨_, rfl⟩, ⟨_, rfl⟩⟩

/-- UnpackExpandsThePayload, each clause: no trailer; the padding 8 and a padding above the payload; a payload
above the capacity; the paddings 0 and 7. -/
theorem witness_unpack : State.reset.byLen = 0
    ∧ UnpackOperands true (withBytes [0xC0, 0x08]) [0xC0] 0x08
    ∧ UnpackOperands false { State.reset with padIn := 3 } [] 3
    ∧ UnpackOperands false { withBytes [0xC0, 0xFF] with params := { bytesCap := 1 } } [0xC0, 0xFF] 0
    ∧ bitsMax { bytesCap := 1 } < 8 * 2 - 0
    ∧ UnpackOperands true loaded [0xC0] 0x05 ∧ UnpackOperands false { withBytes [0xC0] with padIn := 7 } [0xC0] 7
    ∧ paramsLegal loaded.params ∧ byHeld loaded = true ∧ byHeld (withBytes [0xC0, 0x08]) = true
    ∧ byHeld { withBytes [0xC0, 0xFF] with params := { bytesCap := 1 } } = true
    ∧ 8 ≤ ({ State.reset with byLen := 3, padIn := 8 } : State).padIn.toNat
    ∧ bitsMax { bytesCap := 1 } < 8 * ({ State.reset with byLen := 2 } : State).byLen.toNat - 0 :=
  ⟨rfl, rfl, ⟨rfl, rfl⟩, ⟨rfl, rfl⟩, by decide, rfl, ⟨rfl, rfl⟩, by decide, by decide, by decide, by decide, by decide,
    by decide⟩

/-- DecodeCutsTheBitstring, each clause: no table, no residual, a residual. -/
theorem witness_decode : State.reset.ct = none ∧ CodeTableOk codesBA ∧ loaded.ct = some codesBA
    ∧ bsHeld loaded = true ∧ bsHeld (withBits [0, 1] (withCodes codesACB)) = true
    ∧ CutsInto codesBA (bsContent loaded) [0x61, 0x61, 0x62] []
    ∧ CutsInto codesACB (bsContent (withBits [0, 1] (withCodes codesACB))) [0x61] [true] := by
  refine ⟨rfl, codesBA_ok, rfl, by decide, by decide, ⟨[bits [1], bits [1], bits [0]], by decide, ?_, by decide⟩,
    ⟨[bits [0]], by decide, ?_, by decide⟩⟩
  · exact .cons (by decide) (.cons (by decide) (.cons (by decide) .nil))
  · exact .cons (by decide) .nil

/-- DecodeUndoesEncode. -/
theorem witness_decode_encode : ∃ (s s1 : State) (c : Cells Bits), s.err = none ∧ paramsLegal s.params
    ∧ s.ct = some c ∧ CodeTableOk c ∧ (∀ x ∈ txtContent s, readCell c x.toNat ≠ none)
    ∧ exec .encode s = .next s1 ∧ s1.err = none := by
  obtain ⟨t, h1, h2⟩ := next_of_after (o := exec .encode loaded) (p := fun t => t.err == none) (by decide)
  exact ⟨loaded, t, codesBA, rfl, by decide, rfl, codesBA_ok, by decide, h1, by simpa using h2⟩

/-- ElementsBeyondAResultStay: a command of each kind that ends without an error, and a capacity. -/
theorem witness_beyond :
    after (exec .count loaded) (fun t => t.err == none && t.ftLen == 2)
      && after (exec .sort loaded) (fun t => t.err == none) && after (exec .encode loaded) (fun t => t.err == none)
      && after (exec (.pack false) loaded) (fun t => t.err == none && t.byLen == 1
          && readCell t.byBuf 1 == some 0x05)
      && after (exec (.unpack true) loaded) (fun t => t.err == none && t.bsLen == 3)
      && after (exec .decode loaded) (fun t => t.err == none && t.txtLen == 3)
      && decide (bitsMax loaded.params < 2 ^ 32) = true := by decide

/-- MissingInput: the reset state misses every input; with a table, ENCODE and DECODE have only it. -/
theorem witness_missing : State.reset.err = none ∧ State.reset.txtLen = 0 ∧ State.reset.ftLen = 0
    ∧ State.reset.rlLen = 0 ∧ State.reset.tree = none ∧ State.reset.ct = none ∧ State.reset.bsLen = 0
    ∧ (withCodes codesBA).ct ≠ none ∧ (withCodes codesBA).txtLen = 0 ∧ (withCodes codesBA).bsLen = 0 := by decide

/-- OperandsReadTheHeldElements: each buffer is held, its last element below the length among the rest. -/
theorem witness_operands : txtHeld loaded = true ∧ ftHeld loaded = true ∧ rlHeld loaded = true
    ∧ bsHeld loaded = true ∧ byHeld loaded = true ∧ (∃ t, exec .build loaded = .next t) ∧ readCell loaded.txt 2 = some 0x62 ∧ 2 < loaded.txtLen.toNat
    ∧ readCell loaded.ft 1 = some ⟨0x62, 1⟩ ∧ 1 < loaded.ftLen.toNat ∧ readCell loaded.rl 1 = some ⟨0x62, 1⟩
    ∧ 1 < loaded.rlLen.toNat ∧ readCell loaded.bs 2 = some false ∧ 2 < loaded.bsLen.toNat
    ∧ readCell loaded.byBuf 1 = some 0x05 ∧ 1 < loaded.byLen.toNat :=
  ⟨by decide, by decide, by decide, by decide, by decide, ⟨_, rfl⟩, by decide⟩

/-- MemWriteReplacesOneElement, HostReadsBackWhatItWrote: the last index of each space, exposed by a length at
the capacity, and data of the element's width. -/
theorem witness_writes : (524287#32).toNat < textMax State.reset.params ∧ (255#32).toNat < 256
    ∧ (524287#32).toNat < bitsMax State.reset.params ∧ (65536#32).toNat < byCap State.reset.params
    ∧ (524287#32).toNat < ({ State.reset with txtLen := 524288 } : State).txtLen.toNat
    ∧ (255#32).toNat < ({ State.reset with ftLen := 256 } : State).ftLen.toNat
    ∧ (255#32).toNat < ({ State.reset with rlLen := 256 } : State).rlLen.toNat
    ∧ (524287#32).toNat < ({ State.reset with bsLen := 524288 } : State).bsLen.toNat
    ∧ (65536#32).toNat < ({ State.reset with byLen := 65537 } : State).byLen.toNat
    ∧ (255#40).toNat < 2 ^ 8 ∧ (1#40).toNat < 2 := by decide

/-- LengthAndPadInWrites and AccessErrorsChangeNothing: the largest length each register takes, the smallest it
refuses, and the first index past each space. -/
theorem witness_ranges : (524288#32).toNat ≤ textMax State.reset.params ∧ (256#32).toNat ≤ 256
    ∧ (524288#32).toNat ≤ bitsMax State.reset.params ∧ (65537#32).toNat ≤ byCap State.reset.params
    ∧ textMax State.reset.params < (524289#32).toNat ∧ 256 < (257#32).toNat
    ∧ bitsMax State.reset.params < (524289#32).toNat ∧ byCap State.reset.params < (65538#32).toNat
    ∧ 8 ≤ (8#4).toNat ∧ 0xA ≤ (0xA#32).toNat ∧ textMax State.reset.params ≤ (524288#32).toNat
    ∧ 256 ≤ (256#32).toNat ∧ 65536 ≤ (65536#32).toNat ∧ bitsMax State.reset.params ≤ (524288#32).toNat
    ∧ byCap State.reset.params ≤ (65537#32).toNat := by decide

/-- ReadsHaveNoSideEffect: an element that is held in each space, and an address that names none. -/
theorem witness_reads : (1#32).toNat < loaded.ftLen.toNat ∧ readCell loaded.ft (1#32).toNat ≠ none
    ∧ (1#32).toNat < loaded.rlLen.toNat ∧ readCell loaded.rl (1#32).toNat ≠ none
    ∧ (2#32).toNat < loaded.bsLen.toNat ∧ readCell loaded.bs (2#32).toNat ≠ none
    ∧ loaded.ct = some codesBA ∧ readCell codesBA (0x61#32).toNat ≠ none
    ∧ readCell codesBA ((0x6100#32).toNat / 256) = some (bits [1]) ∧ (0x6100#32).toNat % 256 < (bits [1]).length
    ∧ (memRead 8 0 loaded).response = .accessError ∧ (2#32).toNat < loaded.txtLen.toNat ∧ readCell loaded.txt (2#32).toNat ≠ none
    ∧ (1#32).toNat < loaded.byLen.toNat ∧ readCell loaded.byBuf (1#32).toNat ≠ none := by decide

/-- PortLayouts, each clause: an entry of RL and of FT, a valid and an invalid entry of CTL, a bit of CTC. -/
theorem witness_layouts : (1#32).toNat < loaded.rlLen.toNat ∧ readCell loaded.rl (1#32).toNat = some ⟨0x62, 1⟩
    ∧ (1#32).toNat < loaded.ftLen.toNat ∧ readCell loaded.ft (1#32).toNat = some ⟨0x62, 1⟩
    ∧ loaded.ct = some codesBA ∧ readCell codesBA (0x61#32).toNat = some (bits [1]) ∧ (bits [1]).length ≤ 255
    ∧ readCell codesBA (0xFF#32).toNat = none ∧ (0xFF#32).toNat < 256 ∧ (bits [1])[0]? = some true
    ∧ (0x6100#32).toNat = (0x61#8).toNat * 256 + 0 := by decide

/-- HostLinesLoadTheText: a text of one symbol and what follows it. -/
theorem witness_lines : [0x61#8].length ≤ textMax State.reset.params ∧ paramsLegal State.reset.params
    ∧ ({ State.reset with pending := [.memWrite 1 0 0x61, .memWrite 0 1 1, .cmd 0x02] } : State).pending
        = writeLines 1 0 ([0x61#8].map (·.setWidth 40)) ++ writeReg 1 [0x61#8].length :: [.cmd 0x02] := by decide

/-- CompressionIsDeterministic and CompressionFailsOnlyForCapacity: the same text in two states, and a
compression of it that succeeds. -/
theorem witness_compress : ∃ s u s' : State, s ≠ u ∧ s.err = none ∧ u.err = none ∧ paramsLegal s.params
    ∧ s.params = u.params ∧ s.txtLen ≠ 0 ∧ txtHeld s = true
    ∧ txtHeld u = true ∧ txtContent s = txtContent u
    ∧ runCommands compressCommands s = some s' ∧ s'.err = none := by
  obtain ⟨t, h1, h2⟩ := some_of_after (o := runCommands compressCommands loaded) (p := fun t => t.err == none)
    (by decide)
  exact ⟨loaded, withText [0x61, 0x61, 0x62], t, by decide, rfl, rfl, by decide, rfl, by decide, by decide,
    by decide, by decide, h1, by simpa using h2⟩

/-- DecompressUndoesCompress: the block that compressed is the one that decompresses. -/
theorem witness_decompress : ∃ s s' u : State, s.err = none ∧ paramsLegal s.params ∧ s.txtLen ≠ 0
    ∧ txtHeld s = true ∧ rlHeld u = true ∧ byHeld u = true
    ∧ runCommands compressCommands s = some s' ∧ s'.err = none ∧ u.err = none ∧ u.params = s.params
    ∧ u.rlLen = s'.rlLen ∧ rlContent u = rlContent s' ∧ u.byLen = s'.byLen ∧ byContent u = byContent s' := by
  obtain ⟨t, h1, h2⟩ := some_of_after (o := runCommands compressCommands loaded)
    (p := fun t => t.err == none && (rlHeld t && byHeld t) && decide (t.params = loaded.params)) (by decide)
  simp only [Bool.and_eq_true, beq_iff_eq, decide_eq_true_eq] at h2
  exact ⟨loaded, t, t, rfl, by decide, by decide, by decide, h2.1.2.1, h2.1.2.2, h1, h2.1.1, h2.1.1, h2.2, rfl, rfl, rfl, rfl⟩

/-- HostRoundTrip: the text "a". -/
theorem witness_round_trip : ∃ (s s' u : State) (text : List Symbol), paramsLegal s.params ∧ u.params = s.params
    ∧ 1 ≤ text.length ∧ text.length ≤ textMax s.params ∧ s.pending = compressTxns text
    ∧ Sys2Proof.core.run (compressTxns text).length s = .next s' ∧ s'.err = none
    ∧ u.pending = decompressTxns (rlContent s') (byContent s') := by
  let s : State := { faulted with pending := compressTxns [0x61] }
  obtain ⟨t, h1, h2⟩ := next_of_after (o := Sys2Proof.core.run (compressTxns [0x61]).length s)
    (p := fun t => t.err == none) (by decide)
  exact ⟨s, t, { s with pending := decompressTxns (rlContent t) (byContent t) }, [0x61], by decide, rfl, by decide,
    by decide, rfl, h1, by simpa using h2, rfl⟩

end Sys2Proof.Tests
end

/-! SUPPORT AND PROOFS. The statements about the state (10_state.md): what a command that is not ignored can do,
said once as the relation `BodyEffect`, and from it the invariant and what writes each flag and register. -/

namespace Sys2Proof.Machine

/-! ## What a command that is not ignored can do -/

/-- The errors a command can raise, each with the destination it invalidates (60_exceptions.md R150, R152). -/
inductive Raises : Instr → Dest → ErrorCause → Prop where
  | countEmptyInput : Raises .count .ft .emptyInput
  | buildEmptyHeap : Raises .build .tree .emptyHeap
  | buildBadList : Raises .build .tree .badList
  | deriveEmptyTree : Raises .derive .ct .emptyTree
  | encodeEmptyTree : Raises .encode .bs .emptyTree
  | encodeNoCode : Raises .encode .bs .noCode
  | encodeCapacity : Raises .encode .bs .capacity
  | unpackCorruptStream : Raises (.unpack true) .bs .corruptStream
  | unpackInvalidPadding (flag : Bool) : Raises (.unpack flag) .bs .invalidPadding
  | unpackCapacity (flag : Bool) : Raises (.unpack flag) .bs .capacity
  | decodeEmptyTree : Raises .decode .txt .emptyTree
  | decodeCorruptStream : Raises .decode .txt .corruptStream

/-- The state after the body of a command: it raises one of the command's errors, or it writes its result, of
which the size (a tree: its form) is what the invariant asks for. PAD_IN is written by UNPACK.T alone, which
keeps the trailer also where it raises an error. -/
inductive BodyEffect : Instr → State → State → Prop where
  | raised {i : Instr} {s : State} {d : Dest} {e : ErrorCause} (info : Reg32) (pad : Byte) (he : Raises i d e)
      (hpad : i ≠ .unpack true → pad = s.padIn) : BodyEffect i s (raise d e info { s with padIn := pad })
  | count {s : State} (vs : List Entry) (hv : vs.length ≤ nsymMax) :
      BodyEffect .count s { s with ft := writePrefix s.ft vs, ftLen := BitVec.ofNat 32 vs.length }
  | sort {s : State} (vs : List Entry) (hv : vs.length ≤ s.ftLen.toNat) :
      BodyEffect .sort s { s with rl := writePrefix s.rl vs, rlLen := s.ftLen }
  | build {s : State} (t : Tree) (ht : TreeOk t) : BodyEffect .build s { s with tree := some t }
  | derive {s : State} (t : Tree) (ht : s.tree = some t) :
      BodyEffect .derive s { s with
        ct := some (codeTable t), ctCount := BitVec.ofNat 32 (codeTable t).length, tree := none }
  | encode {s : State} (vs : Bits) (hv : vs.length ≤ bitsMax s.params) :
      BodyEffect .encode s { s with bs := writePrefix s.bs vs, bsLen := BitVec.ofNat 32 vs.length }
  | pack {s : State} (flag : Bool) (vs : List Byte) (pad : BitVec 3) (hv : 8 * vs.length ≤ s.bsLen.toNat + 15) :
      BodyEffect (.pack flag) s { s with
        byBuf := writePrefix s.byBuf vs, byLen := BitVec.ofNat 32 vs.length, padOut := pad }
  | unpack {s : State} (flag : Bool) (vs : Bits) (pad : Byte) (hv : vs.length ≤ bitsMax s.params)
      (hpad : flag = false → pad = s.padIn) :
      BodyEffect (.unpack flag) s { s with
        padIn := pad, bs := writePrefix s.bs vs, bsLen := BitVec.ofNat 32 vs.length }
  | decode {s : State} (vs : List Symbol) (hv : vs.length ≤ s.bsLen.toNat) :
      BodyEffect .decode s { s with txt := writePrefix s.txt vs, txtLen := BitVec.ofNat 32 vs.length }

/-- An error of a command that leaves PAD_IN as it was. -/
theorem BodyEffect.raise {i : Instr} {s : State} {d : Dest} {e : ErrorCause} (he : Raises i d e) (info : Reg32) :
    BodyEffect i s (Machine.raise d e info s) :=
  .raised info s.padIn he (fun _ => rfl)

theorem countBody_effect (s : State) : BodyEffect .count s (countBody s) := by
  unfold countBody
  split
  · exact .raise .countEmptyInput 0
  · exact .count _ (countText_length_le _ (txtContent_lt s))

theorem sortBody_effect (s : State) : BodyEffect .sort s (sortBody s) :=
  .sort _ (by rw [rankEntries_length]; exact ftContent_length_le s)

theorem buildBody_effect {s : State} (h : rlHeld s = true) : BodyEffect .build s (buildBody s) := by
  unfold buildBody
  split
  · exact .raise .buildEmptyHeap 0
  next hlen =>
    split
    · exact .raise .buildBadList _
    next hwf =>
      have hne : rlContent s ≠ [] := by
        intro hnil
        have hl := rlContent_length h
        rw [hnil] at hl
        exact hlen (BitVec.eq_of_toNat_eq hl.symm)
      obtain ⟨t, ht, _, _, _, hok⟩ := buildTree_spec hne ((firstIllFormed_eq_none _).1 hwf)
      rw [ht]
      exact .build t hok

theorem deriveBody_effect (s : State) : BodyEffect .derive s (deriveBody s) := by
  unfold deriveBody
  split
  · exact .raise .deriveEmptyTree 0
  next t ht => exact .derive t ht

theorem encodeBody_effect (s : State) : BodyEffect .encode s (encodeBody s) := by
  unfold encodeBody
  split
  · exact .raise .encodeEmptyTree 0
  · split
    next e i herr =>
      rcases encodeFrom_error herr with rfl | rfl
      · exact .raise .encodeNoCode _
      · exact .raise .encodeCapacity _
    next bits hok =>
      obtain ⟨_, _, _, hlen⟩ := encodeFrom_inv hok (Nat.zero_le _)
      exact .encode bits hlen

theorem packBody_effect (flag : Bool) (s : State) : BodyEffect (.pack flag) s (packBody flag s) := by
  refine .pack flag _ _ ?_
  have hbytes := packedBytes_length flag (bsContent s)
  have hmul := payloadBytes_length_mul (bsContent s)
  have hpad := padCount_lt (bsContent s).length
  have hlen := bsContent_length_le s
  split at hbytes <;> omega

/-- UNPACK after its trailer has been dealt with: a failed check, or the payload bits. -/
theorem expandPayload_effect {flag : Bool} {s : State} {pad : Byte} (hpad : flag = false → pad = s.padIn)
    (payload : List Byte) (np : Nat) :
    BodyEffect (.unpack flag) s (expandPayload payload np { s with padIn := pad }) := by
  have hraise : Instr.unpack flag ≠ .unpack true → pad = s.padIn := by
    intro h; exact hpad (by simpa using h)
  unfold expandPayload
  split
  next e info herr =>
    unfold payloadError at herr
    split at herr
    · cases herr; exact .raised _ pad (.unpackInvalidPadding flag) hraise
    · split at herr
      · cases herr; exact .raised _ pad (.unpackInvalidPadding flag) hraise
      · split at herr
        · cases herr; exact .raised _ pad (.unpackCapacity flag) hraise
        · cases herr
  next hok =>
    obtain ⟨_, _, hfit⟩ := (payloadError_eq_none _ _).1 hok
    have heff := BodyEffect.unpack flag (payloadBits payload (8 * np - pad.toNat)) pad
      (by rw [payloadBits_length]; exact hfit) hpad
    rw [payloadBits_length] at heff
    exact heff

theorem unpackBody_effect (flag : Bool) (s : State) : BodyEffect (.unpack flag) s (unpackBody flag s) := by
  cases flag with
  | false => exact expandPayload_effect (fun _ => rfl) _ _
  | true =>
    rw [unpackBody, if_pos rfl]
    split
    · exact .raise .unpackCorruptStream 0
    · exact expandPayload_effect (flag := true) nofun _ _

theorem decodeBody_effect (s : State) : BodyEffect .decode s (decodeBody s) := by
  unfold decodeBody
  split
  · exact .raise .decodeEmptyTree 0
  · split
    · exact .raise .decodeCorruptStream _
    next text hok =>
      have hlen : text.length ≤ (bsContent s).length := by simpa using decodeFrom_length hok
      exact .decode text (hlen.trans (bsContent_length_le s))

theorem body_effect {i : Instr} {body : State → State} (hb : bodyOf i = some body) {s : State}
    (hh : heldFor i s = true) : BodyEffect i s (body s) := by
  cases i <;> cases hb
  · exact countBody_effect s
  · exact sortBody_effect s
  · exact buildBody_effect hh
  · exact deriveBody_effect s
  · exact encodeBody_effect s
  · exact packBody_effect _ s
  · exact unpackBody_effect _ s
  · exact decodeBody_effect s

/-- All that a command can have done: NOP nothing, CLEAR its emptying, any other nothing while an error is
recorded and the effect of its body otherwise. -/
theorem exec_effect {i : Instr} {s t : State} (h : exec i s = .next t) :
    (i = .nop ∧ t = s) ∨ (i = .clear ∧ t = emptied s) ∨ ((∃ e, s.err = some e) ∧ t = s)
      ∨ (s.err = none ∧ BodyEffect i s t) := by
  rcases exec_cases h with hnop | hclear | hignored | ⟨body, hb, hready, hh, rfl⟩
  · exact .inl hnop
  · exact .inr (.inl hclear)
  · exact .inr (.inr (.inl hignored))
  · exact .inr (.inr (.inr ⟨hready, body_effect hb hh⟩))

/-! ## The invariant -/

/-- The block emptied by CLEAR or reset meets the invariant, under whatever legal parameter it carries. -/
theorem emptied_inv {s : State} (hp : paramsLegal s.params) : Inv (emptied s) where
  params := hp
  memory := emptied_memory_wf s
  lengths := ⟨Nat.zero_le _, Nat.zero_le _, Nat.zero_le _, Nat.zero_le _, Nat.zero_le _⟩
  idle := rfl
  no_table := fun _ => rfl
  table := nofun
  tree := nofun
  no_error := fun _ => rfl

/-- The taking of a command breaks no part of the invariant but BUSY, which its end mends. -/
theorem Inv.beginCommand {s : State} (h : Inv s) (rest : List Txn) : Inv (endCommand (beginCommand rest s)) :=
  { h with idle := rfl }

theorem Inv.raise {s : State} (h : Inv (endCommand s)) (d : Dest) (e : ErrorCause) (info : Reg32) :
    Inv (endCommand (raise d e info s)) := by
  have hmem : Memory.wf (endCommand (Machine.raise d e info s)) := raise_memory_wf (s := s) h.memory d e info
  obtain ⟨ltxt, lft, lrl, lbs, lby⟩ := h.lengths
  cases d with
  | ft => exact { h with memory := hmem, lengths := ⟨ltxt, Nat.zero_le _, lrl, lbs, lby⟩, no_error := nofun }
  | tree => exact { h with tree := nofun, no_error := nofun }
  | ct => exact { h with memory := hmem, no_table := fun _ => rfl, table := nofun, no_error := nofun }
  | bs => exact { h with memory := hmem, lengths := ⟨ltxt, lft, lrl, Nat.zero_le _, lby⟩, no_error := nofun }
  | txt => exact { h with memory := hmem, lengths := ⟨Nat.zero_le _, lft, lrl, lbs, lby⟩, no_error := nofun }
  | nothing => exact { h with no_error := nofun }

theorem toNat_ofNat32_le {n cap : Nat} (h : n ≤ cap) : (BitVec.ofNat 32 n).toNat ≤ cap := by
  rw [BitVec.toNat_ofNat]
  exact (Nat.mod_le _ _).trans h

/-- What the body of a command does keeps the invariant. Between the beginning and the end of a command BUSY is 1,
so both sides speak of the state as the end of the command will leave it. -/
theorem BodyEffect.inv {i : Instr} {s t : State} (heff : BodyEffect i s t) (h : Inv (endCommand s)) :
    Inv (endCommand t) := by
  obtain ⟨mtxt, mft, mrl, mbs, mby, mct⟩ := h.memory
  obtain ⟨ltxt, lft, lrl, lbs, lby⟩ := h.lengths
  cases heff with
  | raised info pad _ _ => exact Inv.raise (s := { s with padIn := pad }) { h with } _ _ _
  | count vs hv =>
    exact { h with
      memory := ⟨mtxt, writePrefix_wf mft hv, mrl, mbs, mby, mct⟩
      lengths := ⟨ltxt, toNat_ofNat32_le hv, lrl, lbs, lby⟩ }
  | sort vs hv =>
    exact { h with
      memory := ⟨mtxt, mft, writePrefix_wf mrl (hv.trans lft), mbs, mby, mct⟩
      lengths := ⟨ltxt, lft, lft, lbs, lby⟩ }
  | build t ht => exact { h with tree := fun _ h => by cases h; exact ht }
  | derive t ht =>
    have hsym := (h.tree t ht).symbols
    have hok := codeTable_ok hsym
    have hlen : (codeTable t).length ≤ 256 := by
      rw [(codeTable_spec hsym).2.1]; exact symbols_length_le hsym
    exact { h with
      memory := ⟨mtxt, mft, mrl, mbs, mby, fun _ h => by cases h; exact hok.cells⟩
      no_table := nofun
      table := fun _ h => by cases h; exact ⟨hok, toNat_ofNat32 (by omega)⟩
      tree := nofun }
  | encode vs hv =>
    exact { h with
      memory := ⟨mtxt, mft, mrl, writePrefix_wf mbs hv, mby, mct⟩
      lengths := ⟨ltxt, lft, lrl, toNat_ofNat32_le hv, lby⟩ }
  | pack flag vs pad hv =>
    have hcap : vs.length ≤ byCap s.params := by
      simp only [byCap, bitsMax, endCommand_params, endCommand_bsLen] at lbs ⊢
      omega
    exact { h with
      memory := ⟨mtxt, mft, mrl, mbs, writePrefix_wf mby hcap, mct⟩
      lengths := ⟨ltxt, lft, lrl, lbs, toNat_ofNat32_le hcap⟩ }
  | unpack flag vs pad hv _ =>
    exact { h with
      memory := ⟨mtxt, mft, mrl, writePrefix_wf mbs hv, mby, mct⟩
      lengths := ⟨ltxt, lft, lrl, toNat_ofNat32_le hv, lby⟩ }
  | decode vs hv =>
    have hcap : vs.length ≤ textMax s.params := hv.trans lbs
    exact { h with
      memory := ⟨writePrefix_wf mtxt hcap, mft, mrl, mbs, mby, mct⟩
      lengths := ⟨toNat_ofNat32_le hcap, lft, lrl, lbs, lby⟩ }

theorem exec_inv {i : Instr} {s t : State} (h : Inv (endCommand s)) (hx : exec i s = .next t) :
    Inv (endCommand t) := by
  rcases exec_effect hx with ⟨_, rfl⟩ | ⟨_, rfl⟩ | ⟨_, rfl⟩ | ⟨_, heff⟩
  · exact h
  · exact { emptied_inv (s := s) h.params with }
  · exact h
  · exact heff.inv h

theorem execIllegal_inv {w : CmdWord} {s t : State} (h : Inv (endCommand s)) (hx : execIllegal w s = .next t) :
    Inv (endCommand t) := by
  rcases whenReady_next hx with ⟨_, _, rfl⟩ | ⟨_, rfl⟩
  · exact h.raise _ _ _
  · exact h

theorem writeCsr_lengthsFit {s : State} (h : lengthsFit s) (r : Csr) (v : PortData) :
    lengthsFit (writeCsr r v s) := by
  obtain ⟨ltxt, lft, lrl, lbs, lby⟩ := h
  rcases writeCsr_cases r v s with hw | ⟨n, hn, hw⟩ | ⟨n, hn, hw⟩ | ⟨n, hn, hw⟩ | ⟨n, hn, hw⟩ | ⟨n, hn, hw⟩ |
    ⟨_, b, hw⟩ <;> rw [hw]
  · exact ⟨ltxt, lft, lrl, lbs, lby⟩
  · exact ⟨hn, lft, lrl, lbs, lby⟩
  · exact ⟨ltxt, hn, lrl, lbs, lby⟩
  · exact ⟨ltxt, lft, hn, lbs, lby⟩
  · exact ⟨ltxt, lft, lrl, hn, lby⟩
  · exact ⟨ltxt, lft, lrl, lbs, hn⟩
  · exact ⟨ltxt, lft, lrl, lbs, lby⟩

theorem memWrite_lengthsFit {s : State} (h : lengthsFit s) (space : BitVec 4) (index : BitVec 32) (v : PortData) :
    lengthsFit (memWrite space index v s) := by
  rcases memWrite_cases space index v s with hw | ⟨r, _, _, hw⟩ | ⟨_, _, _, hw⟩ | ⟨_, _, _, hw⟩ | ⟨_, _, _, hw⟩ |
    ⟨_, _, _, hw⟩ | ⟨_, _, _, hw⟩ <;> rw [hw]
  exacts [h, writeCsr_lengthsFit h r v, h, h, h, h, h]

theorem memWrite_inv {s : State} (h : Inv s) (space : BitVec 4) (index : BitVec 32) (v : PortData) :
    Inv (memWrite space index v s) := by
  obtain ⟨hparams, herr, hbusy, _, hcount, hinfo, hct, htree, _, _⟩ := memWrite_frame space index v s
  exact {
    params := by rw [hparams]; exact h.params
    memory := memWrite_memory_wf h.memory space index v
    lengths := memWrite_lengthsFit h.lengths space index v
    idle := by rw [hbusy]; exact h.idle
    no_table := by rw [hct, hcount]; exact h.no_table
    table := by rw [hct, hcount]; exact h.table
    tree := by rw [htree]; exact h.tree
    no_error := by rw [herr, hinfo]; exact h.no_error }

theorem memRead_inv {s : State} (h : Inv s) (space : BitVec 4) (index : BitVec 32) :
    Inv (memRead space index s) := by
  obtain ⟨r, d, hr⟩ := memRead_eq space index s
  rw [hr]
  exact { h with }

/-- Settles O10: a step is one transaction, and each kind of transaction keeps the invariant. -/
theorem everyStepKeepsTheInvariant : Obligations.EveryStepKeepsTheInvariant := by
  unfold Obligations.EveryStepKeepsTheInvariant
  intro s t h hstep
  have htaken : ∀ rest, Inv (takeTxn rest s) := fun _ => { h with }
  rcases step_cases hstep with ⟨_, rfl⟩ | ⟨_, rest, _, _, _, _, hx, rfl⟩ | ⟨_, rest, _, _, _, hx, rfl⟩ |
    ⟨space, index, rest, _, rfl⟩ | ⟨space, index, v, rest, _, rfl⟩ | ⟨rest, _, rfl⟩
  · exact h
  · exact exec_inv (h.beginCommand rest) hx
  · exact execIllegal_inv (h.beginCommand rest) hx
  · exact memRead_inv (htaken rest) space index
  · exact memWrite_inv (htaken rest) space index v
  · exact { emptied_inv (s := takeTxn rest s) h.params with }

/-- Settles O9: the reset state is the emptied block, and its parameter, the suggested one, is legal. -/
theorem resetMeetsTheInvariant : Obligations.ResetMeetsTheInvariant := by
  unfold Obligations.ResetMeetsTheInvariant
  exact emptied_inv (s := State.reset) (by decide)

/-! ## What writes the flags -/

theorem BodyEffect.err {i : Instr} {s t : State} (heff : BodyEffect i s t) (hs : s.err = none) {e : ErrorCause}
    (he : t.err = some e) : ∃ d, Raises i d e := by
  cases heff with
  | @raised _ _ d e' info pad hr _ =>
    rw [raise_err, Option.some.injEq] at he
    subst he
    exact ⟨d, hr⟩
  | _ => rw [hs] at he; cases he

theorem BodyEffect.tree {i : Instr} {s t : State} (heff : BodyEffect i s t) (hs : s.err = none) :
    t.tree = s.tree ∨ (i = .build ∧ ((∃ tr, t.tree = some tr) ∧ t.err = none ∨ t.tree = none ∧ t.err ≠ none))
      ∨ (i = .derive ∧ t.tree = none ∧ t.err = none) := by
  cases heff with
  | raised info pad hr _ =>
    cases hr with
    | buildEmptyHeap | buildBadList => exact .inr (.inl ⟨rfl, .inr ⟨rfl, nofun⟩⟩)
    | _ => exact .inl rfl
  | build tr _ => exact .inr (.inl ⟨rfl, .inl ⟨⟨tr, rfl⟩, hs⟩⟩)
  | derive _ _ => exact .inr (.inr ⟨rfl, rfl, hs⟩)
  | _ => exact .inl rfl

theorem BodyEffect.ct {i : Instr} {s t : State} (heff : BodyEffect i s t) (hs : s.err = none) :
    t.ct = s.ct ∨ (i = .derive ∧ ((∃ c, t.ct = some c) ∧ t.err = none ∨ t.ct = none ∧ t.err ≠ none)) := by
  cases heff with
  | raised info pad hr _ =>
    cases hr with
    | deriveEmptyTree => exact .inr ⟨rfl, .inr ⟨rfl, nofun⟩⟩
    | _ => exact .inl rfl
  | derive _ _ => exact .inr ⟨rfl, .inl ⟨⟨_, rfl⟩, hs⟩⟩
  | _ => exact .inl rfl

/-- Settles O17: NOP, CLEAR and an ignored command are read off their equations, the others off what the body's
effect says of ERR, TREE and CT. -/
theorem commandsWriteFlagsAsTabled : Obligations.CommandsWriteFlagsAsTabled := by
  unfold Obligations.CommandsWriteFlagsAsTabled
  intro i s t hx
  rcases exec_effect hx with ⟨rfl, rfl⟩ | ⟨rfl, rfl⟩ | ⟨⟨e, he⟩, rfl⟩ | ⟨hs, heff⟩
  · grind
  · simp
  · grind
  · refine ⟨fun h => absurd hs h, fun _ e he => ?_, ?_, ?_, ?_, ?_⟩
    · obtain ⟨d, hr⟩ := heff.err hs he
      cases hr <;> simp
    · have htree := heff.tree hs; grind
    · have htree := heff.tree hs; grind
    · have hct := heff.ct hs; grind
    · have hct := heff.ct hs; grind

/-! ## What writes the registers -/

/-- A word that decodes to a command is the command's encoding (30_encoding.md R61). -/
theorem encode_of_decode {w : CmdWord} {i : Instr} (h : decode w = .ok i) : encode i = w := by
  have key : ∀ w : CmdWord, ((decode w).toOption.map encode).all (· == w) = true := by decide
  have hw := key w
  rw [h] at hw
  exact eq_of_beq hw

theorem BodyEffect.padOut {i : Instr} {s t : State} (heff : BodyEffect i s t) :
    t.padOut = s.padOut ∨ ∃ flag, i = .pack flag := by
  cases heff with
  | pack flag => exact .inr ⟨flag, rfl⟩
  | raised => exact .inl (raise_padOut _ _ _ _)
  | _ => exact .inl rfl

theorem BodyEffect.padIn {i : Instr} {s t : State} (heff : BodyEffect i s t) :
    t.padIn = s.padIn ∨ i = .unpack true := by
  by_cases hi : i = .unpack true
  · exact .inr hi
  · left
    cases heff with
    | raised _ _ _ hpad => rw [raise_padIn]; exact hpad hi
    | unpack flag _ _ _ hpad => exact hpad (by simpa using hi)
    | _ => rfl

theorem BodyEffect.errInfo {i : Instr} {s t : State} (heff : BodyEffect i s t) :
    t.errInfo = s.errInfo ∨ t.err ≠ none := by
  cases heff with
  | raised => exact .inr (by simp)
  | _ => exact .inl rfl

theorem BodyEffect.ctCount {i : Instr} {s t : State} (heff : BodyEffect i s t) :
    t.ctCount = s.ctCount ∨ i = .derive := by
  cases heff with
  | raised _ _ hr _ =>
    cases hr with
    | deriveEmptyTree => exact .inr rfl
    | _ => exact .inl rfl
  | derive => exact .inr rfl
  | _ => exact .inl rfl

theorem issuesCommand_of_decode {s : State} {w : CmdWord} {rest : List Txn} {i : Instr} {words : List CmdWord}
    (hp : s.pending = .cmd w :: rest) (hd : decode w = .ok i) (hi : encode i ∈ words) : IssuesCommand s words :=
  ⟨w, rest, hp, encode_of_decode hd ▸ hi⟩

/-- Which command words change each of the four registers. -/
theorem command_writes_registers {s u : State} {w : CmdWord} {rest : List Txn} {i : Instr}
    (hp : s.pending = .cmd w :: rest) (hd : decode w = .ok i) (hx : exec i (beginCommand rest s) = .next u) :
    (u.padOut ≠ s.padOut → IssuesCommand s [0x07#8, 0x17#8, 0x01#8])
      ∧ (u.padIn ≠ s.padIn → IssuesCommand s [0x18#8, 0x01#8])
      ∧ (u.errInfo ≠ s.errInfo → (s.err = none ∧ u.err ≠ none) ∨ IssuesCommand s [0x01#8])
      ∧ (u.ctCount ≠ s.ctCount → IssuesCommand s [0x05#8, 0x01#8]) := by
  have issues {words : List CmdWord} (hi : encode i ∈ words) : IssuesCommand s words :=
    issuesCommand_of_decode hp hd hi
  rcases exec_effect hx with ⟨_, rfl⟩ | ⟨rfl, _⟩ | ⟨_, rfl⟩ | ⟨hs, heff⟩
  · simp
  · exact ⟨fun _ => issues (by decide), fun _ => issues (by decide), fun _ => .inr (issues (by decide)),
      fun _ => issues (by decide)⟩
  · simp
  · refine ⟨fun hne => ?_, fun hne => ?_, fun hne => ?_, fun hne => ?_⟩
    · obtain ⟨flag, rfl⟩ := heff.padOut.resolve_left hne
      exact issues (by cases flag <;> decide)
    · obtain rfl := heff.padIn.resolve_left hne
      exact issues (by decide)
    · exact .inl ⟨hs, heff.errInfo.resolve_left hne⟩
    · obtain rfl := heff.ctCount.resolve_left hne
      exact issues (by decide)

/-- An illegal word writes none of the registers but ERR_INFO, and that with the first error. -/
theorem execIllegal_registers {w : CmdWord} {s u : State} (hx : execIllegal w s = .next u) :
    u.padOut = s.padOut ∧ u.padIn = s.padIn ∧ u.ctCount = s.ctCount
      ∧ (u.errInfo = s.errInfo ∨ (s.err = none ∧ u.err ≠ none)) := by
  rcases whenReady_next hx with ⟨hs, _, rfl⟩ | ⟨_, rfl⟩
  · exact ⟨rfl, rfl, rfl, .inr ⟨hs, nofun⟩⟩
  · exact ⟨rfl, rfl, rfl, .inl rfl⟩

theorem spaceOf_csr {space : BitVec 4} (h : spaceOf space = some .csr) : space = 0 := by
  unfold spaceOf at h
  split at h <;> cases h
  exact BitVec.eq_of_toNat_eq ‹_›

theorem csrOf_padIn {index : BitVec 32} (h : csrOf index = some .padIn) : index = 7 := by
  unfold csrOf at h
  split at h <;> cases h
  exact BitVec.eq_of_toNat_eq ‹_›

theorem writeCsr_padIn {r : Csr} (hr : r ≠ .padIn) (v : PortData) (s : State) :
    (writeCsr r v s).padIn = s.padIn := by
  rcases writeCsr_cases r v s with hw | ⟨_, _, hw⟩ | ⟨_, _, hw⟩ | ⟨_, _, hw⟩ | ⟨_, _, hw⟩ | ⟨_, _, hw⟩ | ⟨h, _⟩
  exacts [hw ▸ rfl, hw ▸ rfl, hw ▸ rfl, hw ▸ rfl, hw ▸ rfl, hw ▸ rfl, absurd h hr]

/-- The one write of the host that changes PAD_IN is that of register 7. -/
theorem memWrite_padIn (space : BitVec 4) (index : BitVec 32) (v : PortData) (s : State) :
    (memWrite space index v s).padIn = s.padIn ∨ (space = 0 ∧ index = 7) := by
  rcases memWrite_cases space index v s with hw | ⟨r, hspace, hindex, hw⟩ | ⟨_, _, _, hw⟩ | ⟨_, _, _, hw⟩ |
    ⟨_, _, _, hw⟩ | ⟨_, _, _, hw⟩ | ⟨_, _, _, hw⟩ <;> rw [hw]
  case inr.inl =>
    by_cases hr : r = .padIn
    · subst hr
      exact .inr ⟨spaceOf_csr hspace, csrOf_padIn hindex⟩
    · exact .inl (writeCsr_padIn hr v s)
  all_goals exact .inl rfl

/-- Settles O19, transaction by transaction. -/
theorem onlyTheNamedTransactionsWriteEachRegister : Obligations.OnlyTheNamedTransactionsWriteEachRegister := by
  unfold Obligations.OnlyTheNamedTransactionsWriteEachRegister
  intro s t hstep
  rcases step_cases hstep with ⟨_, rfl⟩ | ⟨w, rest, i, u, hp, hd, hx, rfl⟩ | ⟨w, rest, u, _, _, hx, rfl⟩ |
    ⟨space, index, rest, _, rfl⟩ | ⟨space, index, v, rest, hp, rfl⟩ | ⟨rest, hp, rfl⟩
  · simp
  · obtain ⟨hpadOut, hpadIn, herrInfo, hctCount⟩ := command_writes_registers hp hd hx
    exact ⟨fun h => .inl (hpadOut h), fun h => .inl (hpadIn h), fun h => (herrInfo h).imp_right .inl,
      fun h => .inl (hctCount h)⟩
  · obtain ⟨hpadOut, hpadIn, hctCount, herrInfo⟩ := execIllegal_registers hx
    exact ⟨fun h => absurd hpadOut h, fun h => absurd hpadIn h, fun h => .inl (herrInfo.resolve_left h),
      fun h => absurd hctCount h⟩
  · obtain ⟨r, d, hr⟩ := memRead_eq space index (takeTxn rest s)
    rw [hr]
    simp
  · obtain ⟨_, _, _, hpadOut, hctCount, herrInfo, _⟩ := memWrite_frame space index v (takeTxn rest s)
    refine ⟨fun h => absurd hpadOut h, fun h => ?_, fun h => absurd herrInfo h, fun h => absurd hctCount h⟩
    obtain ⟨rfl, rfl⟩ := (memWrite_padIn space index v (takeTxn rest s)).resolve_left h
    exact .inr (.inr ⟨v, rest, hp⟩)
  · have hreset : IssuesReset s := ⟨rest, hp⟩
    exact ⟨fun _ => .inr hreset, fun _ => .inr (.inl hreset), fun _ => .inr (.inr hreset), fun _ => .inr hreset⟩

/-! ## Reset, STATUS and the host's view of the registers -/

/-- Settles O11: each of the three states is an emptied block, whatever the port last answered. -/
theorem resetAndClearLeaveTheResetState : Obligations.ResetAndClearLeaveTheResetState := by
  unfold Obligations.ResetAndClearLeaveTheResetState
  intro s t h
  have hempty : ∃ u r, t = { emptied u with response := r } := by
    rcases h with hclear | ⟨⟨rest, hp⟩, hstep⟩ | rfl
    · cases hclear
      exact ⟨s, s.response, rfl⟩
    · rw [step_reset hp] at hstep
      cases hstep
      exact ⟨takeTxn rest s, .none, rfl⟩
    · exact ⟨State.reset, .none, rfl⟩
  obtain ⟨u, r, rfl⟩ := hempty
  have hstatus : statusReg { emptied u with response := r } = 0x00#8 := by
    simp [statusReg, ctValid, treeValid, errField]
  refine ⟨hstatus, rfl, rfl, rfl, rfl, rfl, rfl, rfl, rfl, rfl, fun i => ?_, rfl, rfl⟩
  exact ⟨rfl, rfl, rfl, rfl, rfl⟩

/-- Settles O15: the fields one below the other, ERR the lowest four bits. -/
theorem statusFields : Obligations.StatusFields := by
  unfold Obligations.StatusFields
  intro s
  refine ⟨BitVec.extractLsb'_append_eq_right, ?_, ?_, ?_, ?_⟩ <;>
    rw [statusReg, BitVec.getLsbD_append, BitVec.getLsbD_append, BitVec.getLsbD_append, BitVec.getLsbD_append] <;>
    simp [treeValid, ctValid]

/-- Settles O40: what is read of each buffer is its content below the length, and no command draws a value. -/
theorem operandsReadTheHeldElements : Obligations.OperandsReadTheHeldElements := by
  unfold Obligations.OperandsReadTheHeldElements
  refine ⟨fun s => ⟨content_spec, content_spec, content_spec, content_spec, content_spec⟩, fun i s t hx => ?_⟩
  obtain ⟨_, _, _, hdraws⟩ := exec_untouched hx
  exact hdraws

theorem memRead_csr {index : BitVec 32} {r : Csr} (h : csrOf index = some r) (s : State) :
    memRead 0 index s = answer (csrValue r s) s := by
  unfold memRead
  simp only [h]
  rfl

theorem memWrite_csr {index : BitVec 32} {r : Csr} (h : csrOf index = some r) (v : PortData) (s : State) :
    memWrite 0 index v s = writeCsr r v s := by
  unfold memWrite
  simp only [h]
  rfl

/-- Settles O43: each number names its register, and a read of a register answers its value. -/
theorem registersReadAsMapped : Obligations.RegistersReadAsMapped := by
  unfold Obligations.RegistersReadAsMapped
  intro s
  have hpad : (padOutReg s).setWidth 40 = s.padOut.setWidth 40 :=
    by simp [padOutReg]
  exact ⟨memRead_csr (r := .status) rfl s, memRead_csr (r := .txtLen) rfl s, memRead_csr (r := .ftLen) rfl s,
    memRead_csr (r := .rlLen) rfl s, memRead_csr (r := .bsLen) rfl s, memRead_csr (r := .byLen) rfl s,
    hpad ▸ memRead_csr (r := .padOut) rfl s, memRead_csr (r := .padIn) rfl s, memRead_csr (r := .ctCount) rfl s,
    memRead_csr (r := .errInfo) rfl s⟩

/-- Settles O44: a write carries the register's value in the low bits of the data, and stores it whole. -/
theorem lengthAndPadInWrites : Obligations.LengthAndPadInWrites := by
  unfold Obligations.LengthAndPadInWrites
  intro s v
  have hv : (v.setWidth 40).setWidth 32 = v := by simp
  refine ⟨fun h => ?_, fun h => ?_, fun h => ?_, fun h => ?_, fun h => ?_, fun b => ?_⟩
  · rw [memWrite_csr (r := .txtLen) rfl, writeCsr]; simp only [hv, if_pos h]; rfl
  · rw [memWrite_csr (r := .ftLen) rfl, writeCsr]; simp only [hv]; exact if_pos h
  · rw [memWrite_csr (r := .rlLen) rfl, writeCsr]; simp only [hv]; exact if_pos h
  · rw [memWrite_csr (r := .bsLen) rfl, writeCsr]; simp only [hv]; exact if_pos h
  · rw [memWrite_csr (r := .byLen) rfl, writeCsr]; simp only [hv]; exact if_pos h
  · have hb : (b.setWidth 40).setWidth 8 = b := by simp
    rw [memWrite_csr (r := .padIn) rfl, writeCsr]; simp only [hb]; rfl

end Sys2Proof.Machine

/-! SUPPORT AND PROOFS. The statements about the memory (20_memory.md): an equation for each space of the port, the
addresses that are refused, and from them what a read answers and what a write replaces. -/

namespace Sys2Proof.Machine

/-! ## The order of transactions -/

theorem execIllegal_pending {w : CmdWord} {s t : State} (h : execIllegal w s = .next t) : t.pending = s.pending := by
  rcases whenReady_next h with ⟨_, _, rfl⟩ | ⟨_, rfl⟩ <;> rfl

theorem step_pending {s t : State} (h : step s = .next t) : t.pending = s.pending.tail := by
  rcases step_cases h with ⟨hp, rfl⟩ | ⟨_, rest, _, u, hp, _, hx, rfl⟩ | ⟨_, rest, u, hp, _, hx, rfl⟩ |
    ⟨space, index, rest, hp, rfl⟩ | ⟨space, index, v, rest, hp, rfl⟩ | ⟨rest, hp, rfl⟩ <;> rw [hp]
  · rfl
  · obtain ⟨_, hpending, _, _⟩ := exec_untouched hx
    exact hpending
  · exact execIllegal_pending hx
  · obtain ⟨r, d, hr⟩ := memRead_eq space index (takeTxn rest s)
    rw [hr]; rfl
  · obtain ⟨_, _, _, _, _, _, _, _, hpending, _⟩ := memWrite_frame space index v (takeTxn rest s)
    exact hpending
  · rfl

/-- Settles O7: the tail is `step_pending`, the effects are the step's equations by its transaction. -/
theorem stepTakesTheOldestTransaction : Obligations.StepTakesTheOldestTransaction := by
  unfold Obligations.StepTakesTheOldestTransaction
  exact ⟨fun _ _ => step_pending, fun _ _ _ _ => step_memRead, fun _ _ _ _ _ => step_memWrite,
    fun _ _ => step_reset, fun _ => step_idle⟩

/-! ## The writable buffers, space by space -/

section
variable {s : State} {index : BitVec 32} (v : PortData)

theorem memWrite_txt (h : index.toNat < textMax s.params) : memWrite 1 index v s =
    { s with txt := writeCell s.txt index.toNat (v.setWidth 8), response := .done } := if_pos h

theorem memWrite_ft (h : index.toNat < 256) : memWrite 2 index v s =
    { s with ft := writeCell s.ft index.toNat (entryOfWord v), response := .done } := if_pos h

theorem memWrite_rl (h : index.toNat < 256) : memWrite 3 index v s =
    { s with rl := writeCell s.rl index.toNat (entryOfWord v), response := .done } := if_pos h

theorem memWrite_bs (h : index.toNat < bitsMax s.params) : memWrite 6 index v s =
    { s with bs := writeCell s.bs index.toNat (v.getLsbD 0), response := .done } := if_pos h

theorem memWrite_byBuf (h : index.toNat < byCap s.params) : memWrite 7 index v s =
    { s with byBuf := writeCell s.byBuf index.toNat (v.setWidth 8), response := .done } := if_pos h

end

/-- Settles O41: the equation of each writable space, and read after write of a cell. -/
theorem memWriteReplacesOneElement : Obligations.MemWriteReplacesOneElement := by
  unfold Obligations.MemWriteReplacesOneElement
  intro s index v
  refine ⟨fun h => ?_, fun h => ?_, fun h => ?_, fun h => ?_, fun h => ?_⟩
  · rw [memWrite_txt v h]; exact ⟨rfl, fun j => readCell_writeCell _ _ j _⟩
  · rw [memWrite_ft v h]; exact ⟨rfl, fun j => readCell_writeCell _ _ j _⟩
  · rw [memWrite_rl v h]; exact ⟨rfl, fun j => readCell_writeCell _ _ j _⟩
  · rw [memWrite_bs v h]; exact ⟨rfl, fun j => readCell_writeCell _ _ j _⟩
  · rw [memWrite_byBuf v h]; exact ⟨rfl, fun j => readCell_writeCell _ _ j _⟩

/-! ## The read of each space -/

section
variable (index : BitVec 32) (s : State)

theorem memRead_txt : memRead 1 index s = if index.toNat < textMax s.params then
    answerElement ((elementAt s.txt s.txtLen index.toNat).map (·.setWidth 40))
      ((Config.freeSymbol s.draws).setWidth 40) s else accessError s := rfl

theorem memRead_ft : memRead 2 index s = if index.toNat < 256 then
    answerElement ((elementAt s.ft s.ftLen index.toNat).map wordOfEntry) (Config.freeEntry s.draws) s
    else accessError s := rfl

theorem memRead_rl : memRead 3 index s = if index.toNat < 256 then
    answerElement ((elementAt s.rl s.rlLen index.toNat).map wordOfEntry) (Config.freeEntry s.draws) s
    else accessError s := rfl

theorem memRead_ctl : memRead 4 index s =
    if index.toNat < 256 then readHead index.toNat s else accessError s := rfl

theorem memRead_ctc : memRead 5 index s = if index.toNat < 65536 then
    answerElement ((codeBit index.toNat s).map (fun b => (BitVec.ofBool b).setWidth 40))
      ((BitVec.ofBool (Config.freeBit s.draws)).setWidth 40) s else accessError s := rfl

theorem memRead_bs : memRead 6 index s = if index.toNat < bitsMax s.params then
    answerElement ((elementAt s.bs s.bsLen index.toNat).map (fun b => (BitVec.ofBool b).setWidth 40))
      ((BitVec.ofBool (Config.freeBit s.draws)).setWidth 40) s else accessError s := rfl

theorem memRead_byBuf : memRead 7 index s = if index.toNat < byCap s.params then
    answerElement ((elementAt s.byBuf s.byLen index.toNat).map (·.setWidth 40))
      ((Config.freeByte s.draws).setWidth 40) s else accessError s := rfl

end

/-- An element below the length that holds a value is answered as its layout has it, and no value is drawn. -/
theorem answerElement_held {α : Type} {c : Cells α} {len : Reg32} {i : Nat} {x : α} (hi : i < len.toNat)
    (hx : readCell c i = some x) (layout : α → PortData) (free : PortData) (s : State) :
    answerElement ((elementAt c len i).map layout) free s = answer (layout x) s := by
  rw [elementAt, if_pos hi, hx]; rfl

/-! ## Reading back what was written -/

theorem wordOfEntry_entryOfWord (v : PortData) : wordOfEntry (entryOfWord v) = v :=
  BitVec.extractLsb'_append_extractLsb'_eq_extractLsb' (x := v) rfl |>.trans BitVec.extractLsb'_eq_self

theorem setWidth_setWidth_of_lt {w : Nat} {v : PortData} (h : v.toNat < 2 ^ w) : (v.setWidth w).setWidth 40 = v := by
  refine BitVec.eq_of_toNat_eq ?_
  rw [BitVec.toNat_setWidth, BitVec.toNat_setWidth, Nat.mod_eq_of_lt h, Nat.mod_eq_of_lt v.isLt]

theorem ofBool_getLsbD_zero {w : Nat} (v : BitVec w) : BitVec.ofBool (v.getLsbD 0) = v.setWidth 1 := by
  refine BitVec.eq_of_getLsbD_eq fun i hi => ?_
  obtain rfl : i = 0 := by omega
  simp

/-- Settles O42: the element just written is held, so the read answers it, and its layout undoes the writing's. -/
theorem hostReadsBackWhatItWrote : Obligations.HostReadsBackWhatItWrote := by
  unfold Obligations.HostReadsBackWhatItWrote
  intro s index v
  refine ⟨fun h hl hv => ?_, fun h hl => ?_, fun h hl => ?_, fun h hl hv => ?_, fun h hl hv => ?_⟩
  · rw [memWrite_txt v h, memRead_txt, if_pos h, answerElement_held hl (readCell_writeCell_same _ _ _),
      answer_response, setWidth_setWidth_of_lt hv]
  · rw [memWrite_ft v h, memRead_ft, if_pos h, answerElement_held hl (readCell_writeCell_same _ _ _),
      answer_response, wordOfEntry_entryOfWord]
  · rw [memWrite_rl v h, memRead_rl, if_pos h, answerElement_held hl (readCell_writeCell_same _ _ _),
      answer_response, wordOfEntry_entryOfWord]
  · rw [memWrite_bs v h, memRead_bs, if_pos h, answerElement_held hl (readCell_writeCell_same _ _ _),
      answer_response, ofBool_getLsbD_zero, setWidth_setWidth_of_lt (w := 1) hv]
  · rw [memWrite_byBuf v h, memRead_byBuf, if_pos h, answerElement_held hl (readCell_writeCell_same _ _ _),
      answer_response, setWidth_setWidth_of_lt hv]

/-! ## The addresses that are refused -/

/-- The number of elements of a space (20_memory.md R40). -/
def spaceSize (p : Params) : Space → Nat
  | .csr => 10
  | .txt => textMax p
  | .ft | .rl | .ctl => nsymMax
  | .ctc => 256 * nsymMax
  | .bs => bitsMax p
  | .byBuf => byCap p

/-- The address names no element: its space is none of the eight, or its index is past the end (R44). -/
def NamesNoElement (p : Params) (space : BitVec 4) (index : BitVec 32) : Prop :=
  ∀ sp, spaceOf space = some sp → spaceSize p sp ≤ index.toNat

theorem spaceOf_eq_none {space : BitVec 4} (h : 8 ≤ space.toNat) : spaceOf space = none := by
  unfold spaceOf
  split
  case h_9 => rfl
  all_goals omega

theorem csrOf_eq_none {index : BitVec 32} (h : 10 ≤ index.toNat) : csrOf index = none := by
  unfold csrOf
  split
  case h_11 => rfl
  all_goals omega

theorem namesNoElement_of_space {space : BitVec 4} (h : 8 ≤ space.toNat) (p : Params) (index : BitVec 32) :
    NamesNoElement p space index := by
  intro sp hs
  rw [spaceOf_eq_none h] at hs
  cases hs

theorem namesNoElement_of_index {space : BitVec 4} {sp : Space} {p : Params} {index : BitVec 32}
    (hs : spaceOf space = some sp) (h : spaceSize p sp ≤ index.toNat) : NamesNoElement p space index := by
  intro sp' hs'
  cases hs.symm.trans hs'
  exact h

theorem memRead_refused {s : State} {space : BitVec 4} {index : BitVec 32}
    (h : NamesNoElement s.params space index) : memRead space index s = accessError s := by
  unfold memRead
  cases hs : spaceOf space with
  | none => rfl
  | some sp =>
    have hi := h sp hs
    cases sp with
    | csr => simp only [csrOf_eq_none hi]
    | _ => exact if_neg (Nat.not_lt.2 hi)

theorem memWrite_refused {s : State} {space : BitVec 4} {index : BitVec 32}
    (h : NamesNoElement s.params space index) (v : PortData) : memWrite space index v s = accessError s := by
  unfold memWrite
  cases hs : spaceOf space with
  | none => rfl
  | some sp =>
    have hi := h sp hs
    cases sp with
    | csr => simp only [csrOf_eq_none hi]
    | ctl | ctc => rfl
    | _ => exact if_neg (Nat.not_lt.2 hi)

/-- The capacity a length register is held to (10_state.md R27); `none` for the other registers. -/
def lengthCap (p : Params) : Csr → Option Nat
  | .txtLen => some (textMax p)
  | .ftLen | .rlLen => some nsymMax
  | .bsLen => some (bitsMax p)
  | .byLen => some (byCap p)
  | .status | .padOut | .padIn | .ctCount | .errInfo => none

theorem memWrite_length_refused {s : State} {index : BitVec 32} {r : Csr} {cap : Nat} {n : Reg32}
    (hr : csrOf index = some r) (hcap : lengthCap s.params r = some cap) (h : cap < n.toNat) :
    memWrite 0 index (n.setWidth 40) s = accessError s := by
  have hv : (n.setWidth 40).setWidth 32 = n := by simp
  rw [memWrite_csr hr]
  unfold writeCsr
  simp only [hv]
  cases r <;> cases hcap <;> exact if_neg (Nat.not_le.2 h)

/-- Settles O45: the addresses that name no element, the read-only ones, and the lengths above a capacity. -/
theorem accessErrorsChangeNothing : Obligations.AccessErrorsChangeNothing := by
  unfold Obligations.AccessErrorsChangeNothing
  intro s index v
  refine ⟨fun space h => ?_, fun space h => ?_, memWrite_csr (r := .status) rfl v s,
    memWrite_csr (r := .padOut) rfl v s, memWrite_csr (r := .ctCount) rfl v s, memWrite_csr (r := .errInfo) rfl v s,
    rfl, rfl, fun n => ?_⟩
  · have hn := namesNoElement_of_space h s.params index
    exact ⟨memRead_refused hn, memWrite_refused hn v⟩
  · have hn : NamesNoElement s.params space index := by
      rcases h with ⟨rfl, h⟩ | ⟨rfl, h⟩ | ⟨rfl, h⟩ | ⟨rfl, h⟩ | ⟨rfl, h⟩ | ⟨rfl, h⟩ | ⟨rfl, h⟩ | ⟨rfl, h⟩ <;>
        exact namesNoElement_of_index rfl h
    exact ⟨memRead_refused hn, memWrite_refused hn v⟩
  · exact ⟨memWrite_length_refused (r := .txtLen) rfl rfl, memWrite_length_refused (r := .ftLen) rfl rfl,
      memWrite_length_refused (r := .rlLen) rfl rfl, memWrite_length_refused (r := .bsLen) rfl rfl,
      memWrite_length_refused (r := .byLen) rfl rfl⟩

/-! ## What a read can have done -/

/-- The state after a read: refused, answered with a value, or answered with a value drawn. -/
inductive ReadAnswer (s : State) : State → Prop where
  | refused : ReadAnswer s (accessError s)
  | value (v : PortData) : ReadAnswer s (answer v s)
  | drawn (v : PortData) : ReadAnswer s { answer v s with draws := s.draws + 1 }

theorem answerElement_readAnswer (v : Option PortData) (free : PortData) (s : State) :
    ReadAnswer s (answerElement v free s) := by
  cases v with
  | none => exact .drawn free
  | some v => exact .value v

theorem readHead_readAnswer (i : Nat) (s : State) : ReadAnswer s (readHead i s) := by
  unfold readHead
  split
  · exact answerElement_readAnswer _ _ _
  · split
    · exact answerElement_readAnswer _ _ _
    · exact .value _

theorem ReadAnswer.orRefused {s t : State} (h : ReadAnswer s t) (p : Prop) [Decidable p] :
    ReadAnswer s (if p then t else accessError s) := by
  split
  · exact h
  · exact .refused

theorem memRead_readAnswer (space : BitVec 4) (index : BitVec 32) (s : State) :
    ReadAnswer s (memRead space index s) := by
  unfold memRead
  cases spaceOf space with
  | none => exact .refused
  | some sp =>
    cases sp with
    | csr =>
      cases csrOf index with
      | none => exact .refused
      | some r => exact .value _
    | ctl => exact (readHead_readAnswer _ _).orRefused _
    | _ => exact (answerElement_readAnswer _ _ _).orRefused _

theorem ReadAnswer.draws_of_accessError {s t : State} (h : ReadAnswer s t) (hr : t.response = .accessError) :
    t.draws = s.draws := by
  cases h with
  | refused | value => rfl
  | drawn => cases hr

theorem memRead_csr_draws (index : BitVec 32) (s : State) : (memRead 0 index s).draws = s.draws := by
  cases h : csrOf index with
  | none => unfold memRead; simp only [h]; rfl
  | some r => rw [memRead_csr h]; rfl

/-- A read that answers a value the element holds draws none, and neither does one that is refused. -/
theorem draws_of_answer {s t : State} {v : PortData} (h : t = answer v s) (p : Prop) [Decidable p] :
    (if p then t else accessError s).draws = s.draws := by
  subst h
  split <;> rfl

/-- The same for an element of a buffer with a length. -/
theorem draws_of_held {α : Type} {c : Cells α} {len : Reg32} {i : Nat} (hi : i < len.toNat)
    (hx : readCell c i ≠ none) (layout : α → PortData) (free : PortData) (s : State) (p : Prop) [Decidable p] :
    (if p then answerElement ((elementAt c len i).map layout) free s else accessError s).draws = s.draws := by
  obtain ⟨x, hx⟩ := Option.ne_none_iff_exists'.1 hx
  exact draws_of_answer (answerElement_held hi hx layout free s) p

/-! ## CTL and CTC -/

/-- The element of CTL of a symbol that has a code of length `n` (20_memory.md R42). -/
def codeHead (n : Nat) : PortData := (1#1 ++ BitVec.ofNat 8 n).setWidth 40

section
variable {s : State} {ct : Cells Bits} (hct : s.ct = some ct)
include hct

theorem readHead_code {i : Nat} {code : Bits} (h : readCell ct i = some code) :
    readHead i s = answer (codeHead code.length) s := by
  simp [readHead, hct, h, codeHead]

theorem readHead_noCode {i : Nat} (h : readCell ct i = none) : readHead i s =
    answerElement none (((Config.freeHead s.draws).extractLsb' 0 8).setWidth 40) s := by
  simp [readHead, hct, h]

theorem codeBit_code {i : Nat} {code : Bits} (h : readCell ct (i / 256) = some code) :
    codeBit i s = code[i % 256]? := by
  simp [codeBit, hct, h]

end

/-- Settles O46: a read writes the answer and the draw counter, and the counter only for an element that holds no
value. -/
theorem readsHaveNoSideEffect : Obligations.ReadsHaveNoSideEffect := by
  unfold Obligations.ReadsHaveNoSideEffect
  intro s space index
  refine ⟨?_, ?_, (memRead_readAnswer space index s).draws_of_accessError, ?_, ?_, ?_, ?_, ?_, ?_, ?_⟩
  · obtain ⟨r, d, hr⟩ := memRead_eq space index s
    rw [hr]
  · rintro rfl; exact memRead_csr_draws index s
  · rintro rfl hi hx; exact draws_of_held hi hx _ _ s _
  · rintro rfl hi hx; exact draws_of_held hi hx _ _ s _
  · rintro rfl hi hx; exact draws_of_held hi hx _ _ s _
  · rintro rfl c hct hx
    obtain ⟨code, hcode⟩ := Option.ne_none_iff_exists'.1 hx
    exact draws_of_answer (readHead_code hct hcode) _
  · rintro rfl c code hct hcode hk
    rw [memRead_ctc, codeBit_code hct hcode, List.getElem?_eq_getElem hk]
    exact draws_of_answer rfl _
  · rintro rfl hi hx; exact draws_of_held hi hx _ _ s _
  · rintro rfl hi hx; exact draws_of_held hi hx _ _ s _

/-! ## The layouts at the port -/

theorem wordOfEntry_sym (e : Entry) : (wordOfEntry e).extractLsb' 0 8 = e.sym :=
  BitVec.extractLsb'_append_eq_right

theorem wordOfEntry_cnt (e : Entry) : (wordOfEntry e).extractLsb' 8 32 = e.cnt :=
  BitVec.extractLsb'_append_eq_left

/-- The layout of CTL with a code: `valid` above the eight bits of its length. -/
theorem codeHead_layout {n : Nat} (h : n ≤ 255) :
    (codeHead n).getLsbD 8 = true ∧ ((codeHead n).extractLsb' 0 8).toNat = n ∧ (codeHead n).toNat < 2 ^ 9 := by
  have hlen : (BitVec.ofNat 8 n).toNat = n := by
    rw [BitVec.toNat_ofNat]; omega
  have hhead : (codeHead n).toNat = 256 + n := by
    rw [codeHead, BitVec.toNat_setWidth, BitVec.toNat_append, ← Nat.shiftLeft_add_eq_or_of_lt (BitVec.isLt _), hlen]
    exact Nat.mod_eq_of_lt (by omega)
  refine ⟨?_, ?_, by omega⟩
  · rw [codeHead, BitVec.getLsbD_setWidth, BitVec.getLsbD_append]; rfl
  · rw [BitVec.extractLsb'_toNat, hhead]; omega

/-- The layout of CTL without a code: `valid` is clear, whatever the length part is. -/
theorem noCodeHead_layout (len : BitVec 8) :
    (len.setWidth 40).getLsbD 8 = false ∧ (len.setWidth 40).toNat < 2 ^ 9 := by
  refine ⟨by simp, ?_⟩
  rw [BitVec.toNat_setWidth]
  omega

theorem setWidth_ofBool (b : Bit) : (BitVec.ofBool b).setWidth 40 = BitVec.ofNat 40 b.toNat := by
  cases b <;> rfl

/-- Settles O47: what a read of a held element of each space answers, and the layout it has. -/
theorem portLayouts : Obligations.PortLayouts := by
  unfold Obligations.PortLayouts
  intro s index
  refine ⟨fun e hl h hx => ?_, fun e hl h hx => ?_, fun c code hct hcode h hlen => ?_, fun c hct hcode h => ?_,
    fun c code x k b hct hcode hk hb hi => ?_⟩
  · rw [memRead_rl, if_pos h, answerElement_held hl hx]
    exact ⟨_, rfl, wordOfEntry_sym e, wordOfEntry_cnt e⟩
  · rw [memRead_ft, if_pos h, answerElement_held hl hx]
    exact ⟨_, rfl, wordOfEntry_sym e, wordOfEntry_cnt e⟩
  · rw [memRead_ctl, if_pos h, readHead_code hct hcode]
    exact ⟨_, rfl, codeHead_layout hlen⟩
  · rw [memRead_ctl, if_pos h, readHead_noCode hct hcode]
    exact ⟨_, rfl, noCodeHead_layout _⟩
  · have hx : index.toNat / 256 = x.toNat := by omega
    have hbit : codeBit index.toNat s = some b := by
      rw [codeBit_code hct (hx ▸ hcode), ← hb]
      congr 1
      omega
    have hcap : index.toNat < 65536 := by
      have := x.isLt
      omega
    rw [memRead_ctc, if_pos hcap, hbit]
    exact congrArg Response.data (setWidth_ofBool b)

end Sys2Proof.Machine

/-! SUPPORT AND PROOFS. The statements about the encoding (30_encoding.md): decoder and encoder undo each other, the
legal words are the words of the twelve commands, and what the write lines of a host sequence do. -/

namespace Sys2Proof.Machine

/-! ## Decoding and encoding -/

/-- The word of a command decodes to the command (30_encoding.md R60 to R62). -/
@[simp] theorem decode_encode (i : Instr) : decode (encode i) = .ok i := by
  cases i with
  | pack t | unpack t => cases t <;> rfl
  | _ => rfl

theorem decode_eq_ok_iff (w : CmdWord) (i : Instr) : decode w = .ok i ↔ encode i = w :=
  ⟨encode_of_decode, fun h => h ▸ decode_encode i⟩

/-- Settles O1: the two directions are `encode_of_decode` and `decode_encode`. -/
theorem decodeAndEncodeAgree : Obligations.DecodeAndEncodeAgree := by
  unfold Obligations.DecodeAndEncodeAgree
  exact decode_eq_ok_iff

/-- A command is read from its own word, numbered as the opcode table numbers it. -/
theorem decodeTableWord_encode (i : Instr) : decodeTableWord 8 (encode i).toNat = some i := by
  have hlt : (encode i).toNat < 256 := (encode i).isLt
  have hword : (encode i).toNat % 2 ^ 8 = (encode i).toNat := Nat.mod_eq_of_lt hlt
  simp only [decodeTableWord, hword, if_pos hlt, BitVec.ofNat_toNat, BitVec.setWidth_eq, decode_encode]

/-- Settles O2: the twelve legal words are the commands' own encodings; the three illegal ones are decoded. -/
theorem tableWordsDecode : Obligations.TableWordsDecode := by
  unfold Obligations.TableWordsDecode
  exact ⟨decodeTableWord_encode .nop, decodeTableWord_encode .clear, decodeTableWord_encode .count,
    decodeTableWord_encode .sort, decodeTableWord_encode .build, decodeTableWord_encode .derive,
    decodeTableWord_encode .encode, decodeTableWord_encode (.pack false), decodeTableWord_encode (.pack true),
    decodeTableWord_encode (.unpack false), decodeTableWord_encode (.unpack true), decodeTableWord_encode .decode,
    rfl, rfl, rfl⟩

/-! ## The legal words -/

theorem legalWord_iff_encode (w : CmdWord) : LegalWord w ↔ ∃ i, encode i = w := by
  simp only [LegalWord, decode_eq_ok_iff]

/-- OP names an operation up to 9, whatever the T flag (30_encoding.md R61). -/
theorem operationOf_isSome (op : BitVec 4) (t : Bool) : (operationOf op t).isSome = decide (op.toNat ≤ 9) := by
  revert op t; decide

/-- The fields that decode to a command are the well-formed ones. -/
theorem exists_decodeFields_iff (f : CmdFields) : (∃ i, decodeFields f = .ok i) ↔ f.wellFormed = true := by
  unfold decodeFields CmdFields.wellFormed CmdFields.opLegal
  rw [← operationOf_isSome f.op f.t]
  cases f.reservedLegal with
  | false => simp
  | true =>
    cases operationOf f.op f.t with
    | none => simp
    | some i => cases f.tLegal <;> simp

/-- The three conditions of 30_encoding.md R63. -/
theorem not_legalWord_iff (w : CmdWord) : ¬ LegalWord w ↔
    (w.extractLsb' 5 3 ≠ 0#3 ∨ 0xA ≤ (w.extractLsb' 0 4).toNat
      ∨ (w.getLsbD 4 = true ∧ w.extractLsb' 0 4 ≠ 0x7#4 ∧ w.extractLsb' 0 4 ≠ 0x8#4)) := by
  rw [LegalWord, decode, exists_decodeFields_iff]
  simp only [CmdFields.wellFormed, CmdFields.reservedLegal, CmdFields.opLegal, CmdFields.tLegal, fieldsOf]
  grind

/-- The commands of the opcode table, each with both values of its T flag where it has one (30_encoding.md R61). -/
def allCommands : List Instr :=
  [.nop, .clear, .count, .sort, .build, .derive, .encode, .pack false, .pack true, .unpack false, .unpack true, .decode]

theorem mem_allCommands (i : Instr) : i ∈ allCommands := by
  cases i with
  | pack t | unpack t => cases t <;> decide
  | _ => decide

theorem encode_injective : Function.Injective encode :=
  fun i j h => by simpa using congrArg decode h

/-- The words of the twelve commands are the legal ones, and no two are the same. -/
theorem legalWords_spec : (allCommands.map encode).Nodup ∧ (allCommands.map encode).length = 12
    ∧ ∀ w, w ∈ allCommands.map encode ↔ LegalWord w :=
  ⟨List.Nodup.map encode_injective (by decide), rfl, fun w => by
    simp [legalWord_iff_encode, mem_allCommands]⟩

/-! ## A step on an illegal word -/

section
variable {s : State} {w : CmdWord} {rest : List Txn} (hp : s.pending = .cmd w :: rest) (hw : ¬ LegalWord w)
include hp hw

theorem step_illegal_ready (h : s.err = none) : step s = .next { s with
    pending := rest, busy := false, response := .done
    err := some .illegalCommand, errInfo := w.setWidth 32 } := by
  rw [step_illegal hp hw, execIllegal, whenReady_ready (s := beginCommand rest s) h rfl]
  rfl

theorem step_illegal_faulted {e : ErrorCause} (h : s.err = some e) : step s = .next { s with
    pending := rest, busy := false, response := .done } := by
  rw [step_illegal hp hw, execIllegal, whenReady_faulted (s := beginCommand rest s) h]
  rfl

end

/-- Settles O3: the conditions are those of the decoder, and the legal words are the commands' encodings. -/
theorem illegalWordsRaiseIllegalCommand : Obligations.IllegalWordsRaiseIllegalCommand := by
  unfold Obligations.IllegalWordsRaiseIllegalCommand
  exact ⟨not_legalWord_iff, ⟨_, legalWords_spec⟩, fun _ _ _ hp hw =>
    ⟨step_illegal_ready hp hw, fun _ => step_illegal_faulted hp hw⟩⟩

/-! ## A sequence written element by element -/

/-- The cells after the elements of a sequence have been written one by one from index `k` on. -/
def writeCells {α : Type} : Nat → List α → Cells α → Cells α
  | _, [], c => c
  | k, v :: vs, c => writeCells (k + 1) vs (writeCell c k v)

theorem readCell_writeCells {α : Type} (k : Nat) (vs : List α) (c : Cells α) (i : Nat) :
    readCell (writeCells k vs c) i = if k ≤ i ∧ i < k + vs.length then vs[i - k]? else readCell c i := by
  induction vs generalizing k c with
  | nil => rw [writeCells, if_neg (by simp)]
  | cons v vs ih =>
    rw [writeCells, ih, readCell_writeCell, List.length_cons]
    rcases Nat.lt_trichotomy i k with h | rfl | h
    · rw [if_neg (by omega), if_neg (by omega), if_neg (by omega)]
    · simp
    · have hi : i - k = i - (k + 1) + 1 := by omega
      rw [if_neg (by omega : i ≠ k), hi, List.getElem?_cons_succ]
      exact if_congr (by omega) rfl rfl

theorem replaced_writeCells {α : Type} (vs : List α) (c : Cells α) : Replaced c (writeCells 0 vs c) vs := by
  intro i
  simp [readCell_writeCells]

/-! ## The write lines of a host sequence -/

/-- The state after the write lines of a space from index `k` on: one write per element. -/
def memWrites (space : BitVec 4) : Nat → List PortData → State → State
  | _, [], s => s
  | k, v :: vs, s => memWrites space (k + 1) vs (memWrite space (BitVec.ofNat 32 k) v s)

/-- A write of the port does not look at the pending transactions. -/
theorem memWrite_takeTxn (space : BitVec 4) (index : BitVec 32) (v : PortData) (rest : List Txn) (s : State) :
    memWrite space index v (takeTxn rest s) = takeTxn rest (memWrite space index v s) := by
  have hcsr (r : Csr) : writeCsr r v (takeTxn rest s) = takeTxn rest (writeCsr r v s) := by
    cases r with
    | status | padOut | padIn | ctCount | errInfo => rfl
    | _ => simp only [writeCsr, apply_ite (takeTxn rest)]; rfl
  unfold memWrite
  cases spaceOf space with
  | none => rfl
  | some sp =>
    cases sp with
    | csr =>
      cases csrOf index with
      | none => rfl
      | some r => exact hcsr r
    | ctl | ctc => rfl
    | _ => simp only [apply_ite (takeTxn rest)]; rfl

/-- A run through write lines makes the writes, and goes on with what was pending behind them. -/
theorem run_writeLines {space : BitVec 4} {rest : List Txn} (m : Nat) {vs : List PortData} {k : Nat} {s : State}
    (hp : s.pending = writeLines space k vs ++ rest) :
    Sys2Proof.core.run (vs.length + m) s = Sys2Proof.core.run m (memWrites space k vs (takeTxn rest s)) := by
  induction vs generalizing k s with
  | nil =>
    have hs : takeTxn rest s = s := congrArg (fun l => { s with pending := l }) hp.symm
    rw [memWrites, hs, List.length_nil, Nat.zero_add]
  | cons v vs ih =>
    have hstep := step_memWrite hp
    rw [memWrite_takeTxn] at hstep
    rw [List.length_cons, Nat.add_right_comm, run_succ _ hstep, ih rfl, memWrites, memWrite_takeTxn]
    rfl

/-- The write lines of TXT change TXT and the port's answer alone. -/
theorem memWrites_txt (text : List Symbol) {k : Nat} {s : State} (hfit : k + text.length ≤ textMax s.params)
    (hmax : textMax s.params < 2 ^ 32) : ∃ r, memWrites 1 k (text.map (·.setWidth 40)) s =
      { s with txt := writeCells k text s.txt, response := r } := by
  induction text generalizing k s with
  | nil => exact ⟨s.response, rfl⟩
  | cons x text ih =>
    rw [List.length_cons] at hfit
    have hk : (BitVec.ofNat 32 k).toNat = k := toNat_ofNat32 (by omega)
    have hx : (x.setWidth 40).setWidth 8 = x := by simp
    rw [List.map_cons, memWrites, memWrite_txt _ (by omega), hk, hx]
    exact ih (s := { s with txt := writeCell s.txt k x, response := .done }) (by simp; omega) hmax

/-- The line `WR TXT_LEN = n` of a length that fits. -/
theorem memWrite_txtLen {n : Nat} {s : State} (hfit : n ≤ textMax s.params) (hmax : textMax s.params < 2 ^ 32) :
    memWrite 0 (BitVec.ofNat 32 1) (BitVec.ofNat 40 n) s =
      { s with txtLen := BitVec.ofNat 32 n, response := .done } := by
  have hn : (BitVec.ofNat 32 n).toNat = n := toNat_ofNat32 (by omega)
  have hdata : BitVec.ofNat 40 n = (BitVec.ofNat 32 n).setWidth 40 := by
    apply BitVec.eq_of_toNat_eq
    rw [BitVec.toNat_setWidth, hn, BitVec.toNat_ofNat]
  obtain ⟨htxtLen, _⟩ := lengthAndPadInWrites s (BitVec.ofNat 32 n)
  rw [hdata]
  exact htxtLen (by omega)

theorem textMax_lt {p : Params} (h : paramsLegal p) : textMax p < 2 ^ 32 := by
  obtain ⟨_, _, hbits⟩ := h
  exact hbits

/-- Settles O48: the lines of TXT write its elements one by one, and the last line its length. -/
theorem hostLinesLoadTheText : Obligations.HostLinesLoadTheText := by
  unfold Obligations.HostLinesLoadTheText
  intro s text rest hfit hlegal hp
  have hmax := textMax_lt hlegal
  have hlen : (BitVec.ofNat 32 text.length).toNat = text.length := toNat_ofNat32 (by omega)
  have hread := replaced_writeCells text s.txt
  obtain ⟨r, hwrites⟩ := memWrites_txt text (k := 0) (s := takeTxn (writeReg 1 text.length :: rest) s)
    (by simpa using hfit) hmax
  have hrun := run_writeLines 1 hp
  rw [List.length_map, hwrites, run_succ 0 (step_memWrite rfl), run_zero] at hrun
  rw [memWrite_txtLen (by exact hfit) (by exact hmax)] at hrun
  exact ⟨_, hrun, rfl, hlen, content_of_holdsPrefix hread.holdsPrefix hlen, hread⟩

end Sys2Proof.Machine

/-! SUPPORT AND PROOFS. The statements about the frequency sorter (40_frequency_sorter.md): the table COUNT leaves,
the ranking SORT leaves, what the two in succession guarantee, and what a result leaves beyond itself. -/

namespace Sys2Proof.Machine

/-! ## COUNT -/

/-- The empty text (40_frequency_sorter.md R81). -/
theorem countBody_empty {s : State} (h : s.txtLen = 0) :
    countBody s = { s with err := some .emptyInput, errInfo := 0, ftLen := 0, ft := [] } := by
  rw [countBody, if_pos h]
  rfl

theorem countBody_text {s : State} (h : s.txtLen ≠ 0) :
    countBody s = { s with
      ft := writePrefix s.ft (countText (txtContent s))
      ftLen := BitVec.ofNat 32 (countText (txtContent s)).length } := by
  rw [countBody, if_neg h]

theorem txtHeld_of_empty {s : State} (h : s.txtLen = 0) : txtHeld s = true := by
  rw [txtHeld, h]
  rfl

theorem txtContent_ne_nil {s : State} (h : s.txtLen ≠ 0) (hh : txtHeld s = true) : txtContent s ≠ [] := by
  intro hnil
  have hlen := txtContent_length hh
  rw [hnil] at hlen
  exact h (BitVec.eq_of_toNat_eq hlen.symm)

/-- The length of a table fits its register: there are at most 256 symbols. -/
theorem toNat_countText_length (s : State) :
    (BitVec.ofNat 32 (countText (txtContent s)).length).toNat = (countText (txtContent s)).length :=
  toNat_ofNat32 (lt_of_le_of_lt (countText_length_le _ (txtContent_lt s)) (by omega))

/-- Every symbol of the table occurs in the text. -/
theorem countText_cnt_pos {text : List Symbol} (hlen : text.length < 2 ^ 32) {e : Entry} (he : e ∈ countText text) :
    1 ≤ e.cnt.toNat := by
  obtain ⟨_, hmem, _, hcount⟩ := countText_spec text hlen
  rw [hcount e he]
  exact List.count_pos_iff.2 ((hmem _).1 (List.mem_map_of_mem he))

/-- Settles O20: the loop of COUNT is `countText`, whose table the laws of the sorter describe. -/
theorem countBuildsTheFrequencyTable : Obligations.CountBuildsTheFrequencyTable := by
  unfold Obligations.CountBuildsTheFrequencyTable
  intro s hs
  refine ⟨fun hempty => ?_, fun htext hheld => ?_⟩
  · rw [exec_ready (i := .count) rfl hs (txtHeld_of_empty hempty), countBody_empty hempty]
  · have hlt := txtContent_lt s
    obtain ⟨hnodup, hmem, horder, hcount⟩ := countText_spec _ hlt
    refine ⟨_, countText (txtContent s), exec_ready (i := .count) rfl hs hheld, ?_⟩
    rw [countBody_text htext]
    exact ⟨rfl, holdsPrefix_writePrefix _ _, toNat_countText_length s,
      countText_pos _ hlt (txtContent_ne_nil htext hheld), countText_length_le _ hlt, hnodup, hmem, horder,
      fun e he => ⟨hcount e he, countText_cnt_pos hlt he⟩,
      (countText_sum _ hlt).trans (txtContent_length hheld)⟩

/-! ## SORT -/

/-- Settles O21: the sort is `rankEntries`, whose result the laws of the sorter describe. -/
theorem sortRanksTheFrequencyTable : Obligations.SortRanksTheFrequencyTable := by
  unfold Obligations.SortRanksTheFrequencyTable
  intro s hs hheld
  obtain ⟨hperm, hdescending, hstable⟩ := rankEntries_spec (ftContent s)
  exact ⟨sortBody s, rankEntries (ftContent s), exec_ready (i := .sort) rfl hs hheld, rfl,
    holdsPrefix_writePrefix _ _, (rankEntries_length _).trans (ftContent_length hheld), hperm, hdescending, hstable⟩

/-- The three properties of 40_frequency_sorter.md R82 leave one list. -/
theorem eq_rankEntries {ft rl : List Entry} (hperm : rl.Perm ft)
    (hdescending : rl.Pairwise (fun a b => b.cnt.toNat ≤ a.cnt.toNat))
    (hstable : ∀ k : Nat, rl.filter (fun e => e.cnt.toNat = k) = ft.filter (fun e => e.cnt.toNat = k)) :
    rl = rankEntries ft := by
  obtain ⟨rperm, rdescending, rstable⟩ := rankEntries_spec ft
  exact stable_unique (fun e : Entry => e.cnt.toNat) _ _ (hperm.trans rperm.symm) hdescending rdescending
    (fun k => (hstable k).trans (rstable k).symm)

/-- Settles O22: the library's sort has the three properties that leave one list. -/
theorem rankingIsTheStableSort : Obligations.RankingIsTheStableSort := by
  unfold Obligations.RankingIsTheStableSort
  exact ⟨fun _ _ => eq_rankEntries, fun ft => (eq_rankEntries (List.mergeSort_perm ft _)
    (mergeSort_descending (fun e : Entry => e.cnt.toNat) ft)
    (mergeSort_filter (fun e : Entry => e.cnt.toNat) ft)).symm⟩

/-! ## COUNT and SORT in succession -/

theorem ftContent_countBody {s : State} (h : s.txtLen ≠ 0) : ftContent (countBody s) = countText (txtContent s) := by
  rw [countBody_text h]
  exact content_of_prefix _ _ (toNat_countText_length s)

theorem ftHeld_countBody {s : State} (h : s.txtLen ≠ 0) : ftHeld (countBody s) = true := by
  rw [countBody_text h]
  exact allWritten_of_prefix _ _ (toNat_countText_length s)

theorem countBody_err {s : State} (h : s.txtLen ≠ 0) : (countBody s).err = s.err := by
  rw [countBody_text h]

/-- The new RL_LEN is the length of the ranking when FT is held. -/
theorem ftLen_eq_rankEntries_length {s : State} (h : ftHeld s = true) :
    s.ftLen.toNat = (rankEntries (ftContent s)).length :=
  (ftContent_length h).symm.trans (rankEntries_length _).symm

theorem rlContent_sortBody {s : State} (h : ftHeld s = true) : rlContent (sortBody s) = rankEntries (ftContent s) :=
  content_of_prefix _ _ (ftLen_eq_rankEntries_length h)

theorem rlHeld_sortBody {s : State} (h : ftHeld s = true) : rlHeld (sortBody s) = true :=
  allWritten_of_prefix _ _ (ftLen_eq_rankEntries_length h)

/-- The ranking of a text's table is what BUILD asks for: distinct symbols and counts of at least 1. -/
theorem rankEntries_countText_wellFormed {text : List Symbol} (hlen : text.length < 2 ^ 32) :
    ((rankEntries (countText text)).map Entry.sym).Nodup
      ∧ ∀ e ∈ rankEntries (countText text), 1 ≤ e.cnt.toNat := by
  obtain ⟨hperm, _, _⟩ := rankEntries_spec (countText text)
  obtain ⟨hnodup, _, _, _⟩ := countText_spec text hlen
  exact ⟨(hperm.map _).nodup_iff.2 hnodup, fun e he => countText_cnt_pos hlen (hperm.mem_iff.1 he)⟩

/-- Settles O23: SORT reads the table COUNT wrote, and a ranking keeps what COUNT guarantees of its entries. -/
theorem countAndSortFeedBuild : Obligations.CountAndSortFeedBuild := by
  unfold Obligations.CountAndSortFeedBuild
  intro s hs htext hheld
  have hlt := txtContent_lt s
  have herr : (countBody s).err = none := (countBody_err htext).trans hs
  have hft := ftHeld_countBody htext
  have hrl : rlContent (sortBody (countBody s)) = rankEntries (countText (txtContent s)) := by
    rw [rlContent_sortBody hft, ftContent_countBody htext]
  have hrlHeld := rlHeld_sortBody hft
  have hlen : (sortBody (countBody s)).rlLen.toNat = (countText (txtContent s)).length := by
    rw [← rlContent_length hrlHeld, hrl, rankEntries_length]
  obtain ⟨hnodup, hpos⟩ := rankEntries_countText_wellFormed hlt
  obtain ⟨_, hdescending, _⟩ := rankEntries_spec (countText (txtContent s))
  refine ⟨countBody s, sortBody (countBody s), exec_ready (i := .count) rfl hs hheld,
    exec_ready (i := .sort) rfl herr hft, herr, hrlHeld, ?_⟩
  rw [hrl, hlen]
  exact ⟨countText_pos _ hlt (txtContent_ne_nil htext hheld), countText_length_le _ hlt, hnodup, hpos, hdescending,
    wellFormed_of hpos hdescending hnodup, rfl⟩

/-! ## What a result leaves beyond itself -/

/-- A buffer reads as before at and above a length. -/
def SameBeyond {α : Type} (len : Reg32) (before after : Cells α) : Prop :=
  ∀ k, len.toNat ≤ k → readCell after k = readCell before k

/-- A result laid over a buffer leaves the elements at and above its length register. -/
theorem sameBeyond_writePrefix {α : Type} (c : Cells α) {vs : List α} {len : Reg32} (h : vs.length ≤ len.toNat) :
    SameBeyond len c (writePrefix c vs) := fun k hk => by
  rw [readCell_writePrefix, if_neg (by omega)]

/-- A result whose length is the new length register. -/
theorem sameBeyond_result {α : Type} (c : Cells α) {vs : List α} (h : vs.length < 2 ^ 32) :
    SameBeyond (BitVec.ofNat 32 vs.length) c (writePrefix c vs) :=
  sameBeyond_writePrefix c (toNat_ofNat32 h).ge

section
variable {i : Instr} {s t : State} (heff : BodyEffect i s t) (ht : t.err = none)
include heff ht

theorem BodyEffect.ft_beyond :
    (i ≠ .count → t.ft = s.ft) ∧ (i = .count → SameBeyond t.ftLen s.ft t.ft) := by
  cases heff with
  | raised => simp at ht
  | count vs hv => exact ⟨fun h => absurd rfl h, fun _ => sameBeyond_result _ (lt_of_le_of_lt hv (by decide))⟩
  | _ => exact ⟨fun _ => rfl, nofun⟩

theorem BodyEffect.rl_beyond :
    (i ≠ .sort → t.rl = s.rl) ∧ (i = .sort → SameBeyond t.rlLen s.rl t.rl) := by
  cases heff with
  | raised => simp at ht
  | sort vs hv => exact ⟨fun h => absurd rfl h, fun _ => sameBeyond_writePrefix _ hv⟩
  | _ => exact ⟨fun _ => rfl, nofun⟩

/-- BS_LEN can hold the length of a bitstring when BITS_MAX fits it. -/
theorem BodyEffect.bs_beyond :
    (i ≠ .encode → (∀ flag, i ≠ .unpack flag) → t.bs = s.bs)
      ∧ (i = .encode → bitsMax s.params < 2 ^ 32 → SameBeyond t.bsLen s.bs t.bs)
      ∧ ∀ flag, i = .unpack flag → bitsMax s.params < 2 ^ 32 → SameBeyond t.bsLen s.bs t.bs := by
  cases heff with
  | raised => simp at ht
  | encode vs hv =>
    exact ⟨fun h => absurd rfl h, fun _ hmax => sameBeyond_result _ (lt_of_le_of_lt hv hmax), nofun⟩
  | unpack flag vs pad hv _ =>
    exact ⟨fun _ h => absurd rfl (h flag), nofun, fun _ _ hmax => sameBeyond_result _ (lt_of_le_of_lt hv hmax)⟩
  | _ => exact ⟨fun _ _ => rfl, nofun, nofun⟩

theorem BodyEffect.byBuf_beyond :
    ((∀ flag, i ≠ .pack flag) → t.byBuf = s.byBuf)
      ∧ ∀ flag, i = .pack flag → SameBeyond t.byLen s.byBuf t.byBuf := by
  cases heff with
  | raised => simp at ht
  | pack flag vs pad hv =>
    have hbits := s.bsLen.isLt
    exact ⟨fun h => absurd rfl (h flag), fun _ _ => sameBeyond_result _ (by omega)⟩
  | _ => exact ⟨fun _ => rfl, nofun⟩

theorem BodyEffect.txt_beyond :
    (i ≠ .decode → t.txt = s.txt) ∧ (i = .decode → SameBeyond t.txtLen s.txt t.txt) := by
  cases heff with
  | raised => simp at ht
  | decode vs hv => exact ⟨fun h => absurd rfl h, fun _ => sameBeyond_result _ (lt_of_le_of_lt hv s.bsLen.isLt)⟩
  | _ => exact ⟨fun _ => rfl, nofun⟩

end

/-- A command other than CLEAR leaves the state as it was or has the effect of its body. -/
theorem exec_eq_or_effect {i : Instr} {s t : State} (hx : exec i s = .next t) (hi : i ≠ .clear) :
    t = s ∨ BodyEffect i s t := by
  rcases exec_effect hx with ⟨_, rfl⟩ | ⟨rfl, _⟩ | ⟨_, rfl⟩ | ⟨_, heff⟩
  · exact .inl rfl
  · exact absurd rfl hi
  · exact .inl rfl
  · exact .inr heff

/-- Settles O53: buffer by buffer, from the effect of the command's body. -/
theorem elementsBeyondAResultStay : Obligations.ElementsBeyondAResultStay := by
  unfold Obligations.ElementsBeyondAResultStay
  intro i s t hx ht
  by_cases hi : i = .clear
  · subst hi
    simp
  rcases exec_eq_or_effect hx hi with rfl | heff
  · simp
  obtain ⟨ftOther, ftCount⟩ := heff.ft_beyond ht
  obtain ⟨rlOther, rlSort⟩ := heff.rl_beyond ht
  obtain ⟨bsOther, bsEncode, bsUnpack⟩ := heff.bs_beyond ht
  obtain ⟨byOther, byPack⟩ := heff.byBuf_beyond ht
  obtain ⟨txtOther, txtDecode⟩ := heff.txt_beyond ht
  exact ⟨fun _ => ftOther, fun _ => rlOther, fun _ => bsOther, fun _ => byOther, fun _ => txtOther,
    ftCount, rlSort, bsEncode, byPack, bsUnpack, txtDecode⟩

end Sys2Proof.Machine

/-! SUPPORT AND PROOFS. The statements about the tree builder (41_tree_builder.md): the three outcomes of BUILD, what a
merge does to the work list, and that the tree is a function of the ranked list. -/

namespace Sys2Proof.Machine

/-- The converse of `exec_ready`: a command that gives a next state with no error recorded before has found what it
reads held, and has run its body. -/
theorem exec_next_of_body {i : Instr} {body : State → State} (hb : bodyOf i = some body) {s t : State}
    (hs : s.err = none) (hx : exec i s = .next t) : heldFor i s = true ∧ t = body s := by
  rw [exec_of_body hb] at hx
  obtain ⟨_, hheld, ht⟩ | ⟨⟨e, he⟩, _⟩ := whenReady_next hx
  · exact ⟨hheld, ht⟩
  · rw [hs] at he
    cases he

/-! ## The ranked list BUILD reads -/

theorem rlHeld_of_empty {s : State} (h : s.rlLen = 0) : rlHeld s = true := by
  rw [rlHeld, h]
  rfl

theorem rlContent_ne_nil {s : State} (h : s.rlLen ≠ 0) (hh : rlHeld s = true) : rlContent s ≠ [] := by
  intro hnil
  have hlen := rlContent_length hh
  rw [hnil] at hlen
  exact h (BitVec.eq_of_toNat_eq hlen.symm)

theorem IllFormedEntry.lt_rlLen {s : State} {i : Nat} (h : IllFormedEntry (rlContent s) i) : i < s.rlLen.toNat :=
  lt_of_lt_of_le h.lt (rlContent_length_le s)

theorem IllFormedEntry.rlLen_ne_zero {s : State} {i : Nat} (h : IllFormedEntry (rlContent s) i) : s.rlLen ≠ 0 := by
  intro hempty
  have hlt := h.lt_rlLen
  rw [hempty] at hlt
  exact Nat.not_lt_zero i hlt

/-- An ill-formed index fits ERR_INFO. -/
theorem IllFormedEntry.toNat_ofNat {s : State} {i : Nat} (h : IllFormedEntry (rlContent s) i) :
    (BitVec.ofNat 32 i).toNat = i :=
  toNat_ofNat32 (h.lt_rlLen.trans s.rlLen.isLt)

theorem exists_first_illFormed {rl : List Entry} (h : ∃ i, IllFormedEntry rl i) :
    ∃ i, IllFormedEntry rl i ∧ ∀ j < i, ¬ IllFormedEntry rl j := by
  classical
  exact ⟨Nat.find h, Nat.find_spec h, fun _ => Nat.find_min h⟩

/-! ## The outcomes of BUILD -/

theorem buildBody_empty {s : State} (h : s.rlLen = 0) :
    buildBody s = { s with err := some .emptyHeap, errInfo := 0, tree := none } := by
  rw [buildBody, if_pos h]
  rfl

theorem buildBody_illFormed {s : State} {i : Nat} (h : IllFormedEntry (rlContent s) i)
    (hfirst : ∀ j < i, ¬ IllFormedEntry (rlContent s) j) :
    buildBody s = { s with err := some .badList, errInfo := BitVec.ofNat 32 i, tree := none } := by
  rw [buildBody, if_neg h.rlLen_ne_zero, (firstIllFormed_eq_some _ i).2 ⟨h, hfirst⟩]
  rfl

theorem buildBody_wellFormed {s : State} (h : s.rlLen ≠ 0) (hwf : ∀ i, ¬ IllFormedEntry (rlContent s) i) :
    buildBody s = { s with tree := buildTree (rlContent s) } := by
  rw [buildBody, if_neg h, (firstIllFormed_eq_none _).2 hwf]

/-- Where BUILD ends with no error its list is not empty and has no ill-formed entry. -/
theorem wellFormed_of_buildBody {s : State} (h : (buildBody s).err = none) :
    s.rlLen ≠ 0 ∧ ∀ i, ¬ IllFormedEntry (rlContent s) i := by
  constructor
  · intro hempty
    simp [buildBody_empty hempty] at h
  · by_contra hill
    obtain ⟨i, hi, hfirst⟩ := exists_first_illFormed (not_forall_not.1 hill)
    simp [buildBody_illFormed hi hfirst] at h

/-- Settles O24: an outcome of BUILD for each clause, and of a well-formed list the tree that `buildTree_spec`
describes. -/
theorem buildFollowsTheMergeRule : Obligations.BuildFollowsTheMergeRule := by
  unfold Obligations.BuildFollowsTheMergeRule
  intro s hs
  refine ⟨fun hempty => ?_, fun hlen hheld hwf => ?_, fun _ hheld hill => ?_⟩
  · rw [exec_ready (i := .build) rfl hs (rlHeld_of_empty hempty), buildBody_empty hempty]
  · obtain ⟨tr, htree, hbuilds, hsymbols, hweight, _⟩ := buildTree_spec (rlContent_ne_nil hlen hheld) hwf
    refine ⟨tr, ?_, hbuilds, hsymbols, hweight⟩
    rw [exec_ready (i := .build) rfl hs hheld, buildBody_wellFormed hlen hwf, htree]
  · obtain ⟨i, hi, hfirst⟩ := exists_first_illFormed hill
    refine ⟨_, i, exec_ready (i := .build) rfl hs hheld, ?_⟩
    rw [buildBody_illFormed hi hfirst]
    exact ⟨rfl, hi.toNat_ofNat, hi, hfirst⟩

/-- Settles O25: the check reports the first ill-formed index, and a list that passes it has distinct symbols, which
the merges keep. -/
theorem buildReportsTheFirstIllFormedEntry : Obligations.BuildReportsTheFirstIllFormedEntry := by
  unfold Obligations.BuildReportsTheFirstIllFormedEntry
  refine ⟨fun s i hs hheld hi hfirst => ?_, fun s t hs hx ht => ?_⟩
  · refine ⟨_, exec_ready (i := .build) rfl hs hheld, buildBody_illFormed hi hfirst, ?_⟩
    rw [buildBody_illFormed hi hfirst]
    exact hi.toNat_ofNat
  · obtain ⟨hheld, rfl⟩ := exec_next_of_body (i := .build) rfl hs hx
    obtain ⟨hlen, hwf⟩ := wellFormed_of_buildBody ht
    obtain ⟨_, _, hnodup⟩ := wellFormed_list hwf
    obtain ⟨tr, htree, _, _, _, hok⟩ := buildTree_spec (rlContent_ne_nil hlen hheld) hwf
    rw [buildBody_wellFormed hlen hwf]
    exact ⟨hnodup, tr, htree, hok.symbols⟩

/-! ## The work list -/

/-- Ordered insertion behind ties is the stable descending sort of the list with the new entry appended. -/
theorem insertTiesLast_eq_mergeSort {α : Type} {key : α → Nat} {l : List α}
    (hl : l.Pairwise (fun a b => key b ≤ key a)) (e : α) :
    insertTiesLast key e l = (l ++ [e]).mergeSort (fun a b => decide (key b ≤ key a)) := by
  apply stable_unique key
  · exact (insertTiesLast_perm key e l).trans
      ((List.perm_append_singleton e l).symm.trans (List.mergeSort_perm _ _).symm)
  · exact insertTiesLast_pairwise hl e
  · exact mergeSort_descending key _
  · intro k
    rw [insertTiesLast_filter hl, mergeSort_filter, List.filter_append]

/-- Settles O26: the first wording is `insertTiesLast_split`, the second `insertTiesLast_eq_mergeSort`. -/
theorem tiesLastIsTheStableResort : Obligations.TiesLastIsTheStableResort := by
  unfold Obligations.TiesLastIsTheStableResort
  intro wl new hwl
  exact ⟨insertTiesLast_split hwl new, insertTiesLast_eq_mergeSort hwl new⟩

theorem mergeStep_of_length_le_one {wl : List Tree} (h : wl.length ≤ 1) : mergeStep wl = wl := by
  match wl, h with
  | [], _ => rfl
  | [_], _ => rfl

theorem mergeStep_pairwise {wl : List Tree}
    (h : wl.Pairwise (fun a b => (treeWeight b).toNat ≤ (treeWeight a).toNat)) :
    (mergeStep wl).Pairwise (fun a b => (treeWeight b).toNat ≤ (treeWeight a).toNat) := by
  rcases Nat.lt_or_ge 1 wl.length with htwo | hone
  · obtain ⟨pre, before, last, rfl⟩ := last_two htwo
    rw [mergeStep_append]
    exact insertTiesLast_pairwise (List.pairwise_append.1 h).1 _
  · rwa [mergeStep_of_length_le_one hone]

/-- Settles O28: a merge is an ordered insertion into the list without its two last entries. -/
theorem mergesKeepTheWorkListDescending : Obligations.MergesKeepTheWorkListDescending := by
  unfold Obligations.MergesKeepTheWorkListDescending
  intro wl hwl
  refine ⟨mergeStep_pairwise hwl, ?_⟩
  rintro pre before last rfl
  obtain ⟨_, hpair, hlighter⟩ := List.pairwise_append.1 hwl
  refine ⟨?_, fun x hx => hlighter x hx before (by simp), List.rel_of_pairwise_cons hpair (by simp)⟩
  rw [mergeStep_append, insertTiesLast_length]

/-! ## What the tree depends on -/

/-- BUILD looks at the ranked list alone: what it writes is the same in two states with the same list, ERR_INFO where
it writes it. -/
theorem buildBody_congr {s u : State} (hs : s.err = none) (hu : u.err = none) (hlen : s.rlLen = u.rlLen)
    (hrl : rlContent s = rlContent u) :
    (buildBody s).tree = (buildBody u).tree ∧ (buildBody s).err = (buildBody u).err
      ∧ (s.errInfo = u.errInfo ∨ (buildBody s).err ≠ none → (buildBody s).errInfo = (buildBody u).errInfo) := by
  by_cases hempty : s.rlLen = 0
  · rw [buildBody_empty hempty, buildBody_empty (hlen ▸ hempty)]
    exact ⟨rfl, rfl, fun _ => rfl⟩
  by_cases hwf : ∀ i, ¬ IllFormedEntry (rlContent s) i
  · rw [buildBody_wellFormed hempty hwf, buildBody_wellFormed (hlen ▸ hempty) (hrl ▸ hwf)]
    exact ⟨congrArg buildTree hrl, hs.trans hu.symm, fun hinfo => hinfo.resolve_right (not_not.2 hs)⟩
  · obtain ⟨i, hi, hfirst⟩ := exists_first_illFormed (not_forall_not.1 hwf)
    rw [buildBody_illFormed hi hfirst, buildBody_illFormed (hrl ▸ hi) (hrl ▸ hfirst)]
    exact ⟨rfl, rfl, fun _ => rfl⟩

/-- Two entries of one count, in their two orders: the tree has the later one on the left. -/
theorem buildTree_depends_on_order : ∃ p q : List Entry, p.Perm q ∧ (∀ i, ¬ IllFormedEntry p i)
    ∧ (∀ i, ¬ IllFormedEntry q i) ∧ buildTree p ≠ buildTree q :=
  ⟨[⟨0x61, 1⟩, ⟨0x62, 1⟩], [⟨0x62, 1⟩, ⟨0x61, 1⟩], .swap _ _ _, (firstIllFormed_eq_none _).1 (by decide),
    (firstIllFormed_eq_none _).1 (by decide), by decide⟩

/-- Settles O27: both states run BUILD's body, on one list. -/
theorem buildDependsOnTheRankedListAlone : Obligations.BuildDependsOnTheRankedListAlone := by
  unfold Obligations.BuildDependsOnTheRankedListAlone
  refine ⟨fun s u s' u' hs hu hlen hcells hxs hxu => ?_, buildTree_depends_on_order⟩
  have hrl : rlContent s = rlContent u := by
    rw [rlContent, rlContent, ← hlen]
    exact content_congr (fun i hi => (hcells i hi).1)
  obtain ⟨_, rfl⟩ := exec_next_of_body (i := .build) rfl hs hxs
  obtain ⟨_, rfl⟩ := exec_next_of_body (i := .build) rfl hu hxu
  exact buildBody_congr hs hu hlen hrl

end Sys2Proof.Machine

/-! SUPPORT AND PROOFS. The statements about the code table deriver (42_code_table_deriver.md): who can leave a new
table or tree, the table DERIVE leaves, that none of its codes begins another, and that they are complete. -/

namespace Sys2Proof.Machine

/-! ## The outcomes of DERIVE -/

theorem deriveBody_noTree {s : State} (h : s.tree = none) :
    deriveBody s = { s with err := some .emptyTree, errInfo := 0, ct := none, ctCount := 0 } := by
  have hraise : deriveBody s = raise .ct .emptyTree 0 s := by
    unfold deriveBody
    rw [h]
  exact hraise

theorem deriveBody_tree {s : State} {tr : Tree} (h : s.tree = some tr) : deriveBody s = { s with
    ct := some (codeTable tr), ctCount := BitVec.ofNat 32 (codeTable tr).length, tree := none } := by
  unfold deriveBody
  rw [h]

/-- DERIVE reads no buffer, so nothing but a recorded error keeps it from running. -/
theorem exec_derive {s : State} (h : s.err = none) : exec .derive s = .next (deriveBody s) :=
  exec_ready (i := .derive) rfl h rfl

/-! ## Where a new table or tree comes from (R105) -/

theorem BodyEffect.new_table {i : Instr} {s t : State} (heff : BodyEffect i s t) (hne : t.ct ≠ s.ct)
    (hvalid : t.ct ≠ none) : i = .derive ∧ ∃ tr, s.tree = some tr ∧ t.ct = some (codeTable tr) := by
  cases heff with
  | raised info pad hr _ =>
    cases hr with
    | deriveEmptyTree => exact absurd rfl hvalid
    | _ => exact absurd rfl hne
  | derive tr htree => exact ⟨rfl, tr, htree, rfl⟩
  | _ => exact absurd rfl hne

theorem exec_new_table {i : Instr} {s t : State} (hx : exec i s = .next t) (hne : t.ct ≠ s.ct)
    (hvalid : t.ct ≠ none) : i = .derive ∧ ∃ tr, s.tree = some tr ∧ t.ct = some (codeTable tr) := by
  rcases exec_effect hx with ⟨_, rfl⟩ | ⟨_, rfl⟩ | ⟨_, rfl⟩ | ⟨_, heff⟩
  · exact absurd rfl hne
  · exact absurd rfl hvalid
  · exact absurd rfl hne
  · exact heff.new_table hne hvalid

theorem BodyEffect.new_tree {i : Instr} {s t : State} (heff : BodyEffect i s t) (hs : s.err = none)
    (hne : t.tree ≠ s.tree) (hvalid : t.tree ≠ none) : i = .build ∧ t.err = none := by
  rcases heff.tree hs with hsame | ⟨hi, ⟨_, herr⟩ | ⟨hnone, _⟩⟩ | ⟨_, hnone, _⟩
  · exact absurd hsame hne
  · exact ⟨hi, herr⟩
  · exact absurd hnone hvalid
  · exact absurd hnone hvalid

theorem exec_new_tree {i : Instr} {s t : State} (hx : exec i s = .next t) (hne : t.tree ≠ s.tree)
    (hvalid : t.tree ≠ none) : i = .build ∧ rlHeld s = true ∧ t.tree = buildTree (rlContent s) := by
  rcases exec_effect hx with ⟨_, rfl⟩ | ⟨_, rfl⟩ | ⟨_, rfl⟩ | ⟨hs, heff⟩
  · exact absurd rfl hne
  · exact absurd rfl hvalid
  · exact absurd rfl hne
  · obtain ⟨rfl, herr⟩ := heff.new_tree hs hne hvalid
    obtain ⟨hheld, rfl⟩ := exec_next_of_body (i := .build) rfl hs hx
    obtain ⟨hlen, hwf⟩ := wellFormed_of_buildBody herr
    exact ⟨rfl, hheld, by rw [buildBody_wellFormed hlen hwf]⟩

theorem execIllegal_tables {w : CmdWord} {s t : State} (hx : execIllegal w s = .next t) :
    t.ct = s.ct ∧ t.tree = s.tree := by
  rcases whenReady_next hx with ⟨_, _, rfl⟩ | ⟨_, rfl⟩ <;> exact ⟨rfl, rfl⟩

/-- A step leaves the table and the tree alone or drops both, unless it executes a command. -/
theorem step_tables {s t : State} (h : step s = .next t) :
    (t.ct = s.ct ∧ t.tree = s.tree) ∨ (t.ct = none ∧ t.tree = none)
      ∨ ∃ w rest i u, s.pending = .cmd w :: rest ∧ decode w = .ok i ∧ exec i (beginCommand rest s) = .next u
          ∧ t = endCommand u := by
  rcases step_cases h with ⟨_, rfl⟩ | hcommand | ⟨_, _, _, _, _, hx, rfl⟩ | ⟨space, index, rest, _, rfl⟩ |
    ⟨space, index, v, rest, _, rfl⟩ | ⟨rest, _, rfl⟩
  · exact .inl ⟨rfl, rfl⟩
  · exact .inr (.inr hcommand)
  · obtain ⟨hct, htree⟩ := execIllegal_tables hx
    exact .inl ⟨hct, htree⟩
  · obtain ⟨r, d, hr⟩ := memRead_eq space index (takeTxn rest s)
    rw [hr]
    exact .inl ⟨rfl, rfl⟩
  · obtain ⟨_, _, _, _, _, _, hct, htree, _⟩ := memWrite_frame space index v (takeTxn rest s)
    exact .inl ⟨hct, htree⟩
  · exact .inr (.inl ⟨rfl, rfl⟩)

/-- Settles O18: a step that leaves a new table or tree executes a command, which is then DERIVE or BUILD. -/
theorem tablesAreNeverLoadedFromOutside : Obligations.TablesAreNeverLoadedFromOutside := by
  unfold Obligations.TablesAreNeverLoadedFromOutside
  intro s t hstep
  refine ⟨fun hne hvalid => ?_, fun hne hvalid => ?_, fun space index v rest hp => ?_⟩
  · rcases step_tables hstep with ⟨hct, _⟩ | ⟨hct, _⟩ | ⟨w, rest, i, u, hp, hd, hx, rfl⟩
    · exact absurd hct hne
    · exact absurd hct hvalid
    · obtain ⟨rfl, hct⟩ := exec_new_table hx hne hvalid
      exact ⟨issuesCommand_of_decode hp hd (by decide), hct⟩
  · rcases step_tables hstep with ⟨_, htree⟩ | ⟨_, htree⟩ | ⟨w, rest, i, u, hp, hd, hx, rfl⟩
    · exact absurd htree hne
    · exact absurd htree hvalid
    · obtain ⟨rfl, htree⟩ := exec_new_tree hx hne hvalid
      exact ⟨issuesCommand_of_decode hp hd (by decide), htree⟩
  · rw [step_memWrite hp] at hstep
    cases hstep
    obtain ⟨_, _, _, _, _, _, hct, htree, _⟩ := memWrite_frame space index v (takeTxn rest s)
    exact ⟨hct, htree⟩

/-! ## The codes of the table DERIVE leaves (R101, R102) -/

/-- The walk of a lone leaf writes one code. -/
@[simp] theorem codeTable_leaf (x : Symbol) (w : Weight) : codeTable (.leaf x w) = [(x.toNat, [false])] := rfl

theorem readCell_codeTable_leaf (x : Symbol) (w : Weight) (k : Nat) (code : Bits) :
    readCell (codeTable (.leaf x w)) k = some code ↔ k = x.toNat ∧ code = [false] := by
  simp [readCell_cons, eq_comm]

/-- A code of two or more symbols is the path to its symbol's leaf. -/
theorem readCell_codeTable_node {l r : Tree} {w : Weight} (hn : (treeSymbols (.node l r w)).Nodup) (k : Nat)
    (code : Bits) : readCell (codeTable (.node l r w)) k = some code ↔
      ∃ x wx, k = x.toNat ∧ followPath (.node l r w) code = some (.leaf x wx) := by
  obtain ⟨_, _, hread⟩ := codeTable_spec hn
  simp [hread, treeCodes, mem_walkTree, eq_comm]

theorem codeTable_code_length {tr : Tree} (hn : (treeSymbols tr).Nodup) {k : Nat} {code : Bits}
    (h : readCell (codeTable tr) k = some code) : 1 ≤ code.length ∧ code.length ≤ 255 :=
  (codeTable_ok hn).code_length _ (readCell_mem h)

/-- Settles O29: the equations of DERIVE's body, and what `codeTable_spec` says of the table. -/
theorem deriveReadsCodesOffThePaths : Obligations.DeriveReadsCodesOffThePaths := by
  unfold Obligations.DeriveReadsCodesOffThePaths
  intro s hs
  refine ⟨fun hnone => ?_, fun tr htree hn => ?_⟩
  · rw [exec_derive hs, deriveBody_noTree hnone]
  · obtain ⟨_, hlen, _⟩ := codeTable_spec hn
    have hle := symbols_length_le hn
    refine ⟨_, codeTable tr, exec_derive hs, ?_, ?_, hlen, ?_, ?_, fun _ _ => codeTable_code_length hn⟩
    · rw [deriveBody_tree htree]
    · rw [deriveBody_tree htree]
      exact (toNat_ofNat32 (by omega)).trans hlen
    · rintro x w rfl
      exact readCell_codeTable_leaf x w
    · rintro l r w rfl
      exact readCell_codeTable_node hn

/-- Settles O30: the second DERIVE runs on a state without a tree. -/
theorem deriveConsumesTheTree : Obligations.DeriveConsumesTheTree := by
  unfold Obligations.DeriveConsumesTheTree
  intro s t u hs hvalid hx hx2
  obtain ⟨tr, htree⟩ := Option.ne_none_iff_exists'.1 hvalid
  obtain ⟨_, ht⟩ := exec_next_of_body (i := .derive) rfl hs hx
  rw [deriveBody_tree htree] at ht
  have herr : t.err = none := by rw [ht]; exact hs
  have hnone : t.tree = none := by rw [ht]
  obtain ⟨_, hu⟩ := exec_next_of_body (i := .derive) rfl herr hx2
  exact ⟨herr, hnone, by simp [ht], hu.trans (deriveBody_noTree hnone)⟩

/-! ## Bitstrings cut into codes -/

section
variable {c : Cells Bits}

theorem CutsInto.nil {residual : Bits} (h : ∀ e ∈ c, ¬ e.2 <+: residual) : CutsInto c residual [] residual :=
  ⟨[], rfl, .nil, h⟩

theorem CutsInto.cons {x : Symbol} {code bits residual : Bits} {text : List Symbol}
    (hx : readCell c x.toNat = some code) (h : CutsInto c bits text residual) :
    CutsInto c (code ++ bits) (x :: text) residual := by
  obtain ⟨codes, rfl, hcodes, hresidual⟩ := h
  exact ⟨code :: codes, by simp, .cons hx hcodes, hresidual⟩

theorem CutsInto.no_code_begins_residual {bits residual : Bits} {text : List Symbol}
    (h : CutsInto c bits text residual) : ∀ e ∈ c, ¬ e.2 <+: residual := by
  obtain ⟨_, _, _, hresidual⟩ := h
  exact hresidual

/-- Every bit of a bitstring that is codes alone stands in a code. -/
theorem CutsInto.exists_code_of_mem {bits : Bits} {text : List Symbol} (h : CutsInto c bits text []) {b : Bit}
    (hb : b ∈ bits) : ∃ (x : Symbol) (code : Bits), readCell c x.toNat = some code ∧ b ∈ code := by
  obtain ⟨codes, rfl, hcodes, _⟩ := h
  rw [List.append_nil] at hb
  induction hcodes with
  | nil => simp at hb
  | cons hx _ ih =>
    rcases List.mem_append.1 hb with hhead | htail
    · exact ⟨_, _, hx, hhead⟩
    · exact ih htail

/-- Every bitstring is cut, by taking a code off its front for as long as there is one. -/
theorem CodeTableOk.exists_cutsInto (hok : CodeTableOk c) (bits : Bits) :
    ∃ text residual, CutsInto c bits text residual := by
  by_cases h : ∃ e ∈ c, e.2 <+: bits
  · obtain ⟨e, he, rest, hbits⟩ := h
    obtain ⟨x, _, hx⟩ := symbol_of_mem hok.cells he
    have hpos := (hok.code_length e he).1
    obtain ⟨text, residual, hcut⟩ := hok.exists_cutsInto rest
    exact ⟨x :: text, residual, hbits ▸ hcut.cons hx⟩
  · push Not at h
    exact ⟨[], bits, .nil h⟩
termination_by bits.length
decreasing_by rw [← hbits, List.length_append]; omega

end

/-! ## One symbol: every 0 bit is its code (R102) -/

theorem cutsInto_zeros (x : Symbol) (n : Nat) :
    CutsInto [(x.toNat, [false])] (List.replicate n false) (List.replicate n x) [] := by
  induction n with
  | zero => exact .nil (by simp)
  | succ n ih => exact .cons (code := [false]) (if_pos rfl) ih

/-- DECODE of a bitstring that is the codes of a text. -/
theorem decodeBody_of_cutsInto {s : State} {c : Cells Bits} {text : List Symbol} (hct : s.ct = some c)
    (hok : CodeTableOk c) (h : CutsInto c (bsContent s) text []) : decodeBody s = { s with
      txt := writePrefix s.txt text, txtLen := BitVec.ofNat 32 text.length } := by
  unfold decodeBody
  simp only [hct, (decodeFrom_text hok h).1]

/-- The text of a bitstring fits TXT_LEN, each of its symbols having taken a bit of BS at least. -/
theorem toNat_length_of_cutsInto {s : State} {c : Cells Bits} {text : List Symbol} (hok : CodeTableOk c)
    (h : CutsInto c (bsContent s) text []) : (BitVec.ofNat 32 text.length).toNat = text.length :=
  toNat_ofNat32 (lt_of_le_of_lt ((decodeFrom_text hok h).2.trans (bsContent_length_le s)) s.bsLen.isLt)

/-- Settles O31: the table of a leaf cuts a bitstring of zeros into its symbol over and over, and DECODE gives the
text a bitstring is cut into. -/
theorem singleSymbolHasCodeZero : Obligations.SingleSymbolHasCodeZero := by
  unfold Obligations.SingleSymbolHasCodeZero
  intro s x w hs htree
  refine ⟨_, exec_derive hs, ?_⟩
  rw [deriveBody_tree htree]
  refine ⟨rfl, rfl, fun u hu hct hheld hzeros => ?_⟩
  have hok : CodeTableOk (codeTable (.leaf x w)) := codeTable_ok (List.nodup_singleton x)
  have hcut : CutsInto (codeTable (.leaf x w)) (bsContent u) (List.replicate u.bsLen.toNat x) [] := by
    rw [List.eq_replicate_iff.2 ⟨bsContent_length hheld, hzeros⟩]
    exact cutsInto_zeros x _
  refine ⟨_, exec_ready (i := .decode) rfl hu (by simp [heldFor, hheld]), ?_⟩
  rw [decodeBody_of_cutsInto hct hok hcut]
  exact ⟨hu, content_of_prefix _ _ (toNat_length_of_cutsInto hok hcut)⟩

/-! ## No code begins another, and the codes are complete (R103) -/

/-- The bitstring is the beginning of an infinite sequence of bits. -/
def BeginsSequence (f : Nat → Bit) (p : Bits) : Prop := p = (List.range p.length).map f

theorem BeginsSequence.prefix_of_le {f : Nat → Bit} {p q : Bits} (hp : BeginsSequence f p) (hq : BeginsSequence f q)
    (h : p.length ≤ q.length) : p <+: q := by
  rw [hp, hq]
  refine List.IsPrefix.map f ?_
  simpa [List.take_range, h] using List.take_prefix p.length (List.range q.length)

/-- Of two beginnings of one sequence the shorter begins the other. -/
theorem BeginsSequence.comparable {f : Nat → Bit} {p q : Bits} (hp : BeginsSequence f p) (hq : BeginsSequence f q) :
    p <+: q ∨ q <+: p :=
  (Nat.le_total p.length q.length).imp (hp.prefix_of_le hq) (hq.prefix_of_le hp)

theorem BeginsSequence.nil (f : Nat → Bit) : BeginsSequence f [] := rfl

theorem BeginsSequence.cons {f : Nat → Bit} {p : Bits} (h : BeginsSequence (fun i => f (i + 1)) p) :
    BeginsSequence f (f 0 :: p) := by
  rw [BeginsSequence, List.length_cons, List.range_succ_eq_map, List.map_cons, List.map_map]
  exact congrArg _ h

/-- Every bitstring begins the sequence that goes on with zeros. -/
theorem beginsSequence_getD (bits : Bits) : BeginsSequence (fun i => bits.getD i false) bits :=
  List.ext_getElem (by simp) (fun i hi _ => by simp [hi])

/-- A walk down a tree that takes its turns from a sequence of bits comes to a leaf. -/
theorem exists_leaf_of_sequence (tr : Tree) (f : Nat → Bit) :
    ∃ x w p, followPath tr p = some (.leaf x w) ∧ BeginsSequence f p := by
  induction tr generalizing f with
  | leaf x w => exact ⟨x, w, [], rfl, .nil f⟩
  | node l r _ ihl ihr =>
    have turn : ∃ x w p, followPath (if f 0 then r else l) p = some (.leaf x w)
        ∧ BeginsSequence (fun i => f (i + 1)) p := by
      split
      · exact ihr _
      · exact ihl _
    obtain ⟨x, w, p, hleaf, hp⟩ := turn
    exact ⟨x, w, f 0 :: p, hleaf, hp.cons⟩

section
variable {tr : Tree} (hn : (treeSymbols tr).Nodup)
include hn

theorem codeTable_notPrefixes {x y : Symbol} {p q : Bits} (hx : readCell (codeTable tr) x.toNat = some p)
    (hy : readCell (codeTable tr) y.toNat = some q) (hxy : x ≠ y) : notPrefixes p q := by
  obtain ⟨_, _, hread⟩ := codeTable_spec hn
  obtain ⟨x', hx', hp⟩ := (hread _ _).1 hx
  obtain ⟨y', hy', hq⟩ := (hread _ _).1 hy
  rw [BitVec.eq_of_toNat_eq hx'] at hp
  rw [BitVec.eq_of_toNat_eq hy'] at hq
  exact treeCodes_notPrefixes hp hq hxy

/-- Two codes that begin one sequence are of one symbol. -/
theorem codeTable_symbol_unique {f : Nat → Bit} {x y : Symbol} {p q : Bits}
    (hx : readCell (codeTable tr) x.toNat = some p) (hy : readCell (codeTable tr) y.toNat = some q)
    (hp : BeginsSequence f p) (hq : BeginsSequence f q) : x = y := by
  by_contra hxy
  obtain ⟨hpq, hqp⟩ := codeTable_notPrefixes hn hx hy hxy
  exact (hp.comparable hq).elim hpq hqp

end

section
variable {l r : Tree} {w : Weight} (hn : (treeSymbols (.node l r w)).Nodup)
include hn

theorem exists_code_of_sequence (f : Nat → Bit) :
    ∃ (x : Symbol) (p : Bits), readCell (codeTable (.node l r w)) x.toNat = some p ∧ BeginsSequence f p := by
  obtain ⟨x, wx, p, hleaf, hp⟩ := exists_leaf_of_sequence (.node l r w) f
  exact ⟨x, p, (readCell_codeTable_node hn _ _).2 ⟨x, wx, rfl, hleaf⟩, hp⟩

theorem existsUnique_code_of_sequence (f : Nat → Bit) :
    ∃! x : Symbol, ∃ p, readCell (codeTable (.node l r w)) x.toNat = some p ∧ BeginsSequence f p := by
  obtain ⟨x, p, hx, hp⟩ := exists_code_of_sequence hn f
  exact ⟨x, ⟨p, hx, hp⟩, fun y ⟨q, hy, hq⟩ => codeTable_symbol_unique hn hy hx hq hp⟩

/-- A bitstring that begins with no code is itself the proper beginning of one: of the code that begins the sequence
the bitstring goes on to with zeros. -/
theorem exists_code_beyond {residual : Bits} (h : ∀ e ∈ codeTable (.node l r w), ¬ e.2 <+: residual) :
    ∃ (y : Symbol) (q : Bits), readCell (codeTable (.node l r w)) y.toNat = some q ∧ residual <+: q
      ∧ residual ≠ q := by
  obtain ⟨y, q, hy, hq⟩ := exists_code_of_sequence hn (fun i => residual.getD i false)
  have hnot : ¬ q <+: residual := h _ (readCell_mem hy)
  refine ⟨y, q, hy, ((beginsSequence_getD residual).comparable hq).resolve_right hnot, ?_⟩
  rintro rfl
  exact hnot (List.prefix_refl _)

end

/-- The table of a lone symbol has no code with a 1 bit. -/
theorem not_cutsInto_leaf {x : Symbol} {w : Weight} {bits : Bits} {text : List Symbol} (h : true ∈ bits) :
    ¬ CutsInto (codeTable (.leaf x w)) bits text [] := by
  intro hcut
  obtain ⟨y, code, hy, hmem⟩ := hcut.exists_code_of_mem h
  obtain ⟨_, rfl⟩ := (readCell_codeTable_leaf x w _ _).1 hy
  simp at hmem

/-- Settles O32: no code begins another since no path to a leaf does, and the codes are complete since every walk down
the tree comes to a leaf. -/
theorem codesArePrefixFreeAndComplete : Obligations.CodesArePrefixFreeAndComplete := by
  unfold Obligations.CodesArePrefixFreeAndComplete
  intro s t tr hs htree hn hx
  rw [exec_derive hs, deriveBody_tree htree] at hx
  cases hx
  refine ⟨codeTable tr, rfl, fun _ _ _ _ => codeTable_notPrefixes hn, ?_, ?_, ?_⟩
  · rintro l r w rfl
    exact existsUnique_code_of_sequence hn
  · rintro l r w rfl bits
    obtain ⟨text, residual, hcut⟩ := (codeTable_ok hn).exists_cutsInto bits
    exact ⟨text, residual, hcut, exists_code_beyond hn hcut.no_code_begins_residual⟩
  · rintro x w rfl bits text
    exact not_cutsInto_leaf

end Sys2Proof.Machine

/-! SUPPORT AND PROOFS. The statements about the bitstream encoder (43_bitstream_encoder.md): the outcomes of ENCODE,
the bytes PACK leaves, and the padding bound. -/

namespace Sys2Proof.Machine

/-! ## The outcomes of ENCODE (R111) -/

/-- The check of CT_VALID comes before the text is read. -/
theorem encodeBody_noTable {s : State} (h : s.ct = none) :
    encodeBody s = { s with err := some .emptyTree, errInfo := 0, bsLen := 0, bs := [] } := by
  have hraise : encodeBody s = raise .bs .emptyTree 0 s := by
    unfold encodeBody
    rw [h]
  exact hraise

theorem exec_encode_held {s : State} (hs : s.err = none) (hheld : txtHeld s = true) :
    exec .encode s = .next (encodeBody s) :=
  exec_ready (i := .encode) rfl hs (by simp [heldFor, hheld])

theorem exec_encode_noTable {s : State} (hs : s.err = none) (hct : s.ct = none) :
    exec .encode s = .next (encodeBody s) :=
  exec_ready (i := .encode) rfl hs (by simp [heldFor, hct])

section
variable {s : State} {c : Cells Bits} (hct : s.ct = some c)
include hct

theorem encodeBody_bits {bits : Bits} (h : encodeFrom c (bitsMax s.params) 0 (txtContent s) [] = .ok bits) :
    encodeBody s = { s with bs := writePrefix s.bs bits, bsLen := BitVec.ofNat 32 bits.length } := by
  unfold encodeBody
  simp only [hct, h]

theorem encodeBody_error {e : ErrorCause} {i : Nat}
    (h : encodeFrom c (bitsMax s.params) 0 (txtContent s) [] = .error (e, i)) : encodeBody s = { s with
      err := some e, errInfo := BitVec.ofNat 32 i, bsLen := 0, bs := [] } := by
  have hraise : encodeBody s = raise .bs e (BitVec.ofNat 32 i) s := by
    unfold encodeBody
    simp only [hct, h]
  exact hraise

variable (hs : s.err = none) (hheld : txtHeld s = true)
include hs hheld

/-- ENCODE of a text whose codes fit BS. A legal BITS_MAX fits BS_LEN. -/
theorem exec_encode_codes {codes : List Bits}
    (hcodes : List.Forall₂ (fun x code => readCell c x.toNat = some code) (txtContent s) codes)
    (hfit : codes.flatten.length ≤ bitsMax s.params) (hp : paramsLegal s.params) :
    ∃ t, exec .encode s = .next t ∧ t = { s with bs := t.bs, bsLen := t.bsLen }
      ∧ HoldsPrefix t.bs codes.flatten ∧ t.bsLen.toNat = codes.flatten.length := by
  obtain ⟨_, _, hmax⟩ := hp
  refine ⟨_, exec_encode_held hs hheld, ?_⟩
  rw [encodeBody_bits hct (encodeFrom_ok hcodes 0 [] hfit)]
  exact ⟨rfl, holdsPrefix_writePrefix _ _, toNat_ofNat32 (lt_of_le_of_lt hfit hmax)⟩

/-- ENCODE of a text whose loop ends with an error at an index of the text, which fits ERR_INFO. -/
theorem exec_encode_error {e : ErrorCause} {i : Nat} (hi : i < (txtContent s).length)
    (h : encodeFrom c (bitsMax s.params) 0 (txtContent s) [] = .error (e, i)) :
    ∃ t, exec .encode s = .next t
      ∧ t = { s with err := some e, errInfo := t.errInfo, bsLen := 0, bs := [] } ∧ t.errInfo.toNat = i := by
  refine ⟨_, exec_encode_held hs hheld, ?_⟩
  rw [encodeBody_error hct h]
  exact ⟨rfl, toNat_ofNat32 (hi.trans (txtContent_lt s))⟩

end

/-! ## Where the loop of ENCODE stops -/

section
variable {c : Cells Bits} {max : Nat} {pre post : List Symbol} {x : Symbol} {codes : List Bits}
  (hcodes : List.Forall₂ (fun y code => readCell c y.toNat = some code) pre codes)
  (hfit : codes.flatten.length ≤ max)
include hcodes hfit

/-- The loop has come to the symbol behind a part of the text whose codes fit. -/
theorem encodeFrom_reaches :
    encodeFrom c max 0 (pre ++ x :: post) [] = encodeFrom c max pre.length (x :: post) codes.flatten := by
  simpa using encodeFrom_append hcodes 0 [] (x :: post) hfit

theorem encodeFrom_noCode (hx : readCell c x.toNat = none) :
    encodeFrom c max 0 (pre ++ x :: post) [] = .error (.noCode, pre.length) := by
  rw [encodeFrom_reaches hcodes hfit, encodeFrom, hx]

theorem encodeFrom_capacity {code : Bits} (hx : readCell c x.toNat = some code)
    (hover : max < codes.flatten.length + code.length) :
    encodeFrom c max 0 (pre ++ x :: post) [] = .error (.capacity, pre.length) := by
  rw [encodeFrom_reaches hcodes hfit, encodeFrom, hx]
  exact if_pos hover

end

/-- Settles O33: the loop of ENCODE gives the codes of a text whose codes fit, and stops at the first symbol that has
none or whose code does not fit. -/
theorem encodeConcatenatesTheCodes : Obligations.EncodeConcatenatesTheCodes := by
  unfold Obligations.EncodeConcatenatesTheCodes
  intro s hs
  refine ⟨fun hnone => ?_, fun c hct hheld => ⟨fun codes => exec_encode_codes hct hs hheld, ?_⟩⟩
  · rw [exec_encode_noTable hs hnone, encodeBody_noTable hnone]
  · intro pre x post codes htext hcodes hfit
    have hindex : pre.length < (txtContent s).length := by simp [htext]
    refine ⟨fun hx => ?_, fun code hx hover => ?_⟩
    · exact exec_encode_error hct hs hheld hindex (htext ▸ encodeFrom_noCode hcodes hfit hx)
    · exact exec_encode_error hct hs hheld hindex (htext ▸ encodeFrom_capacity hcodes hfit hx hover)

/-! ## PACK (R113, R114) -/

theorem payloadBytes_getLsbD {bits : Bits} {j i : Nat} (hi : i < 8) {b : Byte} (hb : (payloadBytes bits)[j]? = some b) :
    b.getLsbD (7 - i) = (bits[8 * j + i]?).getD false := by
  obtain ⟨hj, rfl⟩ := List.getElem?_eq_some_iff.1 hb
  exact payloadBytes_bit bits hj hi

/-- PAD_OUT is wide enough for every padding count. -/
theorem toNat_ofNat_padCount (l : Nat) : (BitVec.ofNat 3 (padCount l)).toNat = padCount l := by
  rw [BitVec.toNat_ofNat]
  exact Nat.mod_eq_of_lt (padCount_lt l)

/-- Settles O34: the payload is `payloadBytes` of the bitstring, of eight bits a byte, padding included. -/
theorem packPacksTheBitstring : Obligations.PackPacksTheBitstring := by
  unfold Obligations.PackPacksTheBitstring
  intro flag s hs hheld
  have hmul := payloadBytes_length_mul (bsContent s)
  have hbytes : (packBody flag s).byLen.toNat = (packedBytes flag (bsContent s)).length :=
    toNat_ofNat32 (packedBytes_lt flag s)
  rw [packedBytes_length] at hbytes
  rw [← bsContent_length hheld]
  exact ⟨packBody flag s, payloadBytes (bsContent s), padCount (bsContent s).length,
    exec_ready (i := .pack flag) rfl hs hheld, rfl, rfl, hmul, fun _ _ hi _ => payloadBytes_getLsbD hi,
    holdsPrefix_writePrefix _ _, hbytes, toNat_ofNat_padCount _⟩

/-- Settles O35: a PACK that ends has found its bitstring held, and its payload bytes hold the bits and the padding. -/
theorem paddingBound : Obligations.PaddingBound := by
  unfold Obligations.PaddingBound
  intro flag s t hs hx
  obtain ⟨hheld, _⟩ := exec_next_of_body (i := .pack flag) rfl hs hx
  obtain ⟨t', payload, pad, hx', hframe, hpad, hmul, _, _, hbyLen, hpadOut⟩ := packPacksTheBitstring flag s hs hheld
  obtain rfl : t = t' := Host.Outcome.next.inj (hx.symm.trans hx')
  have hbsLen : t.bsLen = s.bsLen := by rw [hframe]
  have hpayload : t.byLen.toNat - (if flag then 1 else 0) = payload.length := by
    rw [hbyLen]
    cases flag <;> simp
  rw [hpayload, hbsLen, hpadOut]
  exact ⟨by omega, hpad, by omega, hmul.symm⟩

end Sys2Proof.Machine

/-! SUPPORT AND PROOFS. The statements about the bitstream decoder (44_bitstream_decoder.md): the checks and the
expansion of UNPACK, the outcomes of DECODE, and that the two undo PACK and ENCODE. -/

namespace Sys2Proof.Machine

/-! ## The checks of UNPACK and its expansion (R121) -/

section
variable {s : State} {np : Nat}

theorem payloadError_invalidPadding (h : 8 ≤ s.padIn.toNat ∨ 8 * np < s.padIn.toNat) :
    payloadError np s = some (.invalidPadding, s.padIn.setWidth 32) := by
  unfold payloadError
  by_cases hcount : 8 ≤ s.padIn.toNat
  · exact if_pos hcount
  · rw [if_neg hcount, if_pos (h.resolve_left hcount)]

theorem payloadError_capacity (hcount : s.padIn.toNat < 8) (hle : s.padIn.toNat ≤ 8 * np)
    (hover : bitsMax s.params < 8 * np - s.padIn.toNat) : payloadError np s = some (.capacity, s.byLen) := by
  rw [payloadError, if_neg hcount.not_ge, if_neg hle.not_gt, if_pos hover]

theorem expandPayload_error {payload : List Byte} {e : ErrorCause} {info : Reg32}
    (h : payloadError np s = some (e, info)) :
    expandPayload payload np s = { s with err := some e, errInfo := info, bsLen := 0, bs := [] } := by
  rw [expandPayload, h]
  rfl

theorem expandPayload_bits {payload : List Byte} (h : payloadError np s = none) :
    expandPayload payload np s = { s with
      bs := writePrefix s.bs (payloadBits payload (8 * np - s.padIn.toNat))
      bsLen := BitVec.ofNat 32 (8 * np - s.padIn.toNat) } := by
  rw [expandPayload, h]

end

section
variable {s : State} (hs : s.err = none)
include hs

theorem exec_unpack_noTrailer (hlen : s.byLen = 0) : exec (.unpack true) s = .next { s with
    err := some .corruptStream, errInfo := 0, bsLen := 0, bs := [] } := by
  have hheld : byHeld s = true := by rw [byHeld, hlen]; exact allWritten_zero _
  have hnone : byContent s = [] := by rw [byContent, hlen]; exact content_zero _
  rw [exec_ready (i := .unpack true) rfl hs hheld, unpackBody, if_pos rfl, hnone]
  rfl

/-- UNPACK makes its checks before it reads BY. -/
theorem exec_unpack_checkFails {e : ErrorCause} {info : Reg32}
    (h : payloadError s.byLen.toNat s = some (e, info)) : exec (.unpack false) s = .next { s with
      err := some e, errInfo := info, bsLen := 0, bs := [] } := by
  rw [exec_ready (i := .unpack false) rfl hs (by simp [heldFor, h]), unpackBody_error h]
  rfl

/-- With BY held, both forms check and expand what their operands state. -/
theorem exec_unpack_operands {flag : Bool} {payload : List Byte} {pad : Byte} (hheld : byHeld s = true)
    (h : UnpackOperands flag s payload pad) :
    exec (.unpack flag) s = .next (expandPayload payload payload.length { s with padIn := pad }) := by
  rw [exec_ready (i := .unpack flag) rfl hs (by simp [heldFor, hheld]), unpackBody_operands hheld h]

end

/-- Where the checks succeed, the bits come from bytes of the payload. -/
theorem payloadBits_bit {payload : List Byte} {l k : Nat} {b : Bit} (hl : l ≤ 8 * payload.length)
    (h : (payloadBits payload l)[k]? = some b) :
    ∃ byte, payload[k / 8]? = some byte ∧ b = byte.getLsbD (7 - k % 8) := by
  rw [payloadBits_getElem?] at h
  split at h
  next hk =>
    have hj : k / 8 < payload.length := by omega
    rw [List.getElem?_eq_getElem hj] at h
    exact ⟨_, List.getElem?_eq_getElem hj, (Option.some.inj h).symm⟩
  next => cases h

/-- Settles O36: each form checks its operands, `payloadError` being the checks, and expands a payload that passes. -/
theorem unpackExpandsThePayload : Obligations.UnpackExpandsThePayload := by
  unfold Obligations.UnpackExpandsThePayload
  intro flag s hs
  refine ⟨?_, ?_, ?_, fun payload pad hheld hops => ?_⟩
  · rintro rfl hlen
    exact exec_unpack_noTrailer hs hlen
  · rintro rfl hpad
    exact exec_unpack_checkFails hs (payloadError_invalidPadding hpad)
  · rintro rfl hcount hle hover
    exact exec_unpack_checkFails hs (payloadError_capacity hcount hle hover)
  · rw [exec_unpack_operands hs hheld hops]
    refine ⟨fun hpad => ?_, fun hcount hle hover => ?_, fun hcount hle hfit ⟨_, _, hmax⟩ => ?_⟩
    · rw [expandPayload_error (payloadError_invalidPadding hpad)]
    · rw [expandPayload_error (payloadError_capacity hcount hle hover)]
    · rw [expandPayload_bits ((payloadError_eq_none _ _).2 ⟨hcount, hle, hfit⟩)]
      exact ⟨_, _, rfl, rfl, holdsPrefix_writePrefix _ _,
        (toNat_ofNat32 (lt_of_le_of_lt hfit hmax)).trans (payloadBits_length _ _).symm, payloadBits_length _ _,
        fun _ _ => payloadBits_bit (Nat.sub_le _ _)⟩

/-! ## UNPACK undoes PACK (R122) -/

/-- UNPACK of the payload of a bitstring, its padding count stated either way. -/
theorem exec_unpack_payloadBytes {flag : Bool} {s : State} {bits : Bits} {pad : Byte} (hs : s.err = none)
    (hheld : byHeld s = true) (hops : UnpackOperands flag s (payloadBytes bits) pad)
    (hpad : pad.toNat = padCount bits.length) (hfit : bits.length ≤ bitsMax s.params) :
    exec (.unpack flag) s = .next { s with
      padIn := pad, bs := writePrefix s.bs bits, bsLen := BitVec.ofNat 32 bits.length } := by
  have hmul := payloadBytes_length_mul bits
  have hbits : 8 * (payloadBytes bits).length - pad.toNat = bits.length := by omega
  have hok : payloadError (payloadBytes bits).length { s with padIn := pad } = none :=
    (payloadError_eq_none _ _).2 ⟨hpad ▸ padCount_lt _, show pad.toNat ≤ _ by omega, hbits.le.trans hfit⟩
  rw [exec_unpack_operands hs hheld hops, expandPayload_bits hok, hbits, payloadBits_payloadBytes]

/-- UNPACK in a state whose BY holds the payload of a held bitstring of another state gives that bitstring. -/
theorem exec_unpack_restores {flag : Bool} {s u : State} {pad : Byte} (hheld : bsHeld s = true)
    (hu : u.err = none) (hby : byHeld u = true) (hops : UnpackOperands flag u (payloadBytes (bsContent s)) pad)
    (hpad : pad.toNat = padCount (bsContent s).length) (hfit : s.bsLen.toNat ≤ bitsMax u.params) :
    ∃ t, exec (.unpack flag) u = .next t ∧ t.err = none ∧ t.bsLen = s.bsLen ∧ bsContent t = bsContent s := by
  have hlen := bsContent_length hheld
  have hreg : BitVec.ofNat 32 (bsContent s).length = s.bsLen := by rw [hlen, BitVec.ofNat_toNat, BitVec.setWidth_eq]
  refine ⟨_, exec_unpack_payloadBytes hu hby hops hpad (hlen.trans_le hfit), hu, hreg, ?_⟩
  exact content_of_prefix _ _ (by rw [hreg, hlen])

/-- The host's write of PAD_IN (register 7). -/
theorem memWrite_padInReg (v : PortData) (s : State) :
    memWrite 0 7 v s = written { s with padIn := v.setWidth 8 } :=
  memWrite_csr (r := .padIn) rfl v s

/-- The trailer byte is wide enough for every padding count. -/
theorem toNat_ofNat8_padCount (l : Nat) : (BitVec.ofNat 8 (padCount l)).toNat = padCount l := by
  rw [BitVec.toNat_ofNat]
  exact Nat.mod_eq_of_lt ((padCount_lt l).trans (by decide))

/-- What the host reads of PAD_OUT after PACK, and writes to PAD_IN, is the padding count. -/
theorem toNat_padOutReg_packBody (flag : Bool) (s : State) :
    (((padOutReg (packBody flag s)).setWidth 40).setWidth 8).toNat = padCount (bsContent s).length := by
  have hlt := padCount_lt (bsContent s).length
  have hout : (packBody flag s).padOut.toNat = padCount (bsContent s).length := toNat_ofNat_padCount _
  simp only [padOutReg, BitVec.toNat_setWidth, hout]
  omega

/-- Settles O37: PACK leaves the payload of the bitstring, and its padding count in the trailer and in PAD_OUT. -/
theorem unpackUndoesPack : Obligations.UnpackUndoesPack := by
  unfold Obligations.UnpackUndoesPack
  intro s hs hheld hfit
  have hpack (flag : Bool) : exec (.pack flag) s = .next (packBody flag s) := exec_ready (i := .pack flag) rfl hs hheld
  constructor
  · obtain ⟨t, hx, ht⟩ := exec_unpack_restores (flag := true) (u := packBody true s) hheld hs (byHeld_packBody true s)
      (byContent_packBody true s) (toNat_ofNat8_padCount _) hfit
    exact ⟨_, t, hpack true, hx, hs, ht⟩
  · obtain ⟨t, hx, ht⟩ := exec_unpack_restores (flag := false) (u := written { packBody false s with padIn := _ })
      hheld hs (byHeld_packBody false s) ⟨byContent_packBody false s, rfl⟩ (toNat_padOutReg_packBody false s) hfit
    refine ⟨_, t, hpack false, ?_, hs, ht⟩
    rw [memWrite_padInReg]
    exact hx

/-! ## The outcomes of DECODE (R125) -/

/-- The check of CT_VALID comes before the bitstring is read. -/
theorem decodeBody_noTable {s : State} (h : s.ct = none) :
    decodeBody s = { s with err := some .emptyTree, errInfo := 0, txtLen := 0, txt := [] } := by
  have hraise : decodeBody s = raise .txt .emptyTree 0 s := by
    unfold decodeBody
    rw [h]
  exact hraise

/-- DECODE of codes and a residual behind them, whose first bit stands as far from the end as it is long. -/
theorem decodeBody_residual {s : State} {c : Cells Bits} {text : List Symbol} {residual : Bits} (hct : s.ct = some c)
    (hok : CodeTableOk c) (h : CutsInto c (bsContent s) text residual) (hne : residual ≠ []) :
    decodeBody s = { s with
      err := some .corruptStream, errInfo := BitVec.ofNat 32 ((bsContent s).length - residual.length)
      txtLen := 0, txt := [] } := by
  have hloop : decodeFrom c 0 (bsContent s) [] 0 [] = .error ((bsContent s).length - residual.length) := by
    rw [decodeFrom_cuts hok h, if_neg hne, Nat.zero_add]
  have hraise : decodeBody s
      = raise .txt .corruptStream (BitVec.ofNat 32 ((bsContent s).length - residual.length)) s := by
    unfold decodeBody
    simp only [hct, hloop]
  exact hraise

section
variable {s : State} (hs : s.err = none)
include hs

theorem exec_decode_noTable (hct : s.ct = none) : exec .decode s = .next (decodeBody s) :=
  exec_ready (i := .decode) rfl hs (by simp [heldFor, hct])

theorem exec_decode_held (hheld : bsHeld s = true) : exec .decode s = .next (decodeBody s) :=
  exec_ready (i := .decode) rfl hs (by simp [heldFor, hheld])

variable {c : Cells Bits} {text : List Symbol} (hct : s.ct = some c) (hok : CodeTableOk c) (hheld : bsHeld s = true)
include hct hok hheld

/-- DECODE of the codes of a text. -/
theorem exec_decode_codes (h : CutsInto c (bsContent s) text []) :
    ∃ t, exec .decode s = .next t ∧ t = { s with txt := t.txt, txtLen := t.txtLen }
      ∧ HoldsPrefix t.txt text ∧ t.txtLen.toNat = text.length := by
  refine ⟨_, exec_decode_held hs hheld, ?_⟩
  rw [decodeBody_of_cutsInto hct hok h]
  exact ⟨rfl, holdsPrefix_writePrefix _ _, toNat_length_of_cutsInto hok h⟩

/-- DECODE of codes and a residual: the index of a bit of BS fits ERR_INFO. -/
theorem exec_decode_residual {residual : Bits} (h : CutsInto c (bsContent s) text residual) (hne : residual ≠ []) :
    ∃ t, exec .decode s = .next t
      ∧ t = { s with err := some .corruptStream, errInfo := t.errInfo, txtLen := 0, txt := [] }
      ∧ t.errInfo.toNat = s.bsLen.toNat - residual.length := by
  refine ⟨_, exec_decode_held hs hheld, ?_⟩
  rw [decodeBody_residual hct hok h hne, bsContent_length hheld]
  exact ⟨rfl, toNat_ofNat32 (lt_of_le_of_lt (Nat.sub_le _ _) s.bsLen.isLt)⟩

end

/-- Settles O38: a valid table cuts every bitstring, and the loop of DECODE ends as the residual says. -/
theorem decodeCutsTheBitstring : Obligations.DecodeCutsTheBitstring := by
  unfold Obligations.DecodeCutsTheBitstring
  intro s hs
  refine ⟨fun hnone => ?_, fun c hct hok hheld => ⟨hok.exists_cutsInto _, fun text residual hcut => ⟨?_, ?_⟩⟩⟩
  · rw [exec_decode_noTable hs hnone, decodeBody_noTable hnone]
  · rintro rfl
    exact exec_decode_codes hs hct hok hheld hcut
  · exact exec_decode_residual hs hct hok hheld hcut

/-! ## DECODE undoes ENCODE (R128) -/

/-- The codes of a text are cut into that text, since no code of a valid table is empty. -/
theorem CodeTableOk.cutsInto_flatten {c : Cells Bits} (hok : CodeTableOk c) {text : List Symbol} {codes : List Bits}
    (h : List.Forall₂ (fun x code => readCell c x.toNat = some code) text codes) :
    CutsInto c codes.flatten text [] := by
  refine ⟨codes, (List.append_nil _).symm, h, fun e he hempty => ?_⟩
  have hpos := (hok.code_length e he).1
  rw [List.prefix_nil.1 hempty] at hpos
  exact absurd hpos (by decide)

/-- An ENCODE that raised no error has read a held text and left its codes. -/
theorem encode_succeeded {s t : State} {c : Cells Bits} (hs : s.err = none) (hct : s.ct = some c)
    (hx : exec .encode s = .next t) (ht : t.err = none) : txtHeld s = true ∧ ∃ codes : List Bits,
      List.Forall₂ (fun x code => readCell c x.toNat = some code) (txtContent s) codes
        ∧ codes.flatten.length ≤ bitsMax s.params := by
  obtain ⟨hheld, rfl⟩ := exec_next_of_body (i := .encode) rfl hs hx
  refine ⟨by simpa [heldFor, hct] using hheld, ?_⟩
  cases hloop : encodeFrom c (bitsMax s.params) 0 (txtContent s) [] with
  | error e =>
    rw [encodeBody_error hct hloop] at ht
    cases ht
  | ok bits =>
    obtain ⟨codes, hcodes, rfl, hfit⟩ := encodeFrom_inv hloop (Nat.zero_le _)
    exact ⟨codes, hcodes, hfit⟩

/-- Settles O39: ENCODE leaves the codes of the text, which are cut into that text. -/
theorem decodeUndoesEncode : Obligations.DecodeUndoesEncode := by
  unfold Obligations.DecodeUndoesEncode
  intro s s1 c hs hp hct hok _ hx hs1
  obtain ⟨htxt, codes, hcodes, hfit⟩ := encode_succeeded hs hct hx hs1
  obtain ⟨t, hx', hframe, hbits, hlen⟩ := exec_encode_codes hct hs htxt hcodes hfit hp
  obtain rfl : s1 = t := Host.Outcome.next.inj (hx.symm.trans hx')
  have hct1 : s1.ct = some c := by rw [hframe]; exact hct
  have hcut : CutsInto c (bsContent s1) (txtContent s) [] := by
    rw [bsContent, content_of_holdsPrefix hbits hlen]
    exact hok.cutsInto_flatten hcodes
  obtain ⟨s2, hx2, hframe2, htext, hlen2⟩ :=
    exec_decode_codes hs1 hct1 hok (allWritten_of_holdsPrefix hbits hlen) hcut
  refine ⟨s2, hx2, by rw [hframe2]; exact hs1, ?_, content_of_holdsPrefix htext hlen2⟩
  exact BitVec.eq_of_toNat_eq (hlen2.trans (txtContent_length htxt))

end Sys2Proof.Machine

/-! SUPPORT AND PROOFS. The statements about control and the host (45_control_and_host.md): the dispatch of a command
word, COMPRESS and DECOMPRESS as sequences of commands, and the same with the host's own transactions. -/

namespace Sys2Proof.Machine

/-! ## Dispatch (R135 to R137) -/

/-- Settles O12: it is the definition of NOP. -/
theorem nopChangesNothing : Obligations.NopChangesNothing := by
  unfold Obligations.NopChangesNothing
  exact fun _ => rfl

/-- Settles O13: CLEAR gives the emptied block, whose fields are those of the reset state. -/
theorem clearEmptiesTheBlock : Obligations.ClearEmptiesTheBlock := by
  unfold Obligations.ClearEmptiesTheBlock
  have hstatus (s : State) : statusReg (emptied s) = 0x00#8 := by simp [statusReg, ctValid, treeValid, errField]
  exact ⟨fun s => ⟨emptied s, rfl, hstatus s, rfl, rfl, rfl, rfl, rfl, rfl, rfl, rfl, rfl, rfl⟩, rfl⟩

/-- Settles O4: the outcome of the command is the outcome of the step, a next state ended as a command is. -/
theorem stepRunsTheDecodedCommand : Obligations.StepRunsTheDecodedCommand := by
  unfold Obligations.StepRunsTheDecodedCommand
  intro s w rest i hp hd
  rw [step_command hp hd]
  change (∀ t, exec i (beginCommand rest s) = .next t → _) ∧ ∀ r, exec i (beginCommand rest s) = .refused r → _
  refine ⟨fun t hx => ?_, fun r hx => ?_⟩ <;> rw [hx] <;> rfl

/-- A command that reads no element without a value gives a next state. -/
theorem exec_next_of_not_readsUnwritten {i : Instr} {s : State} (h : s.err = none) (hr : ¬ ReadsUnwritten i s) :
    ∃ t, exec i s = .next t := by
  rw [readsUnwritten_iff, Bool.not_eq_false] at hr
  cases hb : bodyOf i with
  | none =>
    cases i with
    | nop | clear => exact ⟨_, rfl⟩
    | _ => cases hb
  | some body => exact ⟨_, exec_ready hb h hr⟩

/-- What a command reads does not depend on the transactions behind it or on BUSY. -/
theorem readsUnwritten_beginCommand (i : Instr) (rest : List Txn) (s : State) :
    ReadsUnwritten i (beginCommand rest s) ↔ ReadsUnwritten i s := by
  cases i with
  | unpack flag => cases flag <;> exact Iff.rfl
  | _ => exact Iff.rfl

/-- While an error is recorded a word other than CLEAR's, legal or not, is taken and ignored. -/
theorem step_ignored {s : State} {w : CmdWord} {rest : List Txn} {e : ErrorCause} (hp : s.pending = .cmd w :: rest)
    (he : s.err = some e) (hw : w ≠ encode .clear) :
    step s = .next { s with pending := rest, busy := false, response := .done } := by
  by_cases hl : LegalWord w
  · obtain ⟨i, hi⟩ := hl
    have hclear : i ≠ .clear := fun h => hw (h ▸ encode_of_decode hi).symm
    rw [step_command hp hi, exec_ignored (s := beginCommand rest s) he hclear]
    rfl
  · exact step_illegal_faulted hp hl he

/-- CLEAR's word empties the block in every state. -/
theorem step_clear {s : State} {rest : List Txn} (hp : s.pending = commandTxn .clear :: rest) :
    step s = .next { emptied s with pending := rest, response := .done } := by
  rw [step_command hp (decode_encode .clear)]
  rfl

/-- Settles O5: the word is ignored, CLEAR's, illegal, or that of a command which is performed. -/
theorem dispatchOfACommandWord : Obligations.DispatchOfACommandWord := by
  unfold Obligations.DispatchOfACommandWord
  intro s w rest hp
  refine ⟨fun e he hw => step_ignored hp he hw, ?_, fun hs hl => step_illegal_ready hp hl hs, fun hs i hd hr => ?_⟩
  · rintro e - rfl
    exact step_clear hp
  · obtain ⟨t, hx⟩ := exec_next_of_not_readsUnwritten (s := beginCommand rest s) hs
      (mt (readsUnwritten_beginCommand i rest s).1 hr)
    exact ⟨t, hx, (stepRunsTheDecodedCommand s w rest i hp hd).1 t hx⟩

/-! ## The tree and the table of a text -/

/-- The ranked list COUNT and SORT leave of a text. -/
def ranking (text : List Symbol) : List Entry := rankEntries (countText text)

/-- The tree BUILD makes of the ranked list of a text, a list it accepts; every symbol of the text is a leaf of it. -/
structure TreeOfText (text : List Symbol) (tr : Tree) : Prop where
  wellFormed : ∀ i, ¬ IllFormedEntry (ranking text) i
  built : buildTree (ranking text) = some tr
  symbols : (treeSymbols tr).Nodup
  leaf_of_mem : ∀ x ∈ text, x ∈ treeSymbols tr

theorem mem_ranking_symbols {text : List Symbol} (hlen : text.length < 2 ^ 32) (x : Symbol) :
    x ∈ (ranking text).map Entry.sym ↔ x ∈ text := by
  obtain ⟨hperm, _, _⟩ := rankEntries_spec (countText text)
  obtain ⟨_, hmem, _, _⟩ := countText_spec text hlen
  rw [← hmem x]
  exact (hperm.map Entry.sym).mem_iff

theorem ranking_length_le {text : List Symbol} (hlen : text.length < 2 ^ 32) : (ranking text).length ≤ nsymMax :=
  (rankEntries_length _).trans_le (countText_length_le text hlen)

theorem exists_treeOfText {text : List Symbol} (hlen : text.length < 2 ^ 32) (hne : text ≠ []) :
    ∃ tr, TreeOfText text tr := by
  obtain ⟨hnodup, hpos⟩ := rankEntries_countText_wellFormed hlen
  obtain ⟨_, hdescending, _⟩ := rankEntries_spec (countText text)
  have hwf := wellFormed_of hpos hdescending hnodup
  have hranking : ranking text ≠ [] :=
    List.ne_nil_of_length_pos ((rankEntries_length _).symm ▸ countText_pos text hlen hne)
  obtain ⟨tr, hbuilt, _, hperm, _, hok⟩ := buildTree_spec hranking hwf
  exact ⟨tr, hwf, hbuilt, hok.symbols, fun x hx => hperm.mem_iff.2 ((mem_ranking_symbols hlen x).2 hx)⟩

/-- Every leaf's symbol has a code in the table. -/
theorem readCell_codeTable_ne_none {tr : Tree} (hn : (treeSymbols tr).Nodup) {x : Symbol} (hx : x ∈ treeSymbols tr) :
    readCell (codeTable tr) x.toNat ≠ none := by
  obtain ⟨_, _, hread⟩ := codeTable_spec hn
  rw [← treeCodes_symbols] at hx
  obtain ⟨⟨_, code⟩, hmem, rfl⟩ := List.mem_map.1 hx
  rw [(hread _ code).2 ⟨_, rfl, hmem⟩]
  simp

/-- Where every symbol has a code the loop of ENCODE stops for Capacity alone. -/
theorem encodeFrom_error_of_codes {ct : Cells Bits} {max : Nat} {text : List Symbol}
    (hcodes : ∀ x ∈ text, readCell ct x.toNat ≠ none) {i j : Nat} {bs : Bits} {e : ErrorCause}
    (h : encodeFrom ct max i text bs = .error (e, j)) : e = .capacity := by
  induction text generalizing i bs with
  | nil => cases h
  | cons x text ih =>
    obtain ⟨code, hx⟩ := Option.ne_none_iff_exists'.1 (hcodes x List.mem_cons_self)
    rw [encodeFrom, hx] at h
    simp only at h
    split at h
    · cases h; rfl
    · exact ih (fun y hy => hcodes y (List.mem_cons_of_mem _ hy)) h

/-! ## The commands of COMPRESS (R138) -/

/-- BUILD and DERIVE in succession on a list BUILD accepts: the table of its tree, and the tree consumed. -/
theorem runCommands_build_derive {s : State} (hs : s.err = none) (hheld : rlHeld s = true)
    (hwf : ∀ i, ¬ IllFormedEntry (rlContent s) i) {tr : Tree} (hbuilt : buildTree (rlContent s) = some tr)
    (l : List Instr) : ∃ t, runCommands (.build :: .derive :: l) s = runCommands l t
      ∧ t = { s with ct := some (codeTable tr), ctCount := t.ctCount, tree := none } := by
  have hlen : s.rlLen ≠ 0 := by
    intro hzero
    rw [rlContent, hzero] at hbuilt
    cases hbuilt
  have hbuild := exec_ready (i := .build) rfl hs hheld
  rw [buildBody_wellFormed hlen hwf, hbuilt] at hbuild
  have hderive := exec_derive (s := { s with tree := some tr }) hs
  rw [deriveBody_tree rfl] at hderive
  exact ⟨_, (runCommands_cons hbuild).trans (runCommands_cons hderive), rfl⟩

/-- A command that raises an error ends a sequence: the commands behind it are ignored. -/
theorem runCommands_raised {i : Instr} {l : List Instr} {s t : State} {e : ErrorCause} (hx : exec i s = .next t)
    (ht : t.err = some e) (hl : ∀ j ∈ l, j ≠ .clear) : runCommands (i :: l) s = some t :=
  (runCommands_cons hx).trans (runCommands_ignored hl ht)

/-- What the first four commands of COMPRESS do: the ranked list and the table of the text, with no error. -/
theorem runCommands_frontEnd {s : State} (hs : s.err = none) (htext : s.txtLen ≠ 0) (hheld : txtHeld s = true)
    {tr : Tree} (htr : TreeOfText (txtContent s) tr) (l : List Instr) :
    ∃ t, runCommands (.count :: .sort :: .build :: .derive :: l) s = runCommands l t
      ∧ t = { s with ft := t.ft, ftLen := t.ftLen, rl := t.rl, rlLen := t.rlLen, ct := some (codeTable tr),
                     ctCount := t.ctCount, tree := none }
      ∧ rlContent t = ranking (txtContent s) := by
  have hft := ftHeld_countBody htext
  have herr : (countBody s).err = none := (countBody_err htext).trans hs
  have hrl : rlContent (sortBody (countBody s)) = ranking (txtContent s) := by
    rw [rlContent_sortBody hft, ftContent_countBody htext, ranking]
  obtain ⟨t, hrun, ht⟩ := runCommands_build_derive (s := sortBody (countBody s)) herr (rlHeld_sortBody hft)
    (hrl ▸ htr.wellFormed) (hrl ▸ htr.built) l
  refine ⟨t, ?_, ?_, ?_⟩
  · rw [runCommands_cons (exec_ready (i := .count) rfl hs hheld),
      runCommands_cons (exec_ready (i := .sort) rfl herr hft), hrun]
  · rw [ht, countBody_text htext]
    rfl
  · rw [ht]
    exact hrl

/-- ENCODE's loop for a text, in a block of a given parameter. -/
def encodeText (p : Params) (tr : Tree) (text : List Symbol) : Except (ErrorCause × Nat) Bits :=
  encodeFrom (codeTable tr) (bitsMax p) 0 text []

theorem encodeText_ok {p : Params} {tr : Tree} {text : List Symbol} {bits : Bits}
    (h : encodeText p tr text = .ok bits) : ∃ codes : List Bits,
      List.Forall₂ (fun x code => readCell (codeTable tr) x.toNat = some code) text codes
        ∧ bits = codes.flatten ∧ bits.length ≤ bitsMax p :=
  encodeFrom_inv h (Nat.zero_le _)

theorem encodeText_error {p : Params} {tr : Tree} {text : List Symbol} (htr : TreeOfText text tr) {e : ErrorCause}
    {i : Nat} (h : encodeText p tr text = .error (e, i)) : e = .capacity :=
  encodeFrom_error_of_codes (fun x hx => readCell_codeTable_ne_none htr.symbols (htr.leaf_of_mem x hx)) h

/-- What COMPRESS leaves of a text whose tree is `tr` and whose bitstring is `bits`. -/
structure Compressed (text : List Symbol) (tr : Tree) (bits : Bits) (t : State) : Prop where
  noError : t.err = none
  list : rlContent t = ranking text
  table : t.ct = some (codeTable tr)
  bitsLen : t.bsLen.toNat = bits.length
  bitstring : bsContent t = bits
  bytesLen : t.byLen.toNat = (packedBytes true bits).length
  bytes : byContent t = packedBytes true bits
  padding : t.padOut = BitVec.ofNat 3 (padCount bits.length)

section
variable {s : State} (hs : s.err = none) (htext : s.txtLen ≠ 0) (hheld : txtHeld s = true) {tr : Tree}
  (htr : TreeOfText (txtContent s) tr)
include hs htext hheld htr

/-- COMPRESS of a text whose codes fit BS. -/
theorem runCommands_compress_ok (hp : paramsLegal s.params) {bits : Bits}
    (hbits : encodeText s.params tr (txtContent s) = .ok bits) :
    ∃ t, runCommands compressCommands s = some t ∧ Compressed (txtContent s) tr bits t := by
  obtain ⟨codes, hcodes, rfl, hfit⟩ := encodeText_ok hbits
  obtain ⟨t, hrun, ht, hrl⟩ := runCommands_frontEnd hs htext hheld htr [.encode, .pack true]
  have herr : t.err = none := by rw [ht]; exact hs
  have hct : t.ct = some (codeTable tr) := by rw [ht]
  obtain ⟨v, hencode, hv, hcells, hlen⟩ := exec_encode_codes (s := t) (codes := codes) hct herr
    (by rw [ht]; exact hheld) (by rw [ht]; exact hcodes) (by rw [ht]; exact hfit) (by rw [ht]; exact hp)
  have hverr : v.err = none := by rw [hv]; exact herr
  have hbs : bsContent v = codes.flatten := content_of_holdsPrefix hcells hlen
  have hpack : exec (.pack true) v = .next (packBody true v) :=
    exec_ready rfl hverr (allWritten_of_holdsPrefix hcells hlen)
  refine ⟨packBody true v, ?_, hverr, ?_, ?_, hlen, hbs, ?_, ?_, ?_⟩
  · rw [compressCommands, hrun, runCommands_cons hencode, runCommands_cons hpack, runCommands]
  · rw [← hrl, hv]
    rfl
  · rw [← hct, hv]
    rfl
  · rw [← hbs]
    exact toNat_ofNat32 (packedBytes_lt true v)
  · rw [byContent_packBody, hbs]
  · rw [← hbs]
    rfl

/-- COMPRESS of a text on which ENCODE raises an error: PACK.T is ignored. -/
theorem runCommands_compress_error {e : ErrorCause} {i : Nat}
    (herror : encodeText s.params tr (txtContent s) = .error (e, i)) :
    ∃ t, runCommands compressCommands s = some t ∧ t.err = some e := by
  obtain ⟨t, hrun, ht, -⟩ := runCommands_frontEnd hs htext hheld htr [.encode, .pack true]
  have hencode : exec .encode t = .next (encodeBody t) :=
    exec_encode_held (by rw [ht]; exact hs) (by rw [ht]; exact hheld)
  rw [encodeBody_error (c := codeTable tr) (by rw [ht]) (by rw [ht]; exact herror)] at hencode
  exact ⟨_, hrun.trans (runCommands_raised hencode rfl (by decide)), rfl⟩

end

/-- The empty text: COUNT raises EmptyInput, and the other commands are ignored. -/
theorem runCommands_compress_empty {s : State} (hs : s.err = none) (hempty : s.txtLen = 0) :
    ∃ t, runCommands compressCommands s = some t ∧ t.err = some .emptyInput := by
  have hcount := exec_ready (i := .count) rfl hs (txtHeld_of_empty hempty)
  rw [countBody_empty hempty] at hcount
  exact ⟨_, runCommands_raised hcount rfl (by decide), rfl⟩

/-- Settles O50: the text is empty, or the loop of ENCODE, which finds every code, decides the outcome. -/
theorem compressionFailsOnlyForCapacity : Obligations.CompressionFailsOnlyForCapacity := by
  unfold Obligations.CompressionFailsOnlyForCapacity
  intro s hs hp hheld
  by_cases htext : s.txtLen = 0
  · obtain ⟨t, hrun, herr⟩ := runCommands_compress_empty hs htext
    exact ⟨t, hrun, fun _ => herr, absurd htext⟩
  · obtain ⟨tr, htr⟩ := exists_treeOfText (txtContent_lt s) (txtContent_ne_nil htext hheld)
    cases hloop : encodeText s.params tr (txtContent s) with
    | ok bits =>
      obtain ⟨t, hrun, hc⟩ := runCommands_compress_ok hs htext hheld htr hp hloop
      exact ⟨t, hrun, (absurd · htext), fun _ => .inl hc.noError⟩
    | error e =>
      obtain ⟨t, hrun, herr⟩ := runCommands_compress_error hs htext hheld htr hloop
      exact ⟨t, hrun, (absurd · htext), fun _ => .inr (encodeText_error htr hloop ▸ herr)⟩

/-- A COMPRESS that ended with no error has left the text's list, table, bitstring and bytes. -/
theorem compress_succeeded {s s' : State} (hs : s.err = none) (hp : paramsLegal s.params) (htext : s.txtLen ≠ 0)
    (hheld : txtHeld s = true) (hrun : runCommands compressCommands s = some s') (herr : s'.err = none) :
    ∃ tr bits, TreeOfText (txtContent s) tr ∧ encodeText s.params tr (txtContent s) = .ok bits
      ∧ Compressed (txtContent s) tr bits s' := by
  obtain ⟨tr, htr⟩ := exists_treeOfText (txtContent_lt s) (txtContent_ne_nil htext hheld)
  cases hloop : encodeText s.params tr (txtContent s) with
  | ok bits =>
    obtain ⟨t, hrun', hc⟩ := runCommands_compress_ok hs htext hheld htr hp hloop
    obtain rfl : s' = t := Option.some.inj (hrun.symm.trans hrun')
    exact ⟨tr, bits, htr, hloop, hc⟩
  | error e =>
    obtain ⟨t, hrun', herr'⟩ := runCommands_compress_error hs htext hheld htr hloop
    obtain rfl : s' = t := Option.some.inj (hrun.symm.trans hrun')
    rw [herr] at herr'
    cases herr'

/-- Settles O49: the second run is on the text of the first, with the same tree and bitstring. -/
theorem compressionIsDeterministic : Obligations.CompressionIsDeterministic := by
  unfold Obligations.CompressionIsDeterministic
  intro s u s' hs hu hp hparams htext hheld huheld hsame hrun herr
  obtain ⟨tr, bits, htr, hbits, hc⟩ := compress_succeeded hs hp htext hheld hrun herr
  have hutext : u.txtLen ≠ 0 := by
    intro hzero
    have hnil : txtContent u = [] := by rw [txtContent, hzero]; rfl
    exact txtContent_ne_nil htext hheld (hsame.trans hnil)
  rw [hsame] at htr hbits hc
  rw [hparams] at hp hbits
  obtain ⟨u', hurun, hcu⟩ := runCommands_compress_ok hu hutext huheld htr hp hbits
  exact ⟨u', hurun, hcu.noError, hc.list.trans hcu.list.symm, hc.table.trans hcu.table.symm,
    BitVec.eq_of_toNat_eq (hc.bitsLen.trans hcu.bitsLen.symm), hc.bitstring.trans hcu.bitstring.symm,
    BitVec.eq_of_toNat_eq (hc.bytesLen.trans hcu.bytesLen.symm), hc.bytes.trans hcu.bytes.symm,
    hc.padding.trans hcu.padding.symm⟩

/-! ## The commands of DECOMPRESS (R139, R142) -/

/-- UNPACK.T of the bytes PACK.T leaves of a bitstring gives the bitstring. -/
theorem exec_unpack_packedBytes {u : State} {bits : Bits} (hu : u.err = none) (hp : paramsLegal u.params)
    (hheld : byHeld u = true) (hby : byContent u = packedBytes true bits) (hfit : bits.length ≤ bitsMax u.params) :
    ∃ t, exec (.unpack true) u = .next t ∧ t = { u with padIn := t.padIn, bs := t.bs, bsLen := t.bsLen }
      ∧ bsHeld t = true ∧ bsContent t = bits := by
  obtain ⟨_, _, hmax⟩ := hp
  have hlen : (BitVec.ofNat 32 bits.length).toNat = bits.length := toNat_ofNat32 (lt_of_le_of_lt hfit hmax)
  exact ⟨_, exec_unpack_payloadBytes (flag := true) hu hheld hby (toNat_ofNat8_padCount _) hfit, rfl,
    allWritten_of_prefix _ _ hlen, content_of_prefix _ _ hlen⟩

/-- DECOMPRESS in a block that holds the ranked list and the bytes of a compressed text. -/
theorem runCommands_decompress {u : State} {text : List Symbol} {tr : Tree} {bits : Bits} (hu : u.err = none)
    (hp : paramsLegal u.params) (htr : TreeOfText text tr) (hbits : encodeText u.params tr text = .ok bits)
    (hrlHeld : rlHeld u = true) (hrl : rlContent u = ranking text) (hbyHeld : byHeld u = true)
    (hby : byContent u = packedBytes true bits) :
    ∃ t, runCommands decompressCommands u = some t
      ∧ t = { u with ct := some (codeTable tr), ctCount := t.ctCount, tree := none, padIn := t.padIn,
                     bs := t.bs, bsLen := t.bsLen, txt := t.txt, txtLen := t.txtLen }
      ∧ t.txtLen.toNat = text.length ∧ txtContent t = text := by
  obtain ⟨codes, hcodes, rfl, hfit⟩ := encodeText_ok hbits
  have hok := codeTable_ok htr.symbols
  obtain ⟨v, hrun, hv⟩ := runCommands_build_derive hu hrlHeld (hrl ▸ htr.wellFormed) (hrl ▸ htr.built)
    [.unpack true, .decode]
  obtain ⟨w, hunpack, hw, hbsHeld, hbs⟩ := exec_unpack_packedBytes (u := v) (bits := codes.flatten)
    (by rw [hv]; exact hu) (by rw [hv]; exact hp) (by rw [hv]; exact hbyHeld) (by rw [hv]; exact hby)
    (by rw [hv]; exact hfit)
  obtain ⟨t, hdecode, ht, htext, hlen⟩ := exec_decode_codes (s := w) (c := codeTable tr) (text := text)
    (by rw [hw, hv]; exact hu) (by rw [hw, hv]) hok hbsHeld (hbs ▸ hok.cutsInto_flatten hcodes)
  refine ⟨t, ?_, ?_, hlen, content_of_holdsPrefix htext hlen⟩
  · rw [decompressCommands, hrun, runCommands_cons hunpack, runCommands_cons hdecode, runCommands]
  · rw [ht, hw, hv]

/-- Settles O51: the list and the bytes are those COMPRESS leaves of the text. -/
theorem decompressUndoesCompress : Obligations.DecompressUndoesCompress := by
  unfold Obligations.DecompressUndoesCompress
  intro s s' u hs hp htext hheld hrlHeld hbyHeld hrun herr hu hparams _ hrl _ hby
  obtain ⟨tr, bits, htr, hbits, hc⟩ := compress_succeeded hs hp htext hheld hrun herr
  rw [← hparams] at hp hbits
  obtain ⟨t, hrun', ht, hlen, hcontent⟩ :=
    runCommands_decompress hu hp htr hbits hrlHeld (hrl.trans hc.list) hbyHeld (hby.trans hc.bytes)
  exact ⟨t, hrun', by rw [ht]; exact hu, BitVec.eq_of_toNat_eq (hlen.trans (txtContent_length hheld)), hcontent⟩

/-! ## Runs one after the other -/

theorem core_run_add (M : Host.Core) {s t : M.State} {n : Nat} (h : M.run n s = .next t) (m : Nat) :
    M.run (n + m) s = M.run m t := by
  induction n generalizing s with
  | zero =>
    cases h
    rw [Nat.zero_add]
  | succ n ih =>
    cases hstep : M.step s with
    | next u =>
      rw [core_run_succ M n hstep] at h
      rw [Nat.add_right_comm, core_run_succ M (n + m) hstep, ih h]
    | fault r | refused r => simp [Host.Core.run, hstep] at h

/-- A run that ends in a state goes on from that state. -/
theorem run_add {s t : State} {n : Nat} (h : Sys2Proof.core.run n s = .next t) (m : Nat) :
    Sys2Proof.core.run (n + m) s = Sys2Proof.core.run m t :=
  core_run_add Sys2Proof.core h m

theorem run_one {s t : State} (h : step s = .next t) : Sys2Proof.core.run 1 s = .next t :=
  run_succ 0 h

/-! ## Commands issued by the host -/

/-- A state seen from the port: with other transactions pending, another BUSY and another answer. -/
def withPort (rest : List Txn) (busy : Bool) (r : Response) (s : State) : State :=
  { s with pending := rest, busy := busy, response := r }

/-- A state after a transaction that was done, with the later ones pending. -/
def atPort (rest : List Txn) (s : State) : State := withPort rest false .done s

section
variable (rest : List Txn) (busy : Bool) (r : Response) (s : State)

theorem raise_withPort (d : Dest) (e : ErrorCause) (info : Reg32) :
    raise d e info (withPort rest busy r s) = withPort rest busy r (raise d e info s) := by
  cases d <;> rfl

theorem countBody_withPort : countBody (withPort rest busy r s) = withPort rest busy r (countBody s) := by
  by_cases h : s.txtLen = 0
  · rw [countBody_empty h, countBody_empty (s := withPort rest busy r s) h]; rfl
  · rw [countBody_text h, countBody_text (s := withPort rest busy r s) h]; rfl

theorem buildBody_withPort : buildBody (withPort rest busy r s) = withPort rest busy r (buildBody s) := by
  by_cases hempty : s.rlLen = 0
  · rw [buildBody_empty hempty, buildBody_empty (s := withPort rest busy r s) hempty]; rfl
  by_cases hwf : ∀ i, ¬ IllFormedEntry (rlContent s) i
  · rw [buildBody_wellFormed hempty hwf, buildBody_wellFormed (s := withPort rest busy r s) hempty hwf]; rfl
  · obtain ⟨i, hi, hfirst⟩ := exists_first_illFormed (not_forall_not.1 hwf)
    rw [buildBody_illFormed hi hfirst, buildBody_illFormed (s := withPort rest busy r s) hi hfirst]; rfl

theorem deriveBody_withPort : deriveBody (withPort rest busy r s) = withPort rest busy r (deriveBody s) := by
  cases h : s.tree with
  | none => rw [deriveBody_noTree h, deriveBody_noTree (s := withPort rest busy r s) h]; rfl
  | some tr => rw [deriveBody_tree h, deriveBody_tree (s := withPort rest busy r s) h]; rfl

theorem encodeBody_withPort : encodeBody (withPort rest busy r s) = withPort rest busy r (encodeBody s) := by
  cases hct : s.ct with
  | none => rw [encodeBody_noTable hct, encodeBody_noTable (s := withPort rest busy r s) hct]; rfl
  | some c =>
    cases h : encodeFrom c (bitsMax s.params) 0 (txtContent s) [] with
    | error e => rw [encodeBody_error hct h, encodeBody_error (s := withPort rest busy r s) hct h]; rfl
    | ok bits => rw [encodeBody_bits hct h, encodeBody_bits (s := withPort rest busy r s) hct h]; rfl

theorem expandPayload_withPort (payload : List Byte) (np : Nat) :
    expandPayload payload np (withPort rest busy r s) = withPort rest busy r (expandPayload payload np s) := by
  cases h : payloadError np s with
  | none => rw [expandPayload_bits h, expandPayload_bits (s := withPort rest busy r s) h]; rfl
  | some e => rw [expandPayload_error h, expandPayload_error (s := withPort rest busy r s) h]; rfl

theorem unpackBody_withPort (flag : Bool) :
    unpackBody flag (withPort rest busy r s) = withPort rest busy r (unpackBody flag s) := by
  have hby : byContent (withPort rest busy r s) = byContent s := rfl
  cases flag with
  | false => exact expandPayload_withPort rest busy r s _ _
  | true =>
    rw [unpackBody, unpackBody, if_pos rfl, if_pos rfl, hby]
    cases (byContent s).getLast? with
    | none => exact raise_withPort rest busy r s _ _ _
    | some trailer => exact expandPayload_withPort rest busy r { s with padIn := trailer } _ _

theorem decodeBody_withPort : decodeBody (withPort rest busy r s) = withPort rest busy r (decodeBody s) := by
  have hct : (withPort rest busy r s).ct = s.ct := rfl
  have hbs : bsContent (withPort rest busy r s) = bsContent s := rfl
  unfold decodeBody
  rw [hct, hbs]
  cases s.ct with
  | none => exact raise_withPort rest busy r s _ _ _
  | some c =>
    dsimp only
    cases decodeFrom c 0 (bsContent s) [] 0 [] with
    | error start => exact raise_withPort rest busy r s _ _ _
    | ok text => rfl

/-- No command's body looks at the port. -/
theorem body_withPort {i : Instr} {body : State → State} (hb : bodyOf i = some body) :
    body (withPort rest busy r s) = withPort rest busy r (body s) := by
  cases i <;> cases hb
  · exact countBody_withPort rest busy r s
  · rfl
  · exact buildBody_withPort rest busy r s
  · exact deriveBody_withPort rest busy r s
  · exact encodeBody_withPort rest busy r s
  · rfl
  · exact unpackBody_withPort rest busy r s _
  · exact decodeBody_withPort rest busy r s

theorem heldFor_withPort (i : Instr) : heldFor i (withPort rest busy r s) = heldFor i s := by
  cases i <;> rfl

end

/-- Apart from CLEAR, which takes BUSY back, a command leaves the port as it finds it and does the same whatever it
finds there. -/
theorem exec_withPort {i : Instr} (hi : i ≠ .clear) {s t : State} (h : exec i s = .next t) (rest : List Txn)
    (busy : Bool) (r : Response) : exec i (withPort rest busy r s) = .next (withPort rest busy r t) := by
  rcases exec_cases h with ⟨rfl, rfl⟩ | ⟨hclear, _⟩ | ⟨⟨e, he⟩, rfl⟩ | ⟨body, hb, hs, hheld, rfl⟩
  · rfl
  · exact absurd hclear hi
  · exact exec_ignored (s := withPort rest busy r t) he hi
  · rw [exec_ready (s := withPort rest busy r s) hb hs ((heldFor_withPort rest busy r s i).trans hheld),
      body_withPort rest busy r s hb]

/-- A command the host issues does to the block what its execution does. -/
theorem step_commandTxn {i : Instr} (hi : i ≠ .clear) {s t : State} (h : exec i s = .next t) (rest : List Txn) :
    step (atPort (commandTxn i :: rest) s) = .next (atPort rest t) := by
  have hx : exec i (beginCommand rest (atPort (commandTxn i :: rest) s)) = .next (withPort rest true .done t) :=
    exec_withPort hi h rest true .done
  rw [step_command rfl (decode_encode i), hx]
  rfl

theorem exec_next_of_runCommands {i : Instr} {l : List Instr} {s t : State} (h : runCommands (i :: l) s = some t) :
    ∃ u, exec i s = .next u ∧ runCommands l u = some t := by
  rw [runCommands] at h
  cases hx : exec i s with
  | next u => exact ⟨u, rfl, by simpa [hx] using h⟩
  | fault r | refused r => simp [hx, nextState?] at h

/-- Commands the host issues one after the other do what their executions do. -/
theorem run_commandTxns {l : List Instr} (hl : ∀ i ∈ l, i ≠ .clear) {s t : State} (h : runCommands l s = some t)
    (rest : List Txn) :
    Sys2Proof.core.run l.length (atPort (l.map commandTxn ++ rest) s) = .next (atPort rest t) := by
  induction l generalizing s with
  | nil => cases h; rfl
  | cons i l ih =>
    obtain ⟨u, hx, hrun⟩ := exec_next_of_runCommands h
    have hstep := step_commandTxn (hl i List.mem_cons_self) hx (l.map commandTxn ++ rest)
    exact (run_succ l.length hstep).trans (ih (fun j hj => hl j (List.mem_cons_of_mem _ hj)) hrun)

/-- The host's read of STATUS. -/
theorem step_readStatus {s : State} {rest : List Txn} :
    step (atPort (readStatus :: rest) s) =
      .next (answer ((statusReg (atPort rest s)).setWidth 40) (atPort rest s)) := by
  rw [step_memRead rfl, memRead_csr (r := .status) rfl]
  rfl

/-- Commands and the read of STATUS behind them, as both of the host's sequences end. -/
theorem run_commandTxns_readStatus {l : List Instr} (hl : ∀ i ∈ l, i ≠ .clear) {s t : State}
    (h : runCommands l s = some t) :
    Sys2Proof.core.run (l.length + 1) (atPort (l.map commandTxn ++ [readStatus]) s) =
      .next (answer ((statusReg (atPort [] t)).setWidth 40) (atPort [] t)) := by
  rw [run_add (run_commandTxns hl h [readStatus]), run_one step_readStatus]

/-- A state whose port is as a transaction that was done leaves it. -/
theorem eq_atPort {s : State} {rest : List Txn} (hpending : s.pending = rest) (hbusy : s.busy = false)
    (hresponse : s.response = .done) : s = atPort rest s := by
  cases s
  cases hpending; cases hbusy; cases hresponse
  rfl

/-! ## The lines that load RL and BY -/

theorem memWrites_takeTxn (space : BitVec 4) (rest : List Txn) (vs : List PortData) (k : Nat) (s : State) :
    memWrites space k vs (takeTxn rest s) = takeTxn rest (memWrites space k vs s) := by
  induction vs generalizing k s with
  | nil => rfl
  | cons v vs ih => rw [memWrites, memWrite_takeTxn, ih, memWrites]

section
variable {α : Type} {space : BitVec 4} {layout : α → PortData} {cap : Nat} {put : Cells α → Response → State}
  (hwrite : ∀ k x c r, k < cap →
    memWrite space (BitVec.ofNat 32 k) (layout x) (put c r) = put (writeCell c k x) .done)
include hwrite

/-- The write lines of a buffer write its elements one by one, where the write of one element is a write of its cell;
`put` is the state as a function of the buffer's cells and the port's answer. -/
theorem memWrites_cells (vs : List α) {k : Nat} (c : Cells α) (r : Response) (hfit : k + vs.length ≤ cap) :
    ∃ r', memWrites space k (vs.map layout) (put c r) = put (writeCells k vs c) r' := by
  induction vs generalizing k c r with
  | nil => exact ⟨r, rfl⟩
  | cons v vs ih =>
    rw [List.length_cons] at hfit
    rw [List.map_cons, memWrites, hwrite k v c r (by omega)]
    exact ih (writeCell c k v) .done (by omega)

/-- The lines that load a buffer, those of its elements and then that of its length register; `done` is the state
after the last as a function of the buffer's cells. -/
theorem run_bufferLines {vs : List α} {n : Nat} {done : Cells α → State} (hreg : ∀ c r,
      memWrite 0 (BitVec.ofNat 32 n) ((BitVec.ofNat 32 vs.length).setWidth 40) (put c r) = done c)
    (hfit : vs.length ≤ cap) (hlen : vs.length < 2 ^ 32) {c : Cells α} {r : Response} {rest : List Txn}
    (hp : (put c r).pending = writeLines space 0 (vs.map layout) ++ writeReg n vs.length :: rest) :
    Sys2Proof.core.run (vs.length + 1) (put c r) = .next (takeTxn rest (done (writeCells 0 vs c))) := by
  obtain ⟨r', hlines⟩ := memWrites_cells hwrite vs (k := 0) c r (by omega)
  have hdata : BitVec.ofNat 40 vs.length = (BitVec.ofNat 32 vs.length).setWidth 40 := by
    refine BitVec.eq_of_toNat_eq ?_
    rw [BitVec.toNat_setWidth, toNat_ofNat32 hlen, BitVec.toNat_ofNat]
  have hrun := run_writeLines 1 hp
  rw [List.length_map, memWrites_takeTxn, hlines, run_one (step_memWrite rfl), hdata, memWrite_takeTxn,
    memWrite_takeTxn, hreg] at hrun
  exact hrun

end

theorem entryOfWord_wordOfEntry (e : Entry) : entryOfWord (wordOfEntry e) = e := by
  have hsym : (wordOfEntry e).extractLsb' 0 8 = e.sym := BitVec.extractLsb'_append_eq_right
  have hcnt : (wordOfEntry e).extractLsb' 8 32 = e.cnt := BitVec.extractLsb'_append_eq_left
  rw [entryOfWord, hsym, hcnt]

/-- A state with other cells in RL and another answer of the port. -/
def putRl (s : State) (c : Cells Entry) (r : Response) : State := { s with rl := c, response := r }

/-- A state with other cells in BY and another answer of the port. -/
def putBy (s : State) (c : Cells Byte) (r : Response) : State := { s with byBuf := c, response := r }

theorem memWrite_putRl (s : State) (k : Nat) (e : Entry) (c : Cells Entry) (r : Response) (hk : k < nsymMax) :
    memWrite 3 (BitVec.ofNat 32 k) (wordOfEntry e) (putRl s c r) = putRl s (writeCell c k e) .done := by
  have hindex : (BitVec.ofNat 32 k).toNat = k := toNat_ofNat32 (hk.trans (by decide))
  rw [memWrite_rl _ (by rwa [hindex]), hindex, entryOfWord_wordOfEntry]
  rfl

theorem memWrite_putBy {s : State} (hcap : byCap s.params < 2 ^ 32) (k : Nat) (b : Byte) (c : Cells Byte) (r : Response)
    (hk : k < byCap s.params) :
    memWrite 7 (BitVec.ofNat 32 k) (b.setWidth 40) (putBy s c r) = putBy s (writeCell c k b) .done := by
  have hindex : (BitVec.ofNat 32 k).toNat = k := toNat_ofNat32 (hk.trans hcap)
  have hdata : (b.setWidth 40).setWidth 8 = b := by simp
  rw [memWrite_byBuf _ (by rwa [hindex]), hindex, hdata]
  rfl

theorem memWrite_rlLen_putRl (s : State) {n : Reg32} (hfit : n.toNat ≤ nsymMax) (c : Cells Entry) (r : Response) :
    memWrite 0 (BitVec.ofNat 32 3) (n.setWidth 40) (putRl s c r) = putRl { s with rlLen := n } c .done := by
  obtain ⟨_, _, hrlLen, _⟩ := lengthAndPadInWrites (putRl s c r) n
  exact hrlLen hfit

theorem memWrite_byLen_putBy (s : State) {n : Reg32} (hfit : n.toNat ≤ byCap s.params) (c : Cells Byte) (r : Response) :
    memWrite 0 (BitVec.ofNat 32 5) (n.setWidth 40) (putBy s c r) = putBy { s with byLen := n } c .done := by
  obtain ⟨_, _, _, _, hbyLen, _⟩ := lengthAndPadInWrites (putBy s c r) n
  exact hbyLen hfit

/-- The host's lines that load RL: after them it holds the list, and only RL and RL_LEN have changed. -/
theorem run_listLines {s : State} {list : List Entry} {rest : List Txn} (hfit : list.length ≤ nsymMax)
    (hp : s.pending = writeLines 3 0 (list.map wordOfEntry) ++ writeReg 3 list.length :: rest) :
    ∃ t, Sys2Proof.core.run (list.length + 1) s = .next t
      ∧ t = { s with rl := t.rl, rlLen := t.rlLen, pending := rest, response := .done }
      ∧ rlHeld t = true ∧ rlContent t = list := by
  have hlt : list.length < 2 ^ 32 := lt_of_le_of_lt hfit (by decide)
  have hlen := toNat_ofNat32 hlt
  have hread := (replaced_writeCells list s.rl).holdsPrefix
  have hrun := run_bufferLines (memWrite_putRl s) (memWrite_rlLen_putRl s (hlen.trans_le hfit)) hfit hlt
    (c := s.rl) (r := s.response) hp
  exact ⟨_, hrun, rfl, allWritten_of_holdsPrefix hread hlen, content_of_holdsPrefix hread hlen⟩

/-- The host's lines that load BY: after them it holds the bytes, and only BY and BY_LEN have changed. -/
theorem run_byteLines {s : State} {bytes : List Byte} {rest : List Txn} (hlegal : paramsLegal s.params)
    (hfit : bytes.length ≤ byCap s.params)
    (hp : s.pending = writeLines 7 0 (bytes.map (·.setWidth 40)) ++ writeReg 5 bytes.length :: rest) :
    ∃ t, Sys2Proof.core.run (bytes.length + 1) s = .next t
      ∧ t = { s with byBuf := t.byBuf, byLen := t.byLen, pending := rest, response := .done }
      ∧ byHeld t = true ∧ byContent t = bytes := by
  obtain ⟨_, hcap, _⟩ := hlegal
  have hlt : bytes.length < 2 ^ 32 := lt_of_le_of_lt hfit hcap
  have hlen := toNat_ofNat32 hlt
  have hread := (replaced_writeCells bytes s.byBuf).holdsPrefix
  have hrun := run_bufferLines (memWrite_putBy hcap) (memWrite_byLen_putBy s (hlen.trans_le hfit)) hfit hlt
    (c := s.byBuf) (r := s.response) hp
  exact ⟨_, hrun, rfl, allWritten_of_holdsPrefix hread hlen, content_of_holdsPrefix hread hlen⟩

/-! ## The host's sequences (R138, R139) -/

/-- The host's COMPRESS up to its commands: CLEAR and the lines of the text leave a ready block that holds it. -/
theorem run_compressTxns_load {s : State} {text : List Symbol} (hlegal : paramsLegal s.params)
    (hfit : text.length ≤ textMax s.params) (hp : s.pending = compressTxns text) :
    ∃ t, Sys2Proof.core.run (1 + (text.length + 1)) s =
        .next (atPort (compressCommands.map commandTxn ++ [readStatus]) t)
      ∧ t.err = none ∧ t.params = s.params ∧ t.txtLen.toNat = text.length ∧ txtContent t = text := by
  rw [compressTxns, List.append_assoc, List.cons_append] at hp
  obtain ⟨t, hload, ht, hlen, htext, _⟩ := hostLinesLoadTheText (atPort _ (emptied s)) text
    (compressCommands.map commandTxn ++ [readStatus]) hfit hlegal rfl
  refine ⟨t, ?_, by rw [ht]; rfl, by rw [ht]; rfl, hlen, htext⟩
  rw [run_add (run_one (step_clear hp))]
  exact hload.trans (congrArg _ (eq_atPort (by rw [ht]) (by rw [ht]; rfl) (by rw [ht])))

theorem run_decompressTxns_load {u : State} {list : List Entry} {bytes : List Byte} (hlegal : paramsLegal u.params)
    (hlist : list.length ≤ nsymMax) (hbytes : bytes.length ≤ byCap u.params)
    (hp : u.pending = decompressTxns list bytes) :
    ∃ t, Sys2Proof.core.run (1 + (list.length + 1) + (bytes.length + 1)) u =
        .next (atPort (decompressCommands.map commandTxn ++ [readStatus]) t)
      ∧ t.err = none ∧ t.params = u.params ∧ rlHeld t = true ∧ rlContent t = list ∧ byHeld t = true
      ∧ byContent t = bytes := by
  simp only [decompressTxns, List.append_assoc, List.cons_append] at hp
  obtain ⟨v, hloadList, hv, hrlHeld, hrl⟩ := run_listLines (s := atPort _ (emptied u)) hlist rfl
  obtain ⟨t, hloadBytes, ht, hbyHeld, hby⟩ := run_byteLines (s := v) (bytes := bytes)
    (rest := decompressCommands.map commandTxn ++ [readStatus]) (by rw [hv]; exact hlegal) (by rw [hv]; exact hbytes)
    (by rw [hv])
  refine ⟨t, ?_, by rw [ht, hv]; rfl, by rw [ht, hv]; rfl, by rw [ht]; exact hrlHeld, by rw [ht]; exact hrl, hbyHeld,
    hby⟩
  rw [run_add ((run_add (run_one (step_clear hp)) _).trans hloadList)]
  exact hloadBytes.trans (congrArg _ (eq_atPort (by rw [ht]) (by rw [ht, hv]; rfl) (by rw [ht])))

/-- The bytes PACK.T leaves of a bitstring that fits BS fit BY. -/
theorem packedBytes_length_le {p : Params} {bits : Bits} (hfit : bits.length ≤ bitsMax p) :
    (packedBytes true bits).length ≤ byCap p := by
  have hmul := payloadBytes_length_mul bits
  have hpad := padCount_lt bits.length
  rw [packedBytes_length, if_pos rfl, byCap]
  rw [bitsMax] at hfit
  omega

theorem compressTxns_length (text : List Symbol) :
    (compressTxns text).length = 1 + (text.length + 1) + (compressCommands.length + 1) := by
  simp [compressTxns]
  omega

theorem decompressTxns_length (list : List Entry) (bytes : List Byte) : (decompressTxns list bytes).length
    = 1 + (list.length + 1) + (bytes.length + 1) + (decompressCommands.length + 1) := by
  simp [decompressTxns]
  omega

/-- Where the host's transactions end with no error, they have compressed the text. -/
theorem run_compressTxns {s s' : State} {text : List Symbol} (hlegal : paramsLegal s.params) (hne : 1 ≤ text.length)
    (hfit : text.length ≤ textMax s.params) (hp : s.pending = compressTxns text)
    (hrun : Sys2Proof.core.run (compressTxns text).length s = .next s') (herr : s'.err = none) :
    ∃ tr bits, TreeOfText text tr ∧ encodeText s.params tr text = .ok bits
      ∧ rlContent s' = ranking text ∧ byContent s' = packedBytes true bits := by
  obtain ⟨t, hload, ht, hparams, hlen, rfl⟩ := run_compressTxns_load hlegal hfit hp
  rw [← hparams] at hlegal ⊢
  have htext : t.txtLen ≠ 0 := by
    intro hzero
    rw [hzero] at hlen
    exact absurd hne (by simp [← hlen])
  have hheld : txtHeld t = true := allWritten_of_content_length hlen.symm
  obtain ⟨v, hcommands, _⟩ := compressionFailsOnlyForCapacity t ht hlegal hheld
  rw [compressTxns_length, run_add hload, run_commandTxns_readStatus (by decide) hcommands] at hrun
  cases hrun
  obtain ⟨tr, bits, htr, hbits, hc⟩ := compress_succeeded ht hlegal htext hheld hcommands herr
  exact ⟨tr, bits, htr, hbits, hc.list, hc.bytes⟩

/-- The host's transactions that decompress the list and the bytes of a compressed text. -/
theorem run_decompressTxns {u : State} {text : List Symbol} {tr : Tree} {bits : Bits} (hlegal : paramsLegal u.params)
    (htr : TreeOfText text tr) (hbits : encodeText u.params tr text = .ok bits) (hlen : text.length < 2 ^ 32)
    (hp : u.pending = decompressTxns (ranking text) (packedBytes true bits)) :
    ∃ t, Sys2Proof.core.run (decompressTxns (ranking text) (packedBytes true bits)).length u = .next t
      ∧ t.err = none ∧ t.txtLen.toNat = text.length ∧ txtContent t = text ∧ t.pending = []
      ∧ t.response = .data 0x20 := by
  obtain ⟨_, _, _, hfit⟩ := encodeText_ok hbits
  obtain ⟨v, hload, hv, hparams, hrlHeld, hrl, hbyHeld, hby⟩ :=
    run_decompressTxns_load hlegal (ranking_length_le hlen) (packedBytes_length_le hfit) hp
  rw [← hparams] at hlegal hbits
  obtain ⟨t, hcommands, ht, htextLen, htext⟩ := runCommands_decompress hv hlegal htr hbits hrlHeld hrl hbyHeld hby
  have herr : t.err = none := by rw [ht]; exact hv
  have hstatus : statusReg (atPort [] t) = 0x20 := by
    rw [ht]
    simp [statusReg, atPort, withPort, ctValid, treeValid, errField, hv]
  rw [decompressTxns_length, run_add hload, run_commandTxns_readStatus (by decide) hcommands, hstatus]
  exact ⟨_, rfl, herr, htextLen, htext, rfl, rfl⟩

/-- Settles O52: the first block's transactions have compressed the text, and the other's decompress what they left. -/
theorem hostRoundTrip : Obligations.HostRoundTrip := by
  unfold Obligations.HostRoundTrip
  intro s s' u text hlegal hparams hne hfit hp hrun herr hup
  obtain ⟨tr, bits, htr, hbits, hrl, hby⟩ := run_compressTxns hlegal hne hfit hp hrun herr
  have hlen : text.length < 2 ^ 32 := lt_of_le_of_lt hfit (textMax_lt hlegal)
  rw [← hparams] at hlegal hbits
  rw [hrl, hby] at hup ⊢
  exact run_decompressTxns hlegal htr hbits hlen hup

end Sys2Proof.Machine

/-! SUPPORT AND PROOFS. The statements about the exceptions (60_exceptions.md): the numbers of the errors, the
whole state after a command that raised one, and what leaves the faulted state. -/

namespace Sys2Proof.Machine

/-! ## The codes in STATUS.ERR (R151) -/

theorem errField_of_none {s : State} (h : s.err = none) : errField s = 0 := by
  unfold errField
  rw [h]
  rfl

theorem errField_of_some {s : State} {e : ErrorCause} (h : s.err = some e) : errField s = errorCode e := by
  unfold errField
  rw [h]

theorem errorCode_le (e : ErrorCause) : (errorCode e).toNat ≤ 9 := by cases e <;> decide

/-- Settles O14: STATUS.ERR is 0 or the code of the recorded error, which the table gives. -/
theorem errorCodes : Obligations.ErrorCodes := by
  unfold Obligations.ErrorCodes
  refine ⟨fun s h => errField_of_none h, fun s e h => ?_, fun s => ?_⟩
  · rw [errField_of_some h]
    cases e <;> rfl
  · cases h : s.err with
    | none => rw [errField_of_none h]; decide
    | some e => rw [errField_of_some h]; exact errorCode_le e

/-! ## The state after an error (R152) -/

/-- PAD_IN after a command that executes, CLEAR apart: UNPACK.T leaves the trailer there, if BY has a last byte
(44_bitstream_decoder.md R121). -/
def padInAfter : Instr → State → Byte
  | .unpack true, s => (byContent s).getLast?.getD s.padIn
  | _, s => s.padIn

theorem expandPayload_padIn (payload : List Byte) (np : Nat) (s : State) :
    (expandPayload payload np s).padIn = s.padIn := by
  unfold expandPayload
  split
  · exact raise_padIn _ _ _ _
  · rfl

theorem unpackBody_trailer_padIn (s : State) : (unpackBody true s).padIn = padInAfter (.unpack true) s := by
  rw [unpackBody, if_pos rfl, padInAfter]
  cases (byContent s).getLast? with
  | none => rfl
  | some trailer => exact expandPayload_padIn _ _ _

/-- What a command leaves in PAD_IN, whether or not it raises an error. -/
theorem exec_padIn {i : Instr} {s t : State} (hs : s.err = none) (hx : exec i s = .next t)
    (heff : BodyEffect i s t) : t.padIn = padInAfter i s := by
  by_cases hi : i = .unpack true
  · subst hi
    obtain ⟨_, rfl⟩ := exec_next_of_body (i := .unpack true) rfl hs hx
    exact unpackBody_trailer_padIn s
  · rw [heff.padIn.resolve_right hi]
    unfold padInAfter
    split
    · exact absurd rfl hi
    · rfl

/-- A command that ends with an error where none was recorded has raised one of its own errors, and nothing but
`raise` and the trailer has changed the state. -/
theorem exec_raised {i : Instr} {s t : State} (hs : s.err = none) (hx : exec i s = .next t) (ht : t.err ≠ none) :
    ∃ d e info, Raises i d e ∧ t = raise d e info { s with padIn := padInAfter i s } := by
  rcases exec_effect hx with ⟨_, rfl⟩ | ⟨_, rfl⟩ | ⟨⟨e, he⟩, _⟩ | ⟨_, heff⟩
  · exact absurd hs ht
  · exact absurd rfl ht
  · rw [hs] at he
    cases he
  · have hpad := exec_padIn hs hx heff
    cases heff with
    | @raised _ _ d e info pad hr _ =>
      rw [raise_padIn] at hpad
      exact ⟨d, e, info, hr, by rw [← hpad]⟩
    | _ => exact absurd hs ht

theorem execIllegal_ready {w : CmdWord} {s : State} (hs : s.err = none) :
    execIllegal w s = .next { s with err := some .illegalCommand, errInfo := w.setWidth 32 } := by
  rw [execIllegal, whenReady_ready hs rfl]
  rfl

/-- Settles O16: a command's errors all invalidate one destination, which `raise` empties, and NOP, CLEAR, SORT and
PACK have none. -/
theorem raisedErrorsArePrecise : Obligations.RaisedErrorsArePrecise := by
  unfold Obligations.RaisedErrorsArePrecise
  refine ⟨fun i s t hs hx => ?_, fun w s t hs hx => ?_⟩
  · by_cases ht : t.err = none
    · cases i with
      | nop | clear | sort | pack => exact ht
      | unpack flag => cases flag <;> exact absurd ht
      | _ => exact absurd ht
    · obtain ⟨_, _, _, hr, rfl⟩ := exec_raised hs hx ht
      cases hr with
      | unpackInvalidPadding flag | unpackCapacity flag => cases flag <;> exact fun _ => rfl
      | _ => exact fun _ => rfl
  · rw [execIllegal_ready hs] at hx
    cases hx
    rfl

/-! ## Out of the faulted state (R154) -/

theorem issuesReset_iff (s : State) : IssuesReset s ↔ s.pending.head? = some .reset := by
  rw [IssuesReset, List.head?_eq_some_iff]

theorem issuesCommand_singleton_iff (s : State) (w : CmdWord) :
    IssuesCommand s [w] ↔ s.pending.head? = some (.cmd w) := by
  simp only [IssuesCommand, List.mem_singleton, List.head?_eq_some_iff]
  constructor
  · rintro ⟨_, rest, hp, rfl⟩
    exact ⟨rest, hp⟩
  · rintro ⟨rest, hp⟩
    exact ⟨w, rest, hp, rfl⟩

/-- Settles O8, by the transaction the step takes: a reset and CLEAR's word empty the block, any other word is
ignored, and the port writes neither ERR nor ERR_INFO. -/
theorem onlyClearAndResetLeaveTheFaultedState : Obligations.OnlyClearAndResetLeaveTheFaultedState := by
  unfold Obligations.OnlyClearAndResetLeaveTheFaultedState
  intro s t e he hstep
  rw [issuesReset_iff, issuesCommand_singleton_iff]
  cases hp : s.pending with
  | nil =>
    rw [step_idle hp] at hstep
    cases hstep
    exact .inl ⟨he, rfl, nofun, nofun⟩
  | cons txn rest =>
    cases txn with
    | cmd w =>
      by_cases hw : w = encode .clear
      · subst hw
        rw [step_clear hp] at hstep
        cases hstep
        exact .inr ⟨.inr rfl, rfl⟩
      · rw [step_ignored hp he hw] at hstep
        cases hstep
        exact .inl ⟨he, rfl, nofun, fun hclear => hw (Txn.cmd.inj (Option.some.inj hclear))⟩
    | memRead space index =>
      obtain ⟨r, d, hread⟩ := memRead_eq space index (takeTxn rest s)
      rw [step_memRead hp, hread] at hstep
      cases hstep
      exact .inl ⟨he, rfl, nofun, nofun⟩
    | memWrite space index v =>
      obtain ⟨_, herr, _, _, _, herrInfo, _⟩ := memWrite_frame space index v (takeTxn rest s)
      rw [step_memWrite hp] at hstep
      cases hstep
      exact .inl ⟨herr.trans he, herrInfo, nofun, nofun⟩
    | reset =>
      rw [step_reset hp] at hstep
      cases hstep
      exact .inr ⟨.inl rfl, rfl⟩

end Sys2Proof.Machine

/-! SUPPORT AND PROOFS. The statements about hazards (70_reset_and_hazards.md): that every command and every step ends
or is refused, and what a command does whose input is missing. -/

namespace Sys2Proof.Machine

/-! ## Every command ends (R176) -/

/-- While an error is recorded every command ends: CLEAR empties the block, any other is ignored. -/
theorem exec_next_of_err {s : State} (h : s.err ≠ none) (i : Instr) : ∃ t, exec i s = .next t := by
  obtain ⟨e, he⟩ := Option.ne_none_iff_exists'.1 h
  by_cases hi : i = .clear
  · subst hi
    exact ⟨emptied s, rfl⟩
  · exact ⟨s, exec_ignored he hi⟩

theorem exec_next_of_err_or_not_readsUnwritten {i : Instr} {s : State} (h : s.err ≠ none ∨ ¬ ReadsUnwritten i s) :
    ∃ t, exec i s = .next t := by
  by_cases hs : s.err = none
  · exact exec_next_of_not_readsUnwritten hs (h.resolve_left (not_not_intro hs))
  · exact exec_next_of_err hs i

/-- The step on a command's word ends unless the command is refused. -/
theorem step_command_next {s : State} {w : CmdWord} {rest : List Txn} {i : Instr} (hp : s.pending = .cmd w :: rest)
    (hd : decode w = .ok i) (h : s.err ≠ none ∨ ¬ ReadsUnwritten i s) : ∃ t, step s = .next t := by
  obtain ⟨t, hx⟩ := exec_next_of_err_or_not_readsUnwritten (s := beginCommand rest s)
    (h.imp_right (mt (readsUnwritten_beginCommand i rest s).1))
  exact ⟨endCommand t, by rw [step_command hp hd, hx, mapNext_next]⟩

theorem step_command_refused {s : State} {w : CmdWord} {rest : List Txn} {i : Instr}
    (hp : s.pending = .cmd w :: rest) (hd : decode w = .ok i) (hs : s.err = none) (hr : ReadsUnwritten i s) :
    step s = .refused .unwrittenInput := by
  rw [step_command hp hd, exec_refused (s := beginCommand rest s) hs ((readsUnwritten_beginCommand i rest s).2 hr),
    mapNext_refused]

theorem step_illegal_next {s : State} {w : CmdWord} {rest : List Txn} (hp : s.pending = .cmd w :: rest)
    (hw : ¬ LegalWord w) : ∃ t, step s = .next t := by
  cases hs : s.err with
  | none => exact ⟨_, step_illegal_ready hp hw hs⟩
  | some e => exact ⟨_, step_illegal_faulted hp hw hs⟩

/-- A step ends, or the command it executes is refused. -/
theorem step_next_or_refused (s : State) : (∃ t, step s = .next t)
    ∨ ∃ w rest i, s.pending = .cmd w :: rest ∧ decode w = .ok i ∧ s.err = none ∧ ReadsUnwritten i s
        ∧ step s = .refused .unwrittenInput := by
  cases hp : s.pending with
  | nil => exact .inl ⟨s, step_idle hp⟩
  | cons txn rest =>
    cases txn with
    | cmd w =>
      by_cases hw : LegalWord w
      · obtain ⟨i, hd⟩ := hw
        by_cases hrefused : s.err = none ∧ ReadsUnwritten i s
        · obtain ⟨hs, hr⟩ := hrefused
          exact .inr ⟨w, rest, i, rfl, hd, hs, hr, step_command_refused hp hd hs hr⟩
        · exact .inl (step_command_next hp hd (not_and_or.1 hrefused))
      · exact .inl (step_illegal_next hp hw)
    | memRead space index => exact .inl ⟨_, step_memRead hp⟩
    | memWrite space index v => exact .inl ⟨_, step_memWrite hp⟩
    | reset => exact .inl ⟨_, step_reset hp⟩

/-- Settles O6: a refusal needs an unwritten element and no recorded error, and only a command's word meets one. -/
theorem everyStepEndsOrIsRefused : Obligations.EveryStepEndsOrIsRefused := by
  unfold Obligations.EveryStepEndsOrIsRefused
  exact ⟨fun _ _ => exec_refused, fun _ _ => exec_next_of_err_or_not_readsUnwritten, step_next_or_refused⟩

/-! ## Missing input (R172) -/

section
variable {s : State}

/-! A length of 0 exposes no element, so the input is held and empty. -/

theorem ftHeld_of_empty (h : s.ftLen = 0) : ftHeld s = true := by
  rw [ftHeld, h]
  exact allWritten_zero _

theorem bsHeld_of_empty (h : s.bsLen = 0) : bsHeld s = true := by
  rw [bsHeld, h]
  exact allWritten_zero _

theorem txtContent_of_empty (h : s.txtLen = 0) : txtContent s = [] := by
  rw [txtContent, h]
  exact content_zero _

theorem bsContent_of_empty (h : s.bsLen = 0) : bsContent s = [] := by
  rw [bsContent, h]
  exact content_zero _

theorem encodeBody_empty (hct : s.ct ≠ none) (h : s.txtLen = 0) :
    encodeBody s = { s with bs := writePrefix s.bs [], bsLen := 0 } := by
  obtain ⟨c, hc⟩ := Option.ne_none_iff_exists'.1 hct
  have hloop : encodeFrom c (bitsMax s.params) 0 (txtContent s) [] = .ok [] := by rw [txtContent_of_empty h, encodeFrom]
  exact encodeBody_bits hc hloop

/-- The empty bitstring has no payload byte and no padding bit. -/
theorem packBody_empty (flag : Bool) (h : s.bsLen = 0) : packBody flag s = { s with
    byBuf := writePrefix s.byBuf (if flag then [0x00] else []), byLen := if flag then 1 else 0, padOut := 0 } := by
  rw [packBody, bsContent_of_empty h]
  cases flag <;> rfl

theorem decodeBody_empty (hct : s.ct ≠ none) (h : s.bsLen = 0) :
    decodeBody s = { s with txt := writePrefix s.txt [], txtLen := 0 } := by
  obtain ⟨c, hc⟩ := Option.ne_none_iff_exists'.1 hct
  have hloop : decodeFrom c 0 (bsContent s) [] 0 [] = .ok [] := by rw [bsContent_of_empty h, decodeFrom, if_pos rfl]
  unfold decodeBody
  simp only [hc, hloop]
  rfl

theorem exec_pack_empty (hs : s.err = none) (flag : Bool) (h : s.bsLen = 0) : exec (.pack flag) s = .next { s with
    byBuf := writePrefix s.byBuf (if flag then [0x00] else []), byLen := if flag then 1 else 0, padOut := 0 } := by
  rw [exec_ready (i := .pack flag) rfl hs (bsHeld_of_empty h), packBody_empty flag h]

end

/-- Settles O54: a check made before the input is read raises its error, and an empty input is held and gives an empty
result. -/
theorem missingInput : Obligations.MissingInput := by
  unfold Obligations.MissingInput
  intro s hs
  refine ⟨fun htxt => ?count, fun hft => ?sort, fun hrl => ?build, fun htree => ?derive, fun hct => ?encodeNoTable,
    fun hct htxt => ?encodeEmpty, fun hbs => ?pack, fun hbs => ?packTrailer, fun hct => ?decodeNoTable,
    fun hct hbs => ?decodeEmpty⟩
  case count => rw [exec_ready (i := .count) rfl hs (txtHeld_of_empty htxt), countBody_empty htxt]
  case sort => exact ⟨sortBody s, exec_ready (i := .sort) rfl hs (ftHeld_of_empty hft), hs, hft⟩
  case build => rw [exec_ready (i := .build) rfl hs (rlHeld_of_empty hrl), buildBody_empty hrl]
  case derive => rw [exec_derive hs, deriveBody_noTree htree]
  case encodeNoTable => rw [exec_encode_noTable hs hct, encodeBody_noTable hct]
  case encodeEmpty =>
    rw [exec_encode_held hs (txtHeld_of_empty htxt), encodeBody_empty hct htxt]
    exact ⟨_, rfl, hs, rfl⟩
  case pack => exact ⟨_, exec_pack_empty hs false hbs, hs, rfl, rfl⟩
  case packTrailer =>
    exact ⟨_, exec_pack_empty hs true hbs, hs, rfl, rfl, holdsPrefix_writePrefix _ [0x00] 0 Nat.one_pos⟩
  case decodeNoTable => rw [exec_decode_noTable hs hct, decodeBody_noTable hct]
  case decodeEmpty =>
    rw [exec_decode_held hs (bsHeld_of_empty hbs), decodeBody_empty hct hbs]
    exact ⟨_, rfl, hs, rfl⟩

end Sys2Proof.Machine
